-- ==== Sys2Proof/Word.lean ====
section
/-! DEFINITION. The word types of the block. No arithmetic of the block stands here. -/

namespace Sys2Proof

/-- A 32-bit word: a CSR value or an f32 carried as its binary32 pattern (00_scope.md R8, R12). -/
abbrev Word := BitVec 32

/-- A command word, 64 bits (30_encoding.md R93). -/
abbrev CmdWord := BitVec 64

/-- A response word, 72 bits (30_encoding.md R95). -/
abbrev RspWord := BitVec 72

/-- A ring item, 32·N_CH bits with channel `c` in bits [32c+31:32c] (20_memory.md R60). N_CH ≤ 64 (00_scope.md R6),
so the pattern is held in the low 32·N_CH of 2048 bits and the bits above are zero (DESIGN CHOICE, log entry 16). -/
abbrev Item := BitVec 2048

end Sys2Proof
end

