-- ==== Sys2Proof/Syntax.lean ====
section
/-! DEFINITION. The twelve commands (30_encoding.md R97), one constructor per row of spec/opcode_table.json, and the two
ports they arrive on (R90). -/

namespace Sys2Proof

/-- The two command ports (30_encoding.md R90). -/
inductive Port where
  /-- producer port, clock domain `clk_p`. -/
  | P
  /-- consumer port, clock domain `clk_c`. -/
  | C
  deriving DecidableEq, Repr

/-- The commands. Counts and indexes are natural numbers ("compared as mathematical integers", 40_ring_buffer.md R145)
whose 24-bit bound `Instr.wf` states; a CSR address is 12 bits, a CSR value 32 bits (30_encoding.md R94). -/
inductive Instr where
  /-- `WRITE n` (40_ring_buffer.md R124). -/
  | write (n : Nat)
  /-- `READ n, c` (R130). -/
  | read (n c : Nat)
  /-- `NREADY` (R137). -/
  | nready
  /-- `FREESP` (R138). -/
  | freesp
  /-- `RESET` (R140). -/
  | reset
  /-- `SETSIZE cap` (R141). -/
  | setsize (cap : Nat)
  /-- `RDCSR addr` (41_csr_and_config.md R160). -/
  | rdcsr (addr : BitVec 12)
  /-- `WRCSR addr, val` (R161). -/
  | wrcsr (addr : BitVec 12) (val : Word)
  /-- `AXBUILD` (R163). -/
  | axbuild
  /-- `UPDATE` (42_spectral_analyzer.md R180). -/
  | update
  /-- `GETINFO idx` (43_interpolator.md R232). -/
  | getinfo (idx : Nat)
  /-- `GETBIN k` (R234). -/
  | getbin (k : Nat)
  deriving DecidableEq, Repr

end Sys2Proof
end

