-- ==== Sys2Proof/WellFormed.lean ====
section
/-! DEFINITION. Which commands have a word: every count and index fits its 24-bit field (30_encoding.md R94). A condition that
the block itself tests and answers with a status (`c > n`, an unpopulated CSR address, a bad capacity) is no condition on
syntax. -/

namespace Sys2Proof

/-- Does `n` fit the u24 field B[23:0] or A[23:0] (30_encoding.md R94)? -/
def fitsU24 (n : Nat) : Bool := decide (n < 2 ^ 24)

/-- The operand fields hold the operands (30_encoding.md R94). -/
def Instr.wf : Instr → Bool
  | .write n => fitsU24 n
  | .read n c => fitsU24 n && fitsU24 c
  | .nready => true
  | .freesp => true
  | .reset => true
  | .setsize cap => fitsU24 cap
  | .rdcsr _ => true
  | .wrcsr _ _ => true
  | .axbuild => true
  | .update => true
  | .getinfo idx => fitsU24 idx
  | .getbin k => fitsU24 k

end Sys2Proof
end

