-- ==== Sys2Proof/Decode.lean ====
section
/-! DEFINITION. Decoding a command word (30_encoding.md R93, R94, R97, R98), total on all 64-bit words and rejecting by name,
the opcode table as rows with match and mask (R97), and after them the encoder written from the same formats. Which port a
command may arrive on is part of a row (`Instr.legalOn`); the meanings of the commands test it, with the same answer
ERR_ILLEGAL that R98 gives (log entry 18). -/

namespace Sys2Proof

/-- Why a word is no command (30_encoding.md R98, R100). -/
inductive Reject where
  /-- opcode not one of the twelve. -/
  | reservedOpcode (op : BitVec 8)
  /-- a known opcode with a non-zero must-be-zero bit. -/
  | mustBeZero (op : BitVec 8)
  deriving DecidableEq, Repr

/-- `op` = CW[63:56] (30_encoding.md R93). -/
def opField (cw : CmdWord) : BitVec 8 := cw.extractLsb' 56 8

/-- `A` = CW[55:32]. -/
def aField (cw : CmdWord) : BitVec 24 := cw.extractLsb' 32 24

/-- `B` = CW[31:0]. -/
def bField (cw : CmdWord) : BitVec 32 := cw.extractLsb' 0 32

/-- Format `Z`: no operand, A and B must be zero (30_encoding.md R94). -/
def decodeZ (cw : CmdWord) (i : Instr) : Except Reject Instr :=
  if aField cw = 0 ∧ bField cw = 0 then .ok i else .error (.mustBeZero (opField cw))

/-- Format `N`: n = B[23:0]; A and B[31:24] must be zero. -/
def decodeN (cw : CmdWord) (f : Nat → Instr) : Except Reject Instr :=
  if aField cw = 0 ∧ (bField cw).extractLsb' 24 8 = 0 then .ok (f ((bField cw).extractLsb' 0 24).toNat)
  else .error (.mustBeZero (opField cw))

/-- Format `NC`: n = B[23:0], c = A[23:0]; B[31:24] must be zero. -/
def decodeNC (cw : CmdWord) (f : Nat → Nat → Instr) : Except Reject Instr :=
  if (bField cw).extractLsb' 24 8 = 0 then .ok (f ((bField cw).extractLsb' 0 24).toNat (aField cw).toNat)
  else .error (.mustBeZero (opField cw))

/-- Format `R`: addr = A[11:0]; A[23:12] and B must be zero. -/
def decodeR (cw : CmdWord) (f : BitVec 12 → Instr) : Except Reject Instr :=
  if (aField cw).extractLsb' 12 12 = 0 ∧ bField cw = 0 then .ok (f ((aField cw).extractLsb' 0 12))
  else .error (.mustBeZero (opField cw))

/-- Format `W`: addr = A[11:0], val = B[31:0]; A[23:12] must be zero. -/
def decodeW (cw : CmdWord) (f : BitVec 12 → Word → Instr) : Except Reject Instr :=
  if (aField cw).extractLsb' 12 12 = 0 then .ok (f ((aField cw).extractLsb' 0 12) (bField cw))
  else .error (.mustBeZero (opField cw))

/-- The decoder: `op` alone selects the row, then the row's must-be-zero bits are tested (30_encoding.md R98). -/
def decode (cw : CmdWord) : Except Reject Instr :=
  let op := opField cw
  if op = 0x01#8 then decodeN cw .write
  else if op = 0x02#8 then decodeNC cw .read
  else if op = 0x03#8 then decodeZ cw .nready
  else if op = 0x04#8 then decodeZ cw .freesp
  else if op = 0x05#8 then decodeZ cw .reset
  else if op = 0x06#8 then decodeN cw .setsize
  else if op = 0x10#8 then decodeR cw .rdcsr
  else if op = 0x11#8 then decodeW cw .wrcsr
  else if op = 0x12#8 then decodeZ cw .axbuild
  else if op = 0x20#8 then decodeZ cw .update
  else if op = 0x21#8 then decodeN cw .getinfo
  else if op = 0x22#8 then decodeN cw .getbin
  else .error (.reservedOpcode op)

/-- The decoder on a word numbered as spec/opcode_table.json numbers it. A command is one whole 64-bit word on a port
(30_encoding.md R90, R93), so there are no bytes to order (20_memory.md R60). -/
def decodeTableWord (nbits w : Nat) : Option Instr :=
  match decode (BitVec.ofNat 64 (w % 2 ^ nbits)) with
  | .ok i => some i
  | .error _ => none

/-- A row of the opcode map: a word is the row's command iff `CW & mask = match` (30_encoding.md R97). -/
structure Row where
  mnemonic : String
  pattern : CmdWord
  mask : CmdWord
  onP : Bool
  onC : Bool
  deriving DecidableEq, Repr

/-- The opcode map of 30_encoding.md R97. -/
def rowOf : Instr → Row
  | .write _ => ⟨"WRITE", 0x0100000000000000, 0xFFFFFFFFFF000000, true, false⟩
  | .read _ _ => ⟨"READ", 0x0200000000000000, 0xFF000000FF000000, false, true⟩
  | .nready => ⟨"NREADY", 0x0300000000000000, 0xFFFFFFFFFFFFFFFF, true, true⟩
  | .freesp => ⟨"FREESP", 0x0400000000000000, 0xFFFFFFFFFFFFFFFF, true, true⟩
  | .reset => ⟨"RESET", 0x0500000000000000, 0xFFFFFFFFFFFFFFFF, false, true⟩
  | .setsize _ => ⟨"SETSIZE", 0x0600000000000000, 0xFFFFFFFFFF000000, false, true⟩
  | .rdcsr _ => ⟨"RDCSR", 0x1000000000000000, 0xFFFFF000FFFFFFFF, false, true⟩
  | .wrcsr _ _ => ⟨"WRCSR", 0x1100000000000000, 0xFFFFF00000000000, false, true⟩
  | .axbuild => ⟨"AXBUILD", 0x1200000000000000, 0xFFFFFFFFFFFFFFFF, false, true⟩
  | .update => ⟨"UPDATE", 0x2000000000000000, 0xFFFFFFFFFFFFFFFF, false, true⟩
  | .getinfo _ => ⟨"GETINFO", 0x2100000000000000, 0xFFFFFFFFFF000000, false, true⟩
  | .getbin _ => ⟨"GETBIN", 0x2200000000000000, 0xFFFFFFFFFF000000, false, true⟩

/-- The "ports" column of 30_encoding.md R97. -/
def Instr.legalOn (i : Instr) : Port → Bool
  | .P => (rowOf i).onP
  | .C => (rowOf i).onC

/-- A command word from its three fields (30_encoding.md R93). -/
def cmdWord (op : BitVec 8) (a : BitVec 24) (b : BitVec 32) : CmdWord := (op ++ a) ++ b

/-- Format `N` of the encoder: B = {0, n}. -/
def encodeN (op : BitVec 8) (n : Nat) : CmdWord := cmdWord op 0 (0#8 ++ BitVec.ofNat 24 n)

/-- The word of a command (30_encoding.md R93, R94, R97). -/
def encode : Instr → CmdWord
  | .write n => encodeN 0x01 n
  | .read n c => cmdWord 0x02 (BitVec.ofNat 24 c) (0#8 ++ BitVec.ofNat 24 n)
  | .nready => cmdWord 0x03 0 0
  | .freesp => cmdWord 0x04 0 0
  | .reset => cmdWord 0x05 0 0
  | .setsize cap => encodeN 0x06 cap
  | .rdcsr addr => cmdWord 0x10 (0#12 ++ addr) 0
  | .wrcsr addr val => cmdWord 0x11 (0#12 ++ addr) val
  | .axbuild => cmdWord 0x12 0 0
  | .update => cmdWord 0x20 0 0
  | .getinfo idx => encodeN 0x21 idx
  | .getbin k => encodeN 0x22 k

end Sys2Proof
end

