-- ==== Sys2Proof/Config.lean ====
section
/-! DEFINITION. The parameters of an implementation (00_scope.md R6), the reference configuration REF-A (R7), and what the
spec leaves free: the NaN draw and the functions `fln` and `fexp` (R9; 93_implementation_defined.md U6, U7). -/

namespace Sys2Proof.Config

/-- The configuration record of 00_scope.md R6. PTR_W, LOG2N, BINS, KEEP and INV_KM1 are derived from it
(Sys2Proof/Machine/Sizes.lean), and the twiddle ROM is fixed by FFT_SIZE (Sys2Proof/Machine/Rom.lean). -/
structure Params where
  /-- N_CH, channels per frame. -/
  nCh : Nat
  /-- DEPTH, physical item slots of the ring storage. -/
  depth : Nat
  /-- CAP_RESET, logical capacity after reset. -/
  capReset : Nat
  /-- SYNC_STAGES, flip-flop stages of each pointer synchroniser. -/
  syncStages : Nat
  /-- FFT_SIZE, samples per analysis block. -/
  fftSize : Nat
  /-- K, slots of the averaging window, slot 0 being the accumulator. -/
  k : Nat
  /-- RES_MAX, largest output resolution. -/
  resMax : Nat
  /-- WIN, the window ROM. -/
  win : List Word
  deriving DecidableEq, Repr

/-- REF-A (00_scope.md R7): the spec's test fixture, with an all-ones window. -/
def refA : Params where
  nCh := 1
  depth := 16
  capReset := 16
  syncStages := 2
  fftSize := 8
  k := 5
  resMax := 8
  win := List.replicate 8 0x3F800000#32

/-- Which floating-point operation of a step a NaN draw belongs to. Two operations of one step never share a draw,
so nothing relates the NaN patterns of two results (U6). The last argument `op` of a constructor numbers the
operations of one line of pseudocode in the order they are written. -/
inductive DrawSite where
  /-- channel sum, `fadd` of channel `ch` (42_spectral_analyzer.md R183). -/
  | channel (ch : Nat)
  /-- windowing of sample `j` (R185). -/
  | window (j : Nat)
  /-- the butterfly of stage `s` on the pair whose upper index is `a` (R190). -/
  | butterfly (s a op : Nat)
  /-- magnitude of bin `k` (R191). -/
  | magnitude (k op : Nat)
  /-- averaging of bin `k` (R193). -/
  | average (k op : Nat)
  /-- axis entry `i` (41_csr_and_config.md R163). -/
  | axis (i op : Nat)
  /-- `NYQ` (43_interpolator.md R222). -/
  | nyquist
  /-- bin coordinate of output index `x` (R222). -/
  | coordinate (x op : Nat)
  /-- local axis width at output index `x` (R224). -/
  | width (x : Nat)
  /-- interpolated value at output index `x` (R225, R226). -/
  | value (x op : Nat)
  deriving DecidableEq, Repr

/-- FREE VALUE (00_scope.md R9, U6, log entry 7): sign and payload of the NaN that the operation `site` of the step
with draw number `n` would return. Nothing is known of it. -/
opaque freeNaN : Nat → DrawSite → BitVec 24

/-- FREE FUNCTION (R9, U7, log entry 8): the natural logarithm on binary32, total, depending on its operand alone. -/
opaque fln : Word → Word

/-- FREE FUNCTION (R9, U7, log entry 8): the exponential on binary32, total, depending on its operand alone. -/
opaque fexp : Word → Word

end Sys2Proof.Config
end

