-- ==== Sys2Proof/Machine/Float.lean ====
section
/-! DEFINITION. IEEE-754 binary32 with round to nearest even, no fused operation, subnormals kept, no exception flags
(00_scope.md R9, 60_exceptions.md R253). The format and its operations are general knowledge in the spec itself and
PRESUMED here (log entry 9). An operation that could return a NaN takes the NaN's sign and payload `q` as an argument: the
free value of R9 (log entry 7). -/

namespace Sys2Proof.Machine

/-- What a binary32 pattern stands for. A finite value is (−1)^s · m · 2^(e − 149) with e ≥ 0. -/
inductive Unpacked where
  | nan
  | inf (s : Bool)
  | fin (s : Bool) (m e : Nat)
  deriving DecidableEq, Repr

/-- Bit 31 (20_memory.md R60). -/
def f32Sign (w : Word) : Bool := w.getLsbD 31

/-- Bits 30:23. -/
def f32Exp (w : Word) : Nat := (w.extractLsb' 23 8).toNat

/-- Bits 22:0. -/
def f32Frac (w : Word) : Nat := (w.extractLsb' 0 23).toNat

/-- The value of a pattern. -/
def unpack (w : Word) : Unpacked :=
  if f32Exp w = 255 then
    if f32Frac w = 0 then .inf (f32Sign w) else .nan
  else if f32Exp w = 0 then .fin (f32Sign w) (f32Frac w) 0
  else .fin (f32Sign w) (f32Frac w + 2 ^ 23) (f32Exp w - 1)

/-- The pattern with sign `s` and magnitude bits `bits` (31 bits). -/
def packBits (s : Bool) (bits : Nat) : Word := BitVec.ofNat 32 (bits + if s then 2 ^ 31 else 0)

/-- The NaN pattern drawn by `q`: its top bit is the sign, the rest the fraction; a zero fraction would be an infinity
and stands for fraction 1. Every NaN pattern is drawn by some `q`. -/
def nanOf (q : BitVec 24) : Word :=
  packBits (q.getLsbD 23) (0x7F800000 + if (q.extractLsb' 0 23).toNat = 0 then 1 else (q.extractLsb' 0 23).toNat)

/-- Infinity of sign `s`. -/
def infOf (s : Bool) : Word := packBits s 0x7F800000

/-- Zero of sign `s`. -/
def zeroOf (s : Bool) : Word := packBits s 0

/-- `m / 2^sh` rounded to the nearest integer, a tie to the even one. -/
def roundShift (m sh : Nat) : Nat :=
  if sh = 0 then m
  else
    let hi := m / 2 ^ sh
    let lo := m % 2 ^ sh
    if 2 ^ (sh - 1) < lo ∨ (lo = 2 ^ (sh - 1) ∧ hi % 2 = 1) then hi + 1 else hi

/-- The binary32 pattern nearest to (−1)^s · m · 2^(e − 400), ties to even, overflow to infinity. The result's last
place is the larger of 2^−149 and the 24th bit of the value. -/
def roundPack (s : Bool) (m e : Nat) : Word :=
  if m = 0 then zeroOf s
  else
    let q := max (m.log2 + 1 + e - 24) 251
    let mant := if q ≤ e then m * 2 ^ (e - q) else roundShift m (q - e)
    let bits := (q - 251) * 2 ^ 23 + mant
    if 0x7F800000 ≤ bits then infOf s else packBits s bits

/-- Is the pattern a NaN? -/
def isNaN (w : Word) : Bool := decide (unpack w = .nan)

/-- Is the pattern neither a NaN nor an infinity? -/
def isFinite (w : Word) : Bool := decide (f32Exp w ≠ 255)

/-- The pattern with its sign turned over. -/
def fneg (w : Word) : Word := w ^^^ 0x80000000#32

/-- A signed integer (−1)^s · m. -/
def signed (s : Bool) (m : Nat) : Int := if s then -(m : Int) else (m : Int)

/-- `fadd` of finite values: the exact sum on the smaller exponent, rounded once. -/
def addFinite (s1 : Bool) (m1 e1 : Nat) (s2 : Bool) (m2 e2 : Nat) : Word :=
  let e := min e1 e2
  let t := signed s1 (m1 * 2 ^ (e1 - e)) + signed s2 (m2 * 2 ^ (e2 - e))
  if t = 0 then zeroOf (s1 && s2) else roundPack (decide (t < 0)) t.natAbs (e + 251)

/-- `fadd` (00_scope.md R9). -/
def fadd (q : BitVec 24) (a b : Word) : Word :=
  match unpack a, unpack b with
  | .nan, _ => nanOf q
  | _, .nan => nanOf q
  | .inf s1, .inf s2 => if s1 = s2 then infOf s1 else nanOf q
  | .inf s, .fin _ _ _ => infOf s
  | .fin _ _ _, .inf s => infOf s
  | .fin s1 m1 e1, .fin s2 m2 e2 => addFinite s1 m1 e1 s2 m2 e2

/-- `fsub` (R9): addition of the negated operand. -/
def fsub (q : BitVec 24) (a b : Word) : Word := fadd q a (fneg b)

/-- `fmul` (R9). -/
def fmul (q : BitVec 24) (a b : Word) : Word :=
  match unpack a, unpack b with
  | .nan, _ => nanOf q
  | _, .nan => nanOf q
  | .inf s1, .inf s2 => infOf (s1 ^^ s2)
  | .inf s1, .fin s2 m _ => if m = 0 then nanOf q else infOf (s1 ^^ s2)
  | .fin s1 m _, .inf s2 => if m = 0 then nanOf q else infOf (s1 ^^ s2)
  | .fin s1 m1 e1, .fin s2 m2 e2 => roundPack (s1 ^^ s2) (m1 * m2) (e1 + e2 + 102)

/-- A quotient with 64 extra bits and, as its last bit, whether a remainder was left. -/
def stickyDiv (n d : Nat) : Nat := 2 * (n / d) + if n % d = 0 then 0 else 1

/-- `fdiv` (R9). -/
def fdiv (q : BitVec 24) (a b : Word) : Word :=
  match unpack a, unpack b with
  | .nan, _ => nanOf q
  | _, .nan => nanOf q
  | .inf _, .inf _ => nanOf q
  | .inf s1, .fin s2 _ _ => infOf (s1 ^^ s2)
  | .fin s1 _ _, .inf s2 => zeroOf (s1 ^^ s2)
  | .fin s1 m1 e1, .fin s2 m2 e2 =>
    if m2 = 0 then (if m1 = 0 then nanOf q else infOf (s1 ^^ s2))
    else roundPack (s1 ^^ s2) (stickyDiv (m1 * 2 ^ 64) m2) (e1 + 335 - e2)

/-- The integer square root of `n`, found bit by bit from bit `k − 1` down, on top of `r`. -/
def isqrtFrom (n : Nat) : Nat → Nat → Nat
  | 0, r => r
  | k + 1, r => if (r + 2 ^ k) * (r + 2 ^ k) ≤ n then isqrtFrom n k (r + 2 ^ k) else isqrtFrom n k r

/-- The integer square root of a number below 2^90. -/
def isqrt (n : Nat) : Nat := isqrtFrom n 45 0

/-- A square root with, as its last bit, whether a remainder was left. -/
def stickySqrt (n : Nat) : Nat := 2 * isqrt n + if isqrt n * isqrt n = n then 0 else 1

/-- `fsqrt` (R9). -/
def fsqrt (q : BitVec 24) (a : Word) : Word :=
  match unpack a with
  | .nan => nanOf q
  | .inf s => if s then nanOf q else infOf false
  | .fin s m e =>
    if m = 0 then zeroOf s
    else if s then nanOf q
    else if e % 2 = 0 then roundPack false (stickySqrt (m * 2 ^ 61)) (e / 2 + 294)
    else roundPack false (stickySqrt (m * 2 ^ 60)) (e / 2 + 295)

/-- An integer that orders the patterns as their values are ordered; both zeros give 0. -/
def orderKey (w : Word) : Int := signed (f32Sign w) (f32Exp w * 2 ^ 23 + f32Frac w)

/-- `a < b`, ordered: false if either is a NaN (R9). -/
def flt (a b : Word) : Bool := !isNaN a && !isNaN b && decide (orderKey a < orderKey b)

/-- `a > b`, ordered. -/
def fgt (a b : Word) : Bool := flt b a

/-- `a ≥ b`, ordered. -/
def fge (a b : Word) : Bool := !isNaN a && !isNaN b && decide (orderKey b ≤ orderKey a)

/-- `i2f` (R9): exact for 0 ≤ i ≤ 2^24. -/
def i2f (i : Nat) : Word := roundPack false i 400

/-- `floor` of a positive finite value (43_interpolator.md R223); 0 for every other pattern. -/
def floorNat (w : Word) : Nat :=
  match unpack w with
  | .fin false m e => m * 2 ^ e / 2 ^ 149
  | _ => 0

/-- The binary32 value nearest to the positive rational `num / den`. A quotient below 2^−199 is nearest to zero. -/
def nearestRat (s : Bool) (num den : Nat) : Word :=
  if num.log2 + 200 < den.log2 then zeroOf s
  else roundPack s (stickyDiv (num * 2 ^ (den.log2 + 64 - num.log2)) den) (399 - (den.log2 + 64 - num.log2))

/-- The constant 1.0. -/
def f32One : Word := 0x3F800000#32

/-- The constant 0.5. -/
def f32Half : Word := 0x3F000000#32

end Sys2Proof.Machine
end

