-- ==== Sys2Proof/Machine/Sizes.lean ====
section
/-! DEFINITION. The parameters 00_scope.md R6 derives from the configuration record, and which records are well formed
(93_implementation_defined.md U2). -/

namespace Sys2Proof.Config.Params

open Sys2Proof.Machine

/-- `clog2(x)` = ceil(log2(x)) (00_scope.md R12). -/
def clog2 (x : Nat) : Nat := if x ≤ 1 then 0 else (x - 1).log2 + 1

/-- PTR_W = max(1, ceil(log2(DEPTH))) (R6). -/
def ptrW (p : Params) : Nat := max 1 (clog2 p.depth)

/-- LOG2N = log2(FFT_SIZE) (R6). -/
def log2n (p : Params) : Nat := p.fftSize.log2

/-- BINS = FFT_SIZE / 2 (R6). -/
def bins (p : Params) : Nat := p.fftSize / 2

/-- KEEP = FFT_SIZE / 2 (R6). -/
def keep (p : Params) : Nat := p.fftSize / 2

/-- INV_KM1, the binary32 value nearest to 1/(K−1) (R6). -/
def invKm1 (p : Params) : Word := nearestRat false 1 (p.k - 1)

/-- The window ROM (R6, R36). -/
def window (p : Params) (j : Nat) : Word := p.win.getD j 0

/-- The constraints of R6. A record that breaks one makes the configuration ill formed (U2). -/
def wf (p : Params) : Bool :=
  decide (1 ≤ p.nCh) && decide (p.nCh ≤ 64) &&
  decide (p.depth % 2 = 0) && decide (2 ≤ p.depth) && decide (p.depth ≤ 2 ^ 24 - 2) &&
  decide (p.capReset % 2 = 0) && decide (2 ≤ p.capReset) && decide (p.capReset ≤ p.depth) &&
  decide (2 ≤ p.syncStages) &&
  decide (2 ^ p.fftSize.log2 = p.fftSize) && decide (2 ≤ p.fftSize) && decide (p.fftSize ≤ 2 ^ 23) &&
  decide (2 ≤ p.k) &&
  decide (2 ≤ p.resMax) && decide (p.resMax ≤ 2 ^ 24) &&
  decide (p.win.length = p.fftSize) && p.win.all isFinite

end Sys2Proof.Config.Params
end

