-- ==== Sys2Proof/Machine/Gray.lean ====
section
/-! DEFINITION. The pointer code (10_state.md R24): the reflected Gray code of a centred window of 2^PTR_W codes. PTR_W and
CAPACITY vary with the configuration, so a code is held as a number below 2^PTR_W. -/

namespace Sys2Proof.Machine

/-- `gray(v) = v ^ (v >> 1)` (R24). -/
def gray (v : Nat) : Nat := v ^^^ (v >>> 1)

/-- `ungray(g) = g ^ (g >> 1) ^ … ^ (g >> (PTR_W − 1))` (R24). -/
def ungray (W g : Nat) : Nat := (List.range W).foldl (fun acc i => acc ^^^ (g >>> i)) 0

/-- `off(Cp) = (2^PTR_W − Cp) / 2` (R24). -/
def codeOff (W Cp : Nat) : Nat := (2 ^ W - Cp) / 2

/-- `code(i) = gray(i + off(CAPACITY))` (R24). -/
def ptrCode (W Cp i : Nat) : Nat := gray (i + codeOff W Cp)

/-- `decode(g) = ungray(g) − off(CAPACITY)` (R24), on mathematical integers (00_scope.md R12). -/
def ptrDecode (W Cp g : Nat) : Int := (ungray W g : Int) - (codeOff W Cp : Int)

/-- `x mod C`, the non-negative remainder (00_scope.md R12). -/
def modC (x : Int) (C : Nat) : Nat := (x % (C : Int)).toNat

end Sys2Proof.Machine
end

