-- ==== Sys2Proof/Machine/Memory.lean ====
section
/-! DEFINITION. An element-indexed memory space (10_state.md R40, 20_memory.md R60): a list of (index, element) pairs in one
canonical form. The block has no byte-addressed memory, so an entry is a whole element and not a byte (log entry 17). `d` is
what an unlisted index reads as: `none` for a space whose reset contents are unspecified (R42), `some 0` for a space that
reset clears to +0.0. -/

namespace Sys2Proof.Machine

/-- Entries with strictly rising indexes, none equal to what an unlisted index reads as. -/
abbrev Memory (α : Type) := List (Nat × α)

namespace Memory

variable {α : Type}

/-- The listed element at index `a`. -/
def find : Memory α → Nat → Option α
  | [], _ => none
  | (k, v) :: m, a => if k = a then some v else find m a

/-- Lists `v` at index `a`. -/
def put : Memory α → Nat → α → Memory α
  | [], a, v => [(a, v)]
  | (k, x) :: m, a, v =>
    if a < k then (a, v) :: (k, x) :: m
    else if a = k then (a, v) :: m
    else (k, x) :: put m a v

/-- Unlists index `a`. -/
def drop : Memory α → Nat → Memory α
  | [], _ => []
  | (k, x) :: m, a => if a = k then m else (k, x) :: drop m a

/-- `MemRead` (00_scope.md R13): the element at index `a`, or none if nothing has given it a value. -/
def read (d : Option α) (m : Memory α) (a : Nat) : Option α :=
  match find m a with
  | some v => some v
  | none => d

/-- `MemWrite` (00_scope.md R13), keeping the canonical form. -/
def write [DecidableEq α] (d : Option α) (m : Memory α) (a : Nat) (v : α) : Memory α :=
  if d = some v then drop m a else put m a v

/-- The elements at indexes 0..n−1, or none if one of them has no value. -/
def readFirst (d : Option α) (m : Memory α) : Nat → Option (List α)
  | 0 => some []
  | n + 1 =>
    match readFirst d m n, read d m n with
    | some xs, some v => some (xs ++ [v])
    | _, _ => none

/-- Writes `vs` at indexes `i`, `i + 1`, … in turn. -/
def writeFrom [DecidableEq α] (d : Option α) (m : Memory α) : Nat → List α → Memory α
  | _, [] => m
  | i, v :: vs => writeFrom d (write d m i v) (i + 1) vs

/-- The canonical form. -/
def wf [DecidableEq α] (d : Option α) (m : Memory α) : Bool :=
  decide ((m.map Prod.fst).Pairwise (· < ·)) && m.all (fun e => decide (d ≠ some e.2))

end Memory

/-- A space of f32 elements that reset clears: an unlisted element reads as +0.0 (10_state.md R33, R35). -/
def zeroed : Option Word := some 0#32

/-- Reads a cleared space. -/
def Memory.readZ (m : Memory Word) (a : Nat) : Word := (Memory.find m a).getD 0#32

/-- Writes a cleared space. -/
def Memory.writeZ (m : Memory Word) (a : Nat) (v : Word) : Memory Word := Memory.write zeroed m a v

end Sys2Proof.Machine
end

