-- ==== Sys2Proof/Machine/State.lean ====
section
/-! DEFINITION. The state of the block, field by field as 10_state.md gives it, and its reset value (R42). The fields of the last
group are the model's own: the spec calls them inputs of the step relation (the parameters, the command streams, the schedule),
and the step of this model is a function of State alone (log entries 1, 2, 3). -/

namespace Sys2Proof.Machine

open Sys2Proof.Config

/-- `P_PHASE` (10_state.md R20). -/
inductive PPhase where
  | idle
  | busy
  deriving DecidableEq, Repr

/-- `C_PHASE` (R20). -/
inductive CPhase where
  | idle
  | beats
  | release
  | compute
  deriving DecidableEq, Repr

/-- `C_DST` (R20). -/
inductive CDst where
  | port
  | analyzer
  deriving DecidableEq, Repr

/-- One scheduled transition: a step of one of the four agents (00_scope.md R10, R14), or one move of the host
(70_reset_and_hazards.md R290, R280). -/
inductive Turn where
  /-- a step of agent P. -/
  | agentP
  /-- a step of agent C. -/
  | agentC
  /-- a step of agent ST. -/
  | agentST
  /-- a step of agent SH. -/
  | agentSH
  /-- the host offers a command word on port P. -/
  | offerP (cw : CmdWord)
  /-- the host offers a command word on port C. -/
  | offerC (cw : CmdWord)
  /-- the host offers a beat on `p_dat`. -/
  | beatP (item : Item)
  /-- the host raises or lowers its readiness for beats on `c_dat`. -/
  | readyC (b : Bool)
  /-- the host takes the oldest pending response of port P. -/
  | takeP
  /-- the host takes the oldest pending response of port C. -/
  | takeC
  /-- the host asserts and releases `rst`. -/
  | rst
  deriving DecidableEq, Repr

/-- The memory spaces a fault can name (10_state.md R40). -/
inductive Space where
  | ring
  | axis
  | input
  | avg
  | out
  deriving DecidableEq, Repr

/-- The state of the block. -/
structure State where
  /-- `TAIL`, next write position (R20, R21). -/
  tail : Nat
  /-- `HEAD`, next read position (R20, R21). -/
  head : Nat
  /-- `CAPACITY` in items (R20, R22). -/
  capacity : Nat
  /-- `TAILV[1..SYNC_STAGES]`, stage 1 first (R20, R25). -/
  tailv : List Nat
  /-- `HEADV[1..SYNC_STAGES]`, stage 1 first (R20, R25). -/
  headv : List Nat
  /-- `P_PHASE`. -/
  pPhase : PPhase
  /-- `P_REM`. -/
  pRem : Nat
  /-- `C_PHASE`. -/
  cPhase : CPhase
  /-- `C_DST`. -/
  cDst : CDst
  /-- `C_REM`. -/
  cRem : Nat
  /-- `C_OFF`. -/
  cOff : Nat
  /-- `C_REL`. -/
  cRel : Nat
  /-- `AVG_PTR` (R20, R33). -/
  avgPtr : Nat
  /-- `RNG_MIN` (R37). -/
  rngMin : Word
  /-- `RNG_MAX` (R37). -/
  rngMax : Word
  /-- `STICKY` (R27). -/
  sticky : Bool
  /-- `AXIS_VALID`, STATUS bit 0 (R27). -/
  axisValid : Bool
  /-- `DATA_VALID`, STATUS bit 1 (R27). -/
  dataValid : Bool
  /-- CSR `RES`, staged (R28). -/
  res : Word
  /-- CSR `FMIN`, staged. -/
  fmin : Word
  /-- CSR `FMAX`, staged. -/
  fmax : Word
  /-- CSR `DIST`, staged. -/
  dist : Word
  /-- CSR `SRATE`, staged. -/
  srate : Word
  /-- CSR `INTERP`, immediate. -/
  interp : Word
  /-- `A_RES`, active (R29). -/
  aRes : Word
  /-- `A_FMIN`, active. -/
  aFmin : Word
  /-- `A_FMAX`, active. -/
  aFmax : Word
  /-- `A_DIST`, active. -/
  aDist : Word
  /-- `A_SRATE`, active. -/
  aSrate : Word
  /-- `RING` (R31); an unlisted slot has no value. -/
  ring : Memory Item
  /-- `IN` (R32); no value. -/
  inBuf : Memory Word
  /-- `RE` (R32); no value. -/
  re : Memory Word
  /-- `IM` (R32); no value. -/
  im : Memory Word
  /-- `MAG` (R32); no value. -/
  mag : Memory Word
  /-- `AVG` (R33), element (p, k) at index p·BINS + k; an unlisted element is +0.0. -/
  avg : Memory Word
  /-- `AXIS` (R34); no value. -/
  axis : Memory Word
  /-- `OUT` (R35); an unlisted element is +0.0. -/
  out : Memory Word
  /-- response words of port P not yet taken by the host, oldest first (30_encoding.md R92, 10_state.md R42). -/
  pRsp : List RspWord
  /-- response words of port C not yet taken by the host, oldest first. -/
  cRsp : List RspWord
  /-- MODEL'S OWN: the parameters (00_scope.md R6), constant (log entry 1). -/
  cfg : Params
  /-- MODEL'S OWN: the turns still to come (log entry 2). -/
  turns : List Turn
  /-- MODEL'S OWN: the port whose command is being executed (00_scope.md R13; log entry 2). -/
  port : Port
  /-- MODEL'S OWN: command words on offer on port P, the first one next (log entry 3). -/
  pCmd : List CmdWord
  /-- MODEL'S OWN: command words on offer on port C (log entry 3). -/
  cCmd : List CmdWord
  /-- MODEL'S OWN: beats on offer on `p_dat` (log entry 3). -/
  pDat : List Item
  /-- MODEL'S OWN: does the host accept beats on `c_dat` (log entry 3)? -/
  cDatReady : Bool
  /-- MODEL'S OWN: the beats delivered on `c_dat`, oldest first (log entry 3). -/
  cDat : List Item
  /-- MODEL'S OWN: how many responses of port C the host must still take until it has the response of the last RESET or
  SETSIZE (70_reset_and_hazards.md R291; log entry 12). -/
  quiet : Nat
  /-- MODEL'S OWN: the number of the next step that may draw NaN patterns (log entry 7). -/
  draws : Nat
  deriving DecidableEq, Repr

/-- Why a step stops the run. None of these is a status of the block: each is `fault(reason)` of 00_scope.md R13. -/
inductive Fault where
  /-- raised by RESET with `P_PHASE` ≠ IDLE (40_ring_buffer.md R140, R142, U1); safe. -/
  | resetWhileProducerActive
  /-- raised by SETSIZE with `P_PHASE` ≠ IDLE (R141, R142, U1); safe. -/
  | resizeWhileProducerActive
  /-- raised by a host move after which port P is BUSY or has a command on offer while a RESET or SETSIZE is on offer or its
  response not taken (70_reset_and_hazards.md R291, U1; log entry 12); safe. -/
  | producerNotQuiescent
  /-- raised by a read of an element nothing has given a value (U5, 92_eei_decisions.md D23; log entry 6); safe, and
  unreachable. -/
  | unwrittenRead (sp : Space)
  /-- raised by an access beyond the last element of a space (20_memory.md R61; log entry 19); safe, and unreachable. -/
  | noSuchElement (sp : Space)
  deriving DecidableEq, Repr

/-- Why an instruction has no meaning. -/
inductive Refusal where
  /-- raised by an arm of `exec` whose command is not modelled; safe. No arm is left so. -/
  | notModelled (mnemonic : String)
  deriving DecidableEq, Repr

/-- The outcome of a step of this block. -/
abbrev Result := Host.Outcome State Fault Refusal

/-- The state at the release of `rst` (10_state.md R42) under the parameters `p`. -/
def State.resetWith (p : Params) : State where
  tail := 0
  head := 0
  capacity := p.capReset
  tailv := List.replicate p.syncStages (ptrCode p.ptrW p.capReset 0)
  headv := List.replicate p.syncStages (ptrCode p.ptrW p.capReset 0)
  pPhase := .idle
  pRem := 0
  cPhase := .idle
  cDst := .port
  cRem := 0
  cOff := 0
  cRel := 0
  avgPtr := 1
  rngMin := 0
  rngMax := 0
  sticky := false
  axisValid := false
  dataValid := false
  res := 0
  fmin := 0
  fmax := 0
  dist := 0
  srate := 0
  interp := 0
  aRes := 0
  aFmin := 0
  aFmax := 0
  aDist := 0
  aSrate := 0
  ring := []
  inBuf := []
  re := []
  im := []
  mag := []
  avg := []
  axis := []
  out := []
  pRsp := []
  cRsp := []
  cfg := p
  turns := []
  port := .C
  pCmd := []
  cCmd := []
  pDat := []
  cDatReady := false
  cDat := []
  quiet := 0
  draws := 0

/-- The machine right after reset, under REF-A (00_scope.md R7; DESIGN CHOICE, log entry 1). -/
def State.reset : State := State.resetWith refA

/-- A run starts only from a well-formed configuration: an ill-formed one is rejected before any run
(93_implementation_defined.md U2). -/
def State.start (p : Params) : Option State := if p.wf then some (State.resetWith p) else none

end Sys2Proof.Machine
end

