-- ==== Sys2Proof/Machine/Ops.lean ====
section
/-! DEFINITION. The named operations the meanings share: responses and `raise` (00_scope.md R13, 30_encoding.md R95, R96), the
views of the other side's pointer and the counts (10_state.md R25, 40_ring_buffer.md R121), the ring storage, clearing the
pointers (R140, R141), the synchroniser steps (20_memory.md R66, R67), and `rst` (70_reset_and_hazards.md R280).

The block takes no exception and has no return (60_exceptions.md R257, R259): what stands in the place of one is `raise`, a
non-OK status in the response with no other state change. -/

namespace Sys2Proof.Machine

/-! ### Responses -/

/-- The status codes (30_encoding.md R96). -/
inductive Status where
  | ok
  | fail
  | errIllegal
  | errOperand
  | errCfg
  | errState
  deriving DecidableEq, Repr

/-- `st` of a response (30_encoding.md R96). -/
def Status.code : Status → BitVec 8
  | .ok => 0x00
  | .fail => 0x01
  | .errIllegal => 0x02
  | .errOperand => 0x03
  | .errCfg => 0x04
  | .errState => 0x05

/-- `RW = {st, d1, d0}` (30_encoding.md R95). -/
def respWord (st : Status) (d1 d0 : Word) : RspWord := (st.code ++ d1) ++ d0

/-- `respond(st, d1, d0)`: sends the response word on the port the command came from (00_scope.md R13). The host may take it
later (70_reset_and_hazards.md R290), so it is appended to the responses that port has pending (log entry 4). -/
def respond (st : Status) (d1 d0 : Word) (s : State) : State :=
  { s with
    pRsp := if s.port = .P then s.pRsp ++ [respWord st d1 d0] else s.pRsp
    cRsp := if s.port = .C then s.cRsp ++ [respWord st d1 d0] else s.cRsp }

/-- `raise E`: the response (E, 0, 0) and the end of the command with no other state change (00_scope.md R13,
60_exceptions.md R257). -/
def raise (e : Status) (s : State) : Result := .next (respond e 0 0 s)

/-- The command is legal on port `p` alone; on the other port it raises ERR_ILLEGAL (30_encoding.md R98). -/
def onlyOn (p : Port) (s : State) (r : Result) : Result := if s.port = p then r else raise .errIllegal s

/-! ### Views and counts -/

/-- `code(i)` under the current CAPACITY (10_state.md R24). -/
def codeOf (s : State) (i : Nat) : Nat := ptrCode s.cfg.ptrW s.capacity i

/-- `decode(g)` under the current CAPACITY (R24). -/
def decodeOf (s : State) (g : Nat) : Int := ptrDecode s.cfg.ptrW s.capacity g

/-- `head_p = decode(HEADV[SYNC_STAGES])`, the producer's view of the head (R25). -/
def headView (s : State) : Int := decodeOf s (s.headv.getLastD 0)

/-- `tail_c = decode(TAILV[SYNC_STAGES])`, the consumer's view of the tail (R25). -/
def tailView (s : State) : Int := decodeOf s (s.tailv.getLastD 0)

/-- `occupied(t, h) = (t − h) mod C` (40_ring_buffer.md R121). -/
def occupied (C : Nat) (t h : Int) : Nat := modC (t - h) C

/-- `occ_p`, evaluated by the producer at (TAIL, head_p) (R121, R125). -/
def occP (s : State) : Nat := occupied s.capacity s.tail (headView s)

/-- `free_p = C − occ_p − 1` (R121, R125). -/
def freeP (s : State) : Nat := s.capacity - occP s - 1

/-- `ready_c`, evaluated by the consumer at (tail_c, HEAD) (R121, R131). -/
def readyC (s : State) : Nat := occupied s.capacity (tailView s) s.head

/-- `free` at (tail_c, HEAD), what FREESP answers on port C (R138). -/
def freeC (s : State) : Nat := s.capacity - readyC s - 1

/-! ### Ring storage and pointers -/

/-- The slot of the item `k` places after HEAD (20_memory.md R65). -/
def slotAt (s : State) (k : Nat) : Nat := (s.head + k) % s.capacity

/-- `MemRead(RING, (HEAD + k) mod C)` (40_ring_buffer.md R132). -/
def ringRead (s : State) (k : Nat) : Option Item := Memory.read none s.ring (slotAt s k)

/-- HEAD = TAIL = 0 and every stage code(0) under the current CAPACITY (R140, R141). -/
def clearPointers (s : State) : State :=
  { s with
    head := 0
    tail := 0
    tailv := List.replicate s.cfg.syncStages (codeOf s 0)
    headv := List.replicate s.cfg.syncStages (codeOf s 0) }

/-- The step of agent ST (20_memory.md R66). -/
def syncTail (s : State) : State :=
  { s with tailv := (codeOf s s.tail :: s.tailv).take s.cfg.syncStages }

/-- The step of agent SH (20_memory.md R67). -/
def syncHead (s : State) : State :=
  { s with headv := (codeOf s s.head :: s.headv).take s.cfg.syncStages }

/-- `rst` (70_reset_and_hazards.md R280): every state of the block at its reset value, nothing pending. What the host still
offers and the schedule are outside the block and stay, and so does the counter of the free value (log entry 14). -/
def resetBlock (s : State) : State :=
  { State.resetWith s.cfg with
    turns := s.turns
    pCmd := s.pCmd
    cCmd := s.cCmd
    pDat := s.pDat
    cDatReady := s.cDatReady
    cDat := s.cDat
    draws := s.draws }

end Sys2Proof.Machine
end

