-- ==== Sys2Proof/Machine/Flags.lean ====
section
/-! DEFINITION. The flags of 10_state.md R27. The block has no arithmetic condition codes; AXIS_VALID and DATA_VALID are the only
status flags, and STICKY is written by the interpolation pass alone (Sys2Proof/Machine/Interpolator.lean). -/

namespace Sys2Proof.Machine

/-- A successful AXBUILD sets AXIS_VALID and clears DATA_VALID (R27, 41_csr_and_config.md R163). -/
def flagAxisBuilt (s : State) : State := { s with axisValid := true, dataValid := false }

/-- A successful UPDATE sets DATA_VALID (R27, 42_spectral_analyzer.md R199). -/
def flagDataValid (s : State) : State := { s with dataValid := true }

end Sys2Proof.Machine
end

