-- ==== Sys2Proof/Machine/Operands.lean ====
section
/-! DEFINITION. The operand forms: the CSR address (10_state.md R28) with what a read and a write of each register do (R29, R30),
and the samples of an item (20_memory.md R60). Counts, indexes and values are taken as they stand: unsigned, never scaled or
extended by sign (30_encoding.md R94). -/

namespace Sys2Proof.Machine

/-- The populated control and status registers (10_state.md R28). -/
inductive Csr where
  | capacity
  | status
  | pDepth
  | pFft
  | pNch
  | pK
  | pResmax
  | version
  | res
  | fmin
  | fmax
  | dist
  | srate
  | interp
  | rngMin
  | rngMax
  | avgPtr
  | aRes
  deriving DecidableEq, Repr

/-- The register at an address, none if the address is not populated (10_state.md R28). -/
def Csr.ofAddr (addr : BitVec 12) : Option Csr :=
  match addr.toNat with
  | 0x000 => some .capacity
  | 0x001 => some .status
  | 0x002 => some .pDepth
  | 0x003 => some .pFft
  | 0x004 => some .pNch
  | 0x005 => some .pK
  | 0x006 => some .pResmax
  | 0x007 => some .version
  | 0x010 => some .res
  | 0x011 => some .fmin
  | 0x012 => some .fmax
  | 0x013 => some .dist
  | 0x014 => some .srate
  | 0x015 => some .interp
  | 0x020 => some .rngMin
  | 0x021 => some .rngMax
  | 0x022 => some .avgPtr
  | 0x023 => some .aRes
  | _ => none

/-- The access column of R28: RW, or RO. -/
def Csr.writable : Csr → Bool
  | .res => true
  | .fmin => true
  | .fmax => true
  | .dist => true
  | .srate => true
  | .interp => true
  | .capacity => false
  | .status => false
  | .pDepth => false
  | .pFft => false
  | .pNch => false
  | .pK => false
  | .pResmax => false
  | .version => false
  | .rngMin => false
  | .rngMax => false
  | .avgPtr => false
  | .aRes => false

/-- STATUS: [0] AXIS_VALID, [1] DATA_VALID, [31:2] zero (R28). -/
def statusWord (s : State) : Word :=
  BitVec.ofNat 32 ((if s.axisValid then 1 else 0) + (if s.dataValid then 2 else 0))

/-- The value a register reads as (R28, R29). R6 gives K no upper bound: where P_K or AVG_PTR does not fit 32 bits, that its low
32 bits are read is DESIGN CHOICE (log entry 29). -/
def csrRead (s : State) : Csr → Word
  | .capacity => BitVec.ofNat 32 s.capacity
  | .status => statusWord s
  | .pDepth => BitVec.ofNat 32 s.cfg.depth
  | .pFft => BitVec.ofNat 32 s.cfg.fftSize
  | .pNch => BitVec.ofNat 32 s.cfg.nCh
  | .pK => BitVec.ofNat 32 s.cfg.k
  | .pResmax => BitVec.ofNat 32 s.cfg.resMax
  | .version => 1#32
  | .res => s.res
  | .fmin => s.fmin
  | .fmax => s.fmax
  | .dist => s.dist
  | .srate => s.srate
  | .interp => s.interp
  | .rngMin => s.rngMin
  | .rngMax => s.rngMax
  | .avgPtr => BitVec.ofNat 32 s.avgPtr
  | .aRes => s.aRes

/-- `csr[addr] <- val` for a writable register; a read-only one is never written (R29, R30). -/
def csrWrite (s : State) (v : Word) : Csr → State
  | .res => { s with res := v }
  | .fmin => { s with fmin := v }
  | .fmax => { s with fmax := v }
  | .dist => { s with dist := v }
  | .srate => { s with srate := v }
  | .interp => { s with interp := v }
  | .capacity => s
  | .status => s
  | .pDepth => s
  | .pFft => s
  | .pNch => s
  | .pK => s
  | .pResmax => s
  | .version => s
  | .rngMin => s
  | .rngMax => s
  | .avgPtr => s
  | .aRes => s

/-- Is `v` reserved for the register (41_csr_and_config.md R161, R166)? -/
def Csr.reserved (v : Word) : Csr → Bool
  | .dist => decide (1 < v.toNat)
  | .interp => decide (1 < v.toNat)
  | .capacity => false
  | .status => false
  | .pDepth => false
  | .pFft => false
  | .pNch => false
  | .pK => false
  | .pResmax => false
  | .version => false
  | .res => false
  | .fmin => false
  | .fmax => false
  | .srate => false
  | .rngMin => false
  | .rngMax => false
  | .avgPtr => false
  | .aRes => false

/-- Channel `c`'s sample of an item, bits [32c+31:32c] (20_memory.md R60). -/
def sample (item : Item) (c : Nat) : Word := item.extractLsb' (32 * c) 32

/-- What a data channel of 32·N_CH bits carries of a pattern (30_encoding.md R90; log entry 16). -/
def onWires (nCh : Nat) (item : Item) : Item := BitVec.ofNat 2048 (item.toNat % 2 ^ (32 * nCh))

end Sys2Proof.Machine
end

