-- ==== Sys2Proof/Machine/Rom.lean ====
section
/-! DEFINITION. The read-only memories (10_state.md R36): the twiddle ROM, fixed by FFT_SIZE (42_spectral_analyzer.md R189),
and the default window ROM (R186). Their entries are the binary32 values nearest to a cosine; the cosine is computed in
fixed point with 192 fraction bits from its power series (PRESUMED, general knowledge; log entry 10). -/

namespace Sys2Proof.Machine.Rom

/-- Fraction bits of the fixed-point numbers. -/
def fracBits : Nat := 192

/-- floor(π · 2^192). -/
def piFix : Nat := 19720096697726538562396133364228268891463450865190089732560

/-- 1.0 in fixed point. -/
def oneFix : Nat := 2 ^ fracBits

/-- The alternating tail of the cosine series: `term` − (next − (…)), where the term of index `n` is x^(2n) / (2n)!. -/
def cosTail (x2 : Nat) : Nat → Nat → Nat → Int
  | 0, _, _ => 0
  | fuel + 1, n, term =>
    (term : Int) - cosTail x2 fuel (n + 1) (term * x2 / oneFix / ((2 * n + 1) * (2 * n + 2)))

/-- cos(2π·u/M) in fixed point, for 0 ≤ u ≤ M. The angle is folded to [0, π] first. -/
def cosFix (u M : Nat) : Int :=
  let v := min u (M - u)
  let x := 2 * piFix * v / M
  cosTail (x * x / oneFix) 44 0 oneFix

/-- The binary32 value nearest to a fixed-point number. -/
def fixToF32 (v : Int) : Word := nearestRat (decide (v < 0)) v.natAbs oneFix

/-- `TWR[t]`: nearest to cos(2π·t/N), with the exact zero stored exactly (42_spectral_analyzer.md R189). -/
def twr (N t : Nat) : Word := if 4 * t = N then 0#32 else fixToF32 (cosFix t N)

/-- `TWI[t]`: nearest to −sin(2π·t/N) = cos(2π·(4t + N)/(4N)), with the exact zero stored exactly (R189). -/
def twi (N t : Nat) : Word := if t = 0 then 0#32 else fixToF32 (cosFix (4 * t + N) (4 * N))

/-- The default window, symmetric Hann: nearest to 0.5 − 0.5·cos(2π·j/(N − 1)) (R186). -/
def hann (N j : Nat) : Word :=
  fixToF32 (((oneFix : Int) - cosFix j (N - 1)) / 2)

/-- The default contents of `WIN` for FFT size `N` (R186). -/
def hannWindow (N : Nat) : List Word := (List.range N).map (hann N)

end Sys2Proof.Machine.Rom
end

