-- ==== Sys2Proof/Machine/Fft.lean ====
section
/-! DEFINITION. The stages of one analysis tick up to the level range (42_spectral_analyzer.md): channel sum R183, window R185,
butterfly FFT R188 to R190, magnitude R191, averaging R193, range R197. `nan` gives the free values of the step's operations
(00_scope.md R9). Lists are indexed from 0; an index these functions use is always in range. -/

namespace Sys2Proof.Machine

open Sys2Proof.Config

/-- Element `i` of a work array. -/
def el (xs : List Word) (i : Nat) : Word := xs.getD i 0#32

/-- Step 2: the equal-weight sum of the channels, from channel 0 upward (R183). -/
def channelSum (nan : DrawSite → BitVec 24) (nCh : Nat) (item : Item) : Word :=
  (List.range (nCh - 1)).foldl (fun v i => fadd (nan (.channel (i + 1))) v (sample item (i + 1))) (sample item 0)

/-- Step 3: `IN[j] <- fmul(IN[j], WIN[j])` (R185). -/
def windowed (nan : DrawSite → BitVec 24) (p : Params) (xs : List Word) : List Word :=
  (List.range p.fftSize).map fun j => fmul (nan (.window j)) (el xs j) (p.window j)

/-- The work arrays RE and IM (10_state.md R32). -/
structure Work where
  re : List Word
  im : List Word
  deriving DecidableEq, Repr

/-- The L-bit number whose bit i is bit L − 1 − i of j (R188). -/
def bitrev (L j : Nat) : Nat := (List.range L).foldl (fun acc i => 2 * acc + (j >>> i) % 2) 0

/-- The bit-reversed load (R188). -/
def loadReversed (N L : Nat) (xs : List Word) : Work where
  re := (List.range N).foldl (fun re j => re.set (bitrev L j) (el xs j)) (List.replicate N 0#32)
  im := List.replicate N 0#32

/-- The butterfly (R190): all four new values are computed from the old ones before any is written. -/
def butterfly (nan : Nat → BitVec 24) (wr wi : Word) (a b : Nat) (z : Work) : Work :=
  let pr := fsub (nan 2) (fmul (nan 0) wr (el z.re b)) (fmul (nan 1) wi (el z.im b))
  let pim := fadd (nan 5) (fmul (nan 3) wr (el z.im b)) (fmul (nan 4) wi (el z.re b))
  let reB := fsub (nan 6) (el z.re a) pr
  let imB := fsub (nan 7) (el z.im a) pim
  let reA := fadd (nan 8) (el z.re a) pr
  let imA := fadd (nan 9) (el z.im a) pim
  { re := (z.re.set b reB).set a reA, im := (z.im.set b imB).set a imA }

/-- The butterfly number `j` of the group at `g` in stage `s` (R188). -/
def stageButterfly (nan : DrawSite → BitVec 24) (N s g j : Nat) (z : Work) : Work :=
  let h := 2 ^ s / 2
  let t := j * (N / 2 ^ s)
  butterfly (fun op => nan (.butterfly s (g + j) op)) (Rom.twr N t) (Rom.twi N t) (g + j) (g + j + h) z

/-- Stage `s` = 1..L (R188). -/
def fftStage (nan : DrawSite → BitVec 24) (N s : Nat) (z : Work) : Work :=
  (List.range (N / 2 ^ s)).foldl (fun z g' =>
    (List.range (2 ^ s / 2)).foldl (fun z j => stageButterfly nan N s (g' * 2 ^ s) j z) z) z

/-- Step 4: the work arrays after all L stages (R188). -/
def fft (nan : DrawSite → BitVec 24) (N L : Nat) (xs : List Word) : Work :=
  (List.range L).foldl (fun z i => fftStage nan N (i + 1) z) (loadReversed N L xs)

/-- Magnitudes of the bins 0..BINS−1 (R191). -/
def magnitudes (nan : DrawSite → BitVec 24) (bins : Nat) (z : Work) : List Word :=
  (List.range bins).map fun k =>
    fsqrt (nan (.magnitude k 3))
      (fadd (nan (.magnitude k 2)) (fmul (nan (.magnitude k 0)) (el z.re k) (el z.re k))
        (fmul (nan (.magnitude k 1)) (el z.im k) (el z.im k)))

/-- The index of element (p, k) of AVG (10_state.md R40). -/
def avgIx (bins p k : Nat) : Nat := p * bins + k

/-- The three operations of the averaging step on bin `k` (R193). -/
def averageBin (nan : DrawSite → BitVec 24) (bins p : Nat) (inv : Word) (mags : List Word) (avg : Memory Word) (k : Nat) :
    Memory Word :=
  let avg1 := avg.writeZ (avgIx bins 0 k)
    (fsub (nan (.average k 0)) (avg.readZ (avgIx bins 0 k)) (avg.readZ (avgIx bins p k)))
  let avg2 := avg1.writeZ (avgIx bins p k) (fmul (nan (.average k 1)) (el mags k) inv)
  avg2.writeZ (avgIx bins 0 k)
    (fadd (nan (.average k 2)) (avg2.readZ (avgIx bins 0 k)) (avg2.readZ (avgIx bins p k)))

/-- Step 5: the averaging step with p = AVG_PTR (R193). -/
def average (nan : DrawSite → BitVec 24) (bins p : Nat) (inv : Word) (mags : List Word) (avg : Memory Word) : Memory Word :=
  (List.range bins).foldl (averageBin nan bins p inv mags) avg

/-- `AVG_PTR <- 1 if p + 1 = K else p + 1` (R193). -/
def nextAvgPtr (K p : Nat) : Nat := if p + 1 = K then 1 else p + 1

/-- `S[k]` = AVG[0][k], k = 0..BINS−1: the averaged spectrum (43_interpolator.md). -/
def spectrum (bins : Nat) (avg : Memory Word) : List Word :=
  (List.range bins).map fun k => avg.readZ (avgIx bins 0 k)

/-- The smaller value, the older one if neither is ordered below the other (R197). -/
def keepMin (mn x : Word) : Word := if flt x mn then x else mn

/-- The larger value, the older one if neither is ordered above the other (R197, 43_interpolator.md R227). -/
def keepMax (mx x : Word) : Word := if fgt x mx then x else mx

/-- Step 6: RNG_MIN and RNG_MAX of the averaged frame (R197). -/
def levelRange (S : List Word) : Word × Word :=
  (S.tail.foldl keepMin (el S 0), S.tail.foldl keepMax (el S 0))

end Sys2Proof.Machine
end

