-- ==== Sys2Proof/Machine/Interpolator.lean ====
section
/-! DEFINITION. The frequency-axis interpolator (43_interpolator.md R221 to R227) and the read-out commands GETINFO and GETBIN
(R232, R234). `S` is the averaged spectrum, one entry per bin. -/

namespace Sys2Proof.Machine

open Sys2Proof.Config

/-- `idx(b)`: the bin number of a coordinate, always in range (R223). -/
def binIdx (bins : Nat) (b : Word) : Nat :=
  if fgt b 0#32 = false then 0
  else if fge b (i2f (bins - 1)) then bins - 1
  else floorNat b

/-- `NYQ = fmul(A_SRATE, 0.5)` (R221). -/
def nyquist (nan : DrawSite → BitVec 24) (aSrate : Word) : Word := fmul (nan .nyquist) aSrate f32Half

/-- The bin coordinate of output index `x` with frequency `f` (R221). -/
def coordinate (nan : DrawSite → BitVec 24) (bins : Nat) (nyq f : Word) (x : Nat) : Word :=
  fdiv (nan (.coordinate x 1)) (fmul (nan (.coordinate x 0)) f (i2f (bins - 1))) nyq

/-- `nearest(b) = S[idx(fadd(b, 0.5))]` (R225). -/
def nearest (q : BitVec 24) (bins : Nat) (S : List Word) (b : Word) : Word :=
  el S (binIdx bins (fadd q b f32Half))

/-- `linear(b)` (R226). -/
def linear (nan : Nat → BitVec 24) (bins : Nat) (S : List Word) (b : Word) : Word :=
  let k0 := binIdx bins b
  if fgt b 0#32 = false ∨ k0 = bins - 1 then el S k0
  else
    let fr := fsub (nan 0) b (i2f k0)
    fadd (nan 4) (fmul (nan 2) (el S k0) (fsub (nan 1) f32One fr)) (fmul (nan 3) (el S (k0 + 1)) fr)

/-- The largest of the bins lo..hi, scanned upward (R227). -/
def peak (S : List Word) (lo hi : Nat) : Word :=
  (List.range (hi - lo)).foldl (fun v i => keepMax v (el S (lo + 1 + i))) (el S lo)

/-- `decimate(bprev, b)` (R227). -/
def decimate (bins : Nat) (S : List Word) (bprev b : Word) : Word :=
  peak S (min (binIdx bins bprev + 1) (binIdx bins b)) (binIdx bins b)

/-- What the pass carries from one output index to the next (R222): the values so far, STICKY, and `bprev`, which has no
value before index 0. -/
structure Pass where
  out : List Word
  sticky : Bool
  bprev : Option Word
  deriving DecidableEq, Repr

/-- The regime switch at an index whose coordinate is `b` (R222, R224). -/
def switchSets (q : BitVec 24) (bprev : Option Word) (b : Word) : Bool :=
  match bprev with
  | none => false
  | some b0 => fgt (fsub q b b0) f32One

/-- The value of output index `x` (R222). STICKY is never set without a `bprev`. -/
def passValue (nan : DrawSite → BitVec 24) (bins : Nat) (interp : Word) (S : List Word) (x : Nat) (sticky : Bool)
    (bprev : Option Word) (b : Word) : Word :=
  match sticky, bprev with
  | true, some b0 => decimate bins S b0 b
  | _, _ =>
    if interp = 0#32 then nearest (nan (.value x 0)) bins S b
    else linear (fun op => nan (.value x op)) bins S b

/-- One output index of the pass (R222). -/
def passIndex (nan : DrawSite → BitVec 24) (bins : Nat) (interp nyq : Word) (S fs : List Word) (a : Pass) (x : Nat) : Pass :=
  let b := coordinate nan bins nyq (el fs x) x
  let sticky := a.sticky || switchSets (nan (.width x)) a.bprev b
  { out := a.out ++ [passValue nan bins interp S x sticky a.bprev b], sticky := sticky, bprev := some b }

/-- The pass over the output frequencies `fs`, STICKY cleared at its start (R222). -/
def interpPass (nan : DrawSite → BitVec 24) (bins : Nat) (interp aSrate : Word) (S fs : List Word) : Pass :=
  (List.range fs.length).foldl (passIndex nan bins interp (nyquist nan aSrate) S fs)
    { out := [], sticky := false, bprev := none }

/-- `GETINFO idx` (R232): ERR_STATE is tested before ERR_OPERAND (60_exceptions.md R256). -/
def execGetinfo (idx : Nat) (s : State) : Result :=
  onlyOn .C s
    (if s.axisValid = false then raise .errState s
     else if s.aRes.toNat ≤ idx then raise .errOperand s
     else
       match Memory.read none s.axis idx with
       | none => .fault (.unwrittenRead .axis)
       | some f => .next (respond .ok f (s.out.readZ idx) s))

/-- `GETBIN k` (R234). -/
def execGetbin (k : Nat) (s : State) : Result :=
  onlyOn .C s
    (if s.cfg.bins ≤ k then raise .errOperand s
     else .next (respond .ok 0 (s.avg.readZ (avgIx s.cfg.bins 0 k)) s))

end Sys2Proof.Machine
end

