-- ==== Sys2Proof/Machine/Ring.lean ====
section
/-! DEFINITION. The ring buffer commands WRITE, READ, NREADY, FREESP, RESET, SETSIZE (40_ring_buffer.md), and the beat and release
steps that follow an admitted WRITE or READ. -/

namespace Sys2Proof.Machine

/-! ### WRITE -/

/-- The state change of an admitted WRITE check: `if n > 0 then P_REM <- n ; P_PHASE <- BUSY` (R125). -/
def startWrite (n : Nat) (s : State) : State :=
  if n = 0 then s else { s with pRem := n, pPhase := .busy }

/-- `WRITE n`, check step (R124, R125). -/
def execWrite (n : Nat) (s : State) : Result :=
  onlyOn .P s (if freeP s < n then raise .fail s else .next (startWrite n (respond .ok 0 0 s)))

/-- The beat step of agent P with `item` taken from `p_dat` (R127). -/
def writeBeat (item : Item) (s : State) : Result :=
  if s.tail < s.cfg.depth then
    .next { s with
      ring := Memory.write none s.ring s.tail (onWires s.cfg.nCh item)
      tail := (s.tail + 1) % s.capacity
      pRem := s.pRem - 1
      pPhase := if s.pRem - 1 = 0 then .idle else s.pPhase }
  else .fault (.noSuchElement .ring)

/-! ### READ -/

/-- The state change of an admitted check: start a transfer of `n` items of which `c` are released, to `dst`
(R131, 42_spectral_analyzer.md R182). -/
def startTransfer (dst : CDst) (n c : Nat) (s : State) : State :=
  { s with cDst := dst, cOff := 0, cRem := n, cRel := c, cPhase := .beats }

/-- `READ n, c`, check step (R130, R131). -/
def execRead (n c : Nat) (s : State) : Result :=
  onlyOn .C s
    (if n < c then raise .errOperand s
     else if readyC s < n then raise .fail s
     else .next (if n = 0 then respond .ok 0 0 s else startTransfer .port n c (respond .ok 0 0 s)))

/-- The phase after the last beat or the last release (R132, R133). -/
def afterTransfer : CDst → CPhase
  | .analyzer => .compute
  | .port => .idle

/-- The counters and the phase after a beat (R132). -/
def advanceBeat (s : State) : State :=
  { s with
    cOff := s.cOff + 1
    cRem := s.cRem - 1
    cPhase := if s.cRem - 1 = 0 then (if 0 < s.cRel then .release else afterTransfer s.cDst) else s.cPhase }

/-- The release step of agent C (R133). -/
def releaseStep (s : State) : State :=
  { s with
    head := (s.head + 1) % s.capacity
    cRel := s.cRel - 1
    cPhase := if s.cRel - 1 = 0 then afterTransfer s.cDst else s.cPhase }

/-! ### NREADY and FREESP -/

/-- `NREADY`, legal on both ports (R137). -/
def execNready (s : State) : Result :=
  match s.port with
  | .P => .next (respond .ok 0 (BitVec.ofNat 32 (occP s)) s)
  | .C => .next (respond .ok 0 (BitVec.ofNat 32 (readyC s)) s)

/-- `FREESP`, legal on both ports (R138). -/
def execFreesp (s : State) : Result :=
  match s.port with
  | .P => .next (respond .ok 0 (BitVec.ofNat 32 (freeP s)) s)
  | .C => .next (respond .ok 0 (BitVec.ofNat 32 (freeC s)) s)

/-! ### RESET and SETSIZE -/

/-- `RESET` (R140); the idle precondition is R142. -/
def execReset (s : State) : Result :=
  onlyOn .C s
    (if s.pPhase ≠ .idle then .fault .resetWhileProducerActive
     else .next (respond .ok 0 0 (clearPointers s)))

/-- The capacities SETSIZE accepts (R141). -/
def legalCapacity (depth cap : Nat) : Bool := decide (2 ≤ cap) && decide (cap % 2 = 0) && decide (cap ≤ depth)

/-- `SETSIZE cap` (R141); the idle precondition (R142) is tested after the capacity. -/
def execSetsize (cap : Nat) (s : State) : Result :=
  onlyOn .C s
    (if legalCapacity s.cfg.depth cap = false then raise .errCfg s
     else if s.pPhase ≠ .idle then .fault .resizeWhileProducerActive
     else .next (respond .ok 0 0 (clearPointers { s with capacity := cap })))

end Sys2Proof.Machine
end

