-- ==== Sys2Proof/Machine/Analyzer.lean ====
section
/-! DEFINITION. The UPDATE command (42_spectral_analyzer.md R180 to R199): its check step, the delivery of beats on either
destination, and the compute step. -/

namespace Sys2Proof.Machine

open Sys2Proof.Config

/-- `UPDATE`, check step (R182). No response yet: the compute step sends it. -/
def execUpdate (s : State) : Result :=
  onlyOn .C s
    (if s.axisValid = false then raise .errState s
     else if readyC s < s.cfg.fftSize then raise .fail s
     else .next (startTransfer .analyzer s.cfg.fftSize (s.cfg.fftSize - s.cfg.keep) s))

/-- "deliver item" (40_ring_buffer.md R132): on `c_dat`, or summed into IN[C_OFF] (R183). -/
def deliver (item : Item) (s : State) : State :=
  match s.cDst with
  | .port => { s with cDat := s.cDat ++ [item] }
  | .analyzer =>
    { s with
      inBuf := Memory.write none s.inBuf s.cOff (channelSum (freeNaN s.draws) s.cfg.nCh item)
      draws := s.draws + 1 }

/-- May a beat be delivered: always to the analyzer, to the port when the host accepts it (40_ring_buffer.md R132). -/
def beatEnabled (s : State) : Bool := decide (s.cDst = .analyzer) || s.cDatReady

/-- The beat step of agent C (40_ring_buffer.md R132). An agent whose step is not enabled leaves the state as it is. -/
def beatStep (s : State) : Result :=
  if beatEnabled s = false then .next s
  else if s.cDst = .analyzer ∧ s.cfg.fftSize ≤ s.cOff then .fault (.noSuchElement .input)
  else
    match ringRead s s.cOff with
    | none => .fault (.unwrittenRead .ring)
    | some item => .next (advanceBeat (deliver item s))

/-- What one tick computes from the input block `xs` and the axis `fs` (R199), in the order of the steps of R181. -/
structure Tick where
  input : List Word
  work : Work
  mag : List Word
  avg : Memory Word
  range : Word × Word
  pass : Pass
  deriving DecidableEq, Repr

/-- Steps 3 to 7 of a tick (R199). -/
def tick (s : State) (xs fs : List Word) : Tick :=
  let nan := freeNaN s.draws
  let input := windowed nan s.cfg xs
  let work := fft nan s.cfg.fftSize s.cfg.log2n input
  let mag := magnitudes nan s.cfg.bins work
  let avg := average nan s.cfg.bins s.avgPtr s.cfg.invKm1 mag s.avg
  let S := spectrum s.cfg.bins avg
  { input := input, work := work, mag := mag, avg := avg, range := levelRange S,
    pass := interpPass nan s.cfg.bins s.interp s.aSrate S fs }

/-- The state after the compute step but for the response (R199). That IN, RE, IM and MAG then keep the values of this tick until
the next one writes over them is DESIGN CHOICE (log entry 26): outside a tick the spec gives them none (U5) and no rule reads
them. -/
def applyTick (t : Tick) (s : State) : State :=
  flagDataValid { s with
    inBuf := Memory.writeFrom none s.inBuf 0 t.input
    re := Memory.writeFrom none s.re 0 t.work.re
    im := Memory.writeFrom none s.im 0 t.work.im
    mag := Memory.writeFrom none s.mag 0 t.mag
    avg := t.avg
    avgPtr := nextAvgPtr s.cfg.k s.avgPtr
    rngMin := t.range.1
    rngMax := t.range.2
    sticky := t.pass.sticky
    out := Memory.writeFrom zeroed s.out 0 t.pass.out
    cDst := .port
    cPhase := .idle
    draws := s.draws + 1 }

/-- The compute step of agent C (R199): one atomic step, answered OK. -/
def computeStep (s : State) : Result :=
  if s.cfg.k ≤ s.avgPtr then .fault (.noSuchElement .avg)
  else if s.cfg.resMax < s.aRes.toNat then .fault (.noSuchElement .out)
  else
    match Memory.readFirst none s.inBuf s.cfg.fftSize, Memory.readFirst none s.axis s.aRes.toNat with
    | some xs, some fs => .next (respond .ok 0 0 (applyTick (tick s xs fs) s))
    | none, _ => .fault (.unwrittenRead .input)
    | _, none => .fault (.unwrittenRead .axis)

end Sys2Proof.Machine
end

