-- ==== Sys2Proof/Machine/Csr.lean ====
section
/-! DEFINITION. The configuration commands RDCSR, WRCSR and AXBUILD and the frequency axis (41_csr_and_config.md). -/

namespace Sys2Proof.Machine

open Sys2Proof.Config

/-- `RDCSR addr` (R160). -/
def execRdcsr (addr : BitVec 12) (s : State) : Result :=
  onlyOn .C s
    (match Csr.ofAddr addr with
     | none => raise .errOperand s
     | some r => .next (respond .ok 0 (csrRead s r) s))

/-- `WRCSR addr, val` (R161, R166). -/
def execWrcsr (addr : BitVec 12) (val : Word) (s : State) : Result :=
  onlyOn .C s
    (match Csr.ofAddr addr with
     | none => raise .errOperand s
     | some r =>
       if r.writable = false then raise .errOperand s
       else if r.reserved val then raise .errCfg s
       else .next (respond .ok 0 0 (csrWrite s val r)))

/-- The tests of AXBUILD on the staged values (R163): true when all are passed. The one of a linear axis lets −0.0 pass. -/
def axisAccepted (resMax : Nat) (r lo hi d sr : Word) : Bool :=
  decide (2 ≤ r.toNat) && decide (r.toNat ≤ resMax) &&
  (isFinite lo && isFinite hi && isFinite sr) &&
  fgt sr 0#32 && flt lo hi &&
  (if d = 1#32 then fgt lo 0#32 else true) &&
  (if d = 0#32 then !flt lo 0#32 else true)

/-- Entry `i` of the axis of `r` points from `lo` to `hi` (R162, R163); `nan` gives the free values of the entry's
operations. -/
def axisEntry (nan : DrawSite → BitVec 24) (r : Nat) (lo hi d : Word) (i : Nat) : Word :=
  let t := fdiv (nan (.axis i 0)) (i2f i) (i2f (r - 1))
  if d = 0#32 then
    fadd (nan (.axis i 3)) lo (fmul (nan (.axis i 2)) t (fsub (nan (.axis i 1)) hi lo))
  else
    let l0 := fln lo
    let l1 := fln hi
    fexp (fadd (nan (.axis i 3)) (fmul (nan (.axis i 2)) t (fsub (nan (.axis i 1)) l1 l0)) l0)

/-- All entries of the axis. -/
def axisEntries (nan : DrawSite → BitVec 24) (r : Nat) (lo hi d : Word) : List Word :=
  (List.range r).map (axisEntry nan r lo hi d)

/-- The state change of an accepted AXBUILD (R163): active copies, AXIS, OUT cleared, flags. Entries of AXIS at and above
`r` keep what they held (DESIGN CHOICE, log entry 26). -/
def buildAxis (s : State) : State :=
  flagAxisBuilt { s with
    aRes := s.res
    aFmin := s.fmin
    aFmax := s.fmax
    aDist := s.dist
    aSrate := s.srate
    axis := Memory.writeFrom none s.axis 0 (axisEntries (freeNaN s.draws) s.res.toNat s.fmin s.fmax s.dist)
    out := []
    draws := s.draws + 1 }

/-- `AXBUILD` (R163). -/
def execAxbuild (s : State) : Result :=
  onlyOn .C s
    (if axisAccepted s.cfg.resMax s.res s.fmin s.fmax s.dist s.srate = false then raise .errCfg s
     else .next (respond .ok 0 s.res (buildAxis s)))

end Sys2Proof.Machine
end

