-- ==== Sys2Proof/Machine/Dispatch.lean ====
section
/-! DEFINITION. The meaning of a command on the port that took it, one arm per command: its check step or only step. -/

namespace Sys2Proof.Machine

def exec (i : Instr) (s : State) : Host.Outcome State Fault Refusal :=
  match i with
  | .write n => Sys2Proof.Machine.execWrite n s
  | .read n c => Sys2Proof.Machine.execRead n c s
  | .nready => Sys2Proof.Machine.execNready s
  | .freesp => Sys2Proof.Machine.execFreesp s
  | .reset => Sys2Proof.Machine.execReset s
  | .setsize cap => Sys2Proof.Machine.execSetsize cap s
  | .rdcsr addr => Sys2Proof.Machine.execRdcsr addr s
  | .wrcsr addr val => Sys2Proof.Machine.execWrcsr addr val s
  | .axbuild => Sys2Proof.Machine.execAxbuild s
  | .update => Sys2Proof.Machine.execUpdate s
  | .getinfo idx => Sys2Proof.Machine.execGetinfo idx s
  | .getbin k => Sys2Proof.Machine.execGetbin k s

end Sys2Proof.Machine
end

