-- ==== Sys2Proof/Machine/Agents.lean ====
section
/-! DEFINITION. One step of each of the four agents (00_scope.md R10, R14) and one move of the host (70_reset_and_hazards.md R280,
R290, R291). An agent with no enabled step leaves the state as it is: the turn passes (log entry 20). -/

namespace Sys2Proof.Machine

/-- Is the word a RESET or a SETSIZE, the commands that need a quiescent producer (R291)? -/
def isQuiesce (cw : CmdWord) : Bool :=
  match decode cw with
  | .ok .reset => true
  | .ok (.setsize _) => true
  | _ => false

/-- Has the host a RESET or SETSIZE on offer on port C, or its response not yet taken (R291)? -/
def windowOpen (s : State) : Bool := s.cCmd.any isQuiesce || decide (0 < s.quiet)

/-- After a RESET or SETSIZE was taken, the window stays open until the host has taken as many responses as port C now has
pending, the last of them being its own (R291). -/
def noteWindow (cw : CmdWord) : Result → Result
  | .next t => if isQuiesce cw then .next { t with quiet := t.cRsp.length } else .next t
  | .fault r => .fault r
  | .refused r => .refused r

/-- A port takes a word: it is executed, or answered ERR_ILLEGAL if it is no command (30_encoding.md R98). -/
def runWord (cw : CmdWord) (s : State) : Result :=
  match decode cw with
  | .ok i => exec i s
  | .error _ => raise .errIllegal s

/-- A step of agent P: in IDLE it takes the next command on offer (30_encoding.md R92), in BUSY the next beat
(40_ring_buffer.md R127). -/
def stepP (s : State) : Result :=
  match s.pPhase with
  | .idle =>
    match s.pCmd with
    | [] => .next s
    | cw :: rest => runWord cw { s with port := .P, pCmd := rest }
  | .busy =>
    match s.pDat with
    | [] => .next s
    | item :: rest => writeBeat item { s with pDat := rest }

/-- A step of agent C: in IDLE it takes the next command on offer (30_encoding.md R92), otherwise it goes on with the
current one (40_ring_buffer.md R132, R133, 42_spectral_analyzer.md R199). -/
def stepC (s : State) : Result :=
  match s.cPhase with
  | .idle =>
    match s.cCmd with
    | [] => .next s
    | cw :: rest => noteWindow cw (runWord cw { s with port := .C, cCmd := rest })
  | .beats => beatStep s
  | .release => .next (releaseStep s)
  | .compute => computeStep { s with port := .C }

/-- The host offers a word on port P; inside the window of R291 it has no such move, so the run is marked faulted. Any word counts
as a command here, one of the twelve or not (DESIGN CHOICE, log entry 27). -/
def hostOfferP (cw : CmdWord) (s : State) : Result :=
  if windowOpen s then .fault .producerNotQuiescent else .next { s with pCmd := s.pCmd ++ [cw] }

/-- The host offers a word on port C; a RESET or SETSIZE while port P is BUSY or any word is on offer there (log entry 27)
breaks R291, so the run is marked faulted. -/
def hostOfferC (cw : CmdWord) (s : State) : Result :=
  if isQuiesce cw && !(s.pCmd.isEmpty && decide (s.pPhase = .idle)) then .fault .producerNotQuiescent
  else .next { s with cCmd := s.cCmd ++ [cw] }

/-- One turn (00_scope.md R14). -/
def runTurn (t : Turn) (s : State) : Result :=
  match t with
  | .agentP => stepP s
  | .agentC => stepC s
  | .agentST => .next (syncTail s)
  | .agentSH => .next (syncHead s)
  | .offerP cw => hostOfferP cw s
  | .offerC cw => hostOfferC cw s
  | .beatP item => .next { s with pDat := s.pDat ++ [item] }
  | .readyC b => .next { s with cDatReady := b }
  | .takeP => .next { s with pRsp := s.pRsp.tail }
  | .takeC => .next { s with cRsp := s.cRsp.tail, quiet := s.quiet - 1 }
  | .rst => .next (resetBlock s)

/-- The state in which the next turn is agent P's and takes the word `cw`. -/
def placeOnP (cw : CmdWord) (s : State) : State :=
  { s with turns := .agentP :: s.turns, pCmd := cw :: s.pCmd, pPhase := .idle }

/-- The state in which the next turn is agent C's and takes the word `cw`. -/
def placeOnC (cw : CmdWord) (s : State) : State :=
  { s with turns := .agentC :: s.turns, cCmd := cw :: s.cCmd, cPhase := .idle }

/-- The state in which the very next step takes the word `cw`, on a port its row names (30_encoding.md R97): port C, but for
WRITE, which is legal on port P alone. -/
def placeWord (cw : CmdWord) (s : State) : State :=
  match decode cw with
  | .ok (.write _) => placeOnP cw s
  | _ => placeOnC cw s

end Sys2Proof.Machine
end

