-- ==== Sys2Proof/Machine/Step.lean ====
section
/-! DEFINITION. One step: the first turn of the schedule is taken (00_scope.md R14, 70_reset_and_hazards.md R296). -/

namespace Sys2Proof.Machine

/-- One step. With no turn left nothing is scheduled and the state stays (R296; log entry 21). -/
def step (s : State) : Host.Outcome State Fault Refusal :=
  match s.turns with
  | [] => .next s
  | t :: rest => runTurn t { s with turns := rest }

/-- `s` with a command word placed so that the very next step takes it (log entry 5). -/
def State.withFetchWord (s : State) (nbits w : Nat) : State :=
  placeWord (BitVec.ofNat 64 (w % 2 ^ nbits)) s

end Sys2Proof.Machine
end

