-- ==== Sys2Proof/Safety.lean ====
section
/-! DEFINITION. What the claims about runs are stated in: the ordering of the pointers and their views (20_memory.md R72), the
items the ring holds (10_state.md R23), the invariant of a run, and when a run is over
(70_reset_and_hazards.md R296). -/

namespace Sys2Proof.Machine

/-! ### Pointers and views in cyclic order -/

/-- `decode(HEADV[S]), …, decode(HEADV[1]), HEAD, decode(TAILV[S]), …, decode(TAILV[1]), TAIL` (20_memory.md R72). -/
def chain (s : State) : List Int :=
  s.headv.reverse.map (decodeOf s) ++ [(s.head : Int)] ++ s.tailv.reverse.map (decodeOf s) ++ [(s.tail : Int)]

/-- The sum of the forward distances `(next − previous) mod C` over a sequence (R72). -/
def forward (C : Nat) : List Int → Nat
  | a :: b :: rest => modC (b - a) C + forward C (b :: rest)
  | _ => 0

/-- The sum over the whole sequence of R72. -/
def spread (s : State) : Nat := forward s.capacity (chain s)

/-- The true number of items in the ring, `occ = (TAIL − HEAD) mod CAPACITY` (10_state.md R23). -/
def occ (s : State) : Nat := occupied s.capacity s.tail s.head

/-- What the ring holds, oldest first: the slots (HEAD + j) mod CAPACITY for 0 ≤ j < occ (10_state.md R23). -/
def held (s : State) : List (Option Item) := (List.range (occ s)).map (ringRead s)

/-! ### The invariant of a run -/

/-- Every index of a memory is below `n`. -/
abbrev Below {α : Type} (n : Nat) (m : Memory α) : Prop := ∀ e ∈ m, e.1 < n

/-- Pointers, stages and the pending part of a WRITE (10_state.md R21 to R25, 20_memory.md R72). While P is BUSY the slots it
still owes count as used. -/
structure RingInv (s : State) : Prop where
  cfg_wf : s.cfg.wf = true
  cap_even : s.capacity % 2 = 0
  cap_ge_two : 2 ≤ s.capacity
  cap_le_depth : s.capacity ≤ s.cfg.depth
  tail_lt : s.tail < s.capacity
  head_lt : s.head < s.capacity
  tailv_length : s.tailv.length = s.cfg.syncStages
  headv_length : s.headv.length = s.cfg.syncStages
  tailv_codes : ∀ g ∈ s.tailv, ∃ i, i < s.capacity ∧ g = codeOf s i
  headv_codes : ∀ g ∈ s.headv, ∃ i, i < s.capacity ∧ g = codeOf s i
  spread_le : spread s + s.pRem ≤ s.capacity - 1
  idle_iff : s.pPhase = .idle ↔ s.pRem = 0

/-- The transfer port C is in (40_ring_buffer.md R132, R133, 42_spectral_analyzer.md R182, R199). -/
structure TransferInv (s : State) : Prop where
  beats : s.cPhase = .beats → 0 < s.cRem ∧ s.cRel ≤ s.cOff + s.cRem ∧ s.cOff + s.cRem ≤ readyC s
  release : s.cPhase = .release → 0 < s.cRel ∧ s.cRel ≤ readyC s
  compute : s.cPhase = .compute → s.cDst = .analyzer
  block : s.cPhase = .beats → s.cDst = .analyzer → s.cOff + s.cRem = s.cfg.fftSize
  axis_valid : s.cPhase ≠ .idle → s.cDst = .analyzer → s.axisValid = true
  input : s.cPhase ≠ .idle → s.cDst = .analyzer →
    ∀ j, j < s.cfg.fftSize → (s.cPhase = .beats → j < s.cOff) → Memory.read none s.inBuf j ≠ none

/-- The tables and registers of port C (10_state.md R28, R31 to R35, R42). -/
structure StoreInv (s : State) : Prop where
  ring_written : ∀ j, j < occ s → ringRead s j ≠ none
  axis_written : s.axisValid = true → 2 ≤ s.aRes.toNat ∧
    ∀ i, i < s.aRes.toNat → Memory.read none s.axis i ≠ none
  ares_le : s.aRes.toNat ≤ s.cfg.resMax
  avgptr_ge : 1 ≤ s.avgPtr
  avgptr_lt : s.avgPtr < s.cfg.k
  dist_le : s.dist.toNat ≤ 1
  adist_le : s.aDist.toNat ≤ 1
  interp_le : s.interp.toNat ≤ 1
  ring_wf : Memory.wf none s.ring = true ∧ Below s.cfg.depth s.ring
  in_wf : Memory.wf none s.inBuf = true ∧ Below s.cfg.fftSize s.inBuf
  re_wf : Memory.wf none s.re = true ∧ Below s.cfg.fftSize s.re
  im_wf : Memory.wf none s.im = true ∧ Below s.cfg.fftSize s.im
  mag_wf : Memory.wf none s.mag = true ∧ Below s.cfg.bins s.mag
  avg_wf : Memory.wf zeroed s.avg = true ∧ Below (s.cfg.k * s.cfg.bins) s.avg
  axis_wf : Memory.wf none s.axis = true ∧ Below s.cfg.resMax s.axis
  out_wf : Memory.wf zeroed s.out = true ∧ Below s.cfg.resMax s.out

/-- Inside the window of 70_reset_and_hazards.md R291 port P is IDLE and has no command on offer. -/
structure WindowInv (s : State) : Prop where
  quiescent : windowOpen s = true → s.pCmd = [] ∧ s.pPhase = .idle
  quiet_le : s.quiet ≤ s.cRsp.length

/-- The invariant of a run: it holds at reset and every step keeps it. -/
structure Inv (s : State) : Prop where
  ring : RingInv s
  transfer : TransferInv s
  store : StoreInv s
  window : WindowInv s

/-! ### Ends of a run -/

/-- A run is over: nothing more is scheduled, no command is on offer and both ports are IDLE (R296). A beat still on offer on
`p_dat` does not keep a run going (DESIGN CHOICE, log entry 28): an IDLE port P does not take it (R293). -/
def runOver (s : State) : Bool :=
  s.turns.isEmpty && s.pCmd.isEmpty && s.cCmd.isEmpty && decide (s.pPhase = .idle) && decide (s.cPhase = .idle)

/-- What the ring must hold after a turn, as a queue: a beat of P adds its item at the end, a release of C takes the oldest,
RESET, an accepted SETSIZE and `rst` empty it, and nothing else changes it (20_memory.md R73 (b), 40_ring_buffer.md R127, R133,
R140, R141). -/
def queueAfter (s : State) : Turn → List (Option Item)
  | .agentP =>
    match s.pPhase, s.pDat with
    | .busy, item :: _ => held s ++ [some (onWires s.cfg.nCh item)]
    | _, _ => held s
  | .agentC =>
    match s.cPhase, s.cCmd with
    | .release, _ => (held s).tail
    | .idle, cw :: _ =>
      match decode cw with
      | .ok .reset => []
      | .ok (.setsize cap) => if legalCapacity s.cfg.depth cap then [] else held s
      | _ => held s
    | _, _ => held s
  | .rst => []
  | .agentST => held s
  | .agentSH => held s
  | .offerP _ => held s
  | .offerC _ => held s
  | .beatP _ => held s
  | .readyC _ => held s
  | .takeP => held s
  | .takeC => held s

/-- What a step of agent P can see: its own registers, the stages in its clock domain, CAPACITY, its channels, the parameters
(10_state.md R20, R25, 20_memory.md R70). It sees neither HEAD nor any state of the analyzer. -/
structure ProducerView where
  tail : Nat
  headv : List Nat
  capacity : Nat
  pPhase : PPhase
  pRem : Nat
  pCmd : List CmdWord
  pDat : List Item
  pRsp : List RspWord
  ring : Memory Item
  cfg : Config.Params
  deriving DecidableEq, Repr

/-- The producer's view of a state. -/
def producerView (s : State) : ProducerView where
  tail := s.tail
  headv := s.headv
  capacity := s.capacity
  pPhase := s.pPhase
  pRem := s.pRem
  pCmd := s.pCmd
  pDat := s.pDat
  pRsp := s.pRsp
  ring := s.ring
  cfg := s.cfg

/-! ### Butterflies, for the claims about the FFT -/

/-- The four values of a butterfly on the pair `a`, `b` with the twiddle `wr`, `wi`, all computed from `z`
(42_spectral_analyzer.md R190), are what `z'` holds there. `q` gives the free values of the ten operations. -/
def FourValues (q : Nat → BitVec 24) (wr wi : Word) (a b : Nat) (z z' : Work) : Prop :=
  let reA := z.re.getD a 0
  let imA := z.im.getD a 0
  let reB := z.re.getD b 0
  let imB := z.im.getD b 0
  let pr := fsub (q 2) (fmul (q 0) wr reB) (fmul (q 1) wi imB)
  let pim := fadd (q 5) (fmul (q 3) wr imB) (fmul (q 4) wi reB)
  z'.re[b]? = some (fsub (q 6) reA pr) ∧ z'.im[b]? = some (fsub (q 7) imA pim) ∧
  z'.re[a]? = some (fadd (q 8) reA pr) ∧ z'.im[a]? = some (fadd (q 9) imA pim)

/-! ### Exact values, for the claims about rounding -/

/-- The magnitude of a finite pattern in units of 2^−149 (00_scope.md R8). -/
def magnitudeOf (w : Word) : Nat :=
  match unpack w with
  | .fin _ m e => m * 2 ^ e
  | _ => 0

/-- The distance of two natural numbers. -/
def distance (a b : Nat) : Nat := (a - b) + (b - a)

/-- The value of a finite pattern (00_scope.md R8). -/
def valueOf (w : Word) : ℚ := (if f32Sign w then -1 else 1) * (magnitudeOf w : ℚ) / 2 ^ 149

/-- `w` is the exact value `x` rounded to nearest, ties to even (00_scope.md R9), with the sign `neg`. No finite value is nearer
to `x` than that of `w`, and where another is equally near the fraction of `w` is even. From half a last place beyond the largest
finite value on, `w` is infinity. -/
def RoundsTo (neg : Bool) (x : ℝ) (w : Word) : Prop :=
  f32Sign w = neg ∧
  (|x| < (2 ^ 25 - 1) * 2 ^ 103 → isFinite w = true ∧ ∀ v : Word, isFinite v = true →
    |x - (valueOf w : ℝ)| ≤ |x - (valueOf v : ℝ)| ∧
    (|x - (valueOf w : ℝ)| = |x - (valueOf v : ℝ)| → valueOf v ≠ valueOf w → f32Frac w % 2 = 0)) ∧
  ((2 ^ 25 - 1) * 2 ^ 103 ≤ |x| → w = if neg then 0xFF800000#32 else 0x7F800000#32)

end Sys2Proof.Machine
end

