-- ==== Sys2Proof/Certificates/Slice0/Obligations.lean ====
section
/-! DEFINITION. The statements for the provers. Each docstring names the rule of spec/ it formalises. A statement that builds on
a choice of the model's own says so and names the log entry. -/

open Sys2Proof Sys2Proof.Machine

/-! ### Encoding -/

/-- 30_encoding.md R93, R94, R97: the word of a command decodes to the command, with every operand at every value its field
admits. -/
def Obligations.DecodeOfEncode : Prop :=
  ∀ i : Instr, i.wf = true → decode (encode i) = .ok i

/-- 30_encoding.md R93, R94, R98: a word that decodes is the word of the command it decodes to, so each command has one word. -/
def Obligations.EncodeOfDecode : Prop :=
  ∀ (cw : CmdWord) (i : Instr), decode cw = .ok i → i.wf = true ∧ encode i = cw

/-- 30_encoding.md R98, with the match, mask and ports columns of R97: `op` alone selects the row; a word is a row's command iff
`CW & mask = match`; every other word, and a command on a port its row does not name, raises ERR_ILLEGAL; every other command
is executed. -/
def Obligations.DecoderFollowsOpcodeMap : Prop :=
  (∀ i j : Instr, opField (rowOf i).pattern = opField (rowOf j).pattern → rowOf i = rowOf j) ∧
  (∀ (cw : CmdWord) (i : Instr), decode cw = .ok i →
    opField cw = opField (rowOf i).pattern ∧ cw &&& (rowOf i).mask = (rowOf i).pattern) ∧
  (∀ (cw : CmdWord) (i : Instr), cw &&& (rowOf i).mask = (rowOf i).pattern →
    ∃ j, decode cw = .ok j ∧ rowOf j = rowOf i) ∧
  (∀ (cw : CmdWord) (s : State), (∀ i, decode cw = .ok i → i.legalOn s.port = false) →
    runWord cw s = .next (respond .errIllegal 0 0 s)) ∧
  (∀ (cw : CmdWord) (s : State) (i : Instr), decode cw = .ok i → runWord cw s = exec i s)

/-- 30_encoding.md R104: the worked encodings, each in both directions, and the worked response. -/
def Obligations.WorkedEncodings : Prop :=
  (encode (.write 10) = 0x010000000000000A ∧ decodeTableWord 64 0x010000000000000A = some (.write 10)) ∧
  (encode (.read 10 10) = 0x0200000A0000000A ∧ decodeTableWord 64 0x0200000A0000000A = some (.read 10 10)) ∧
  (encode (.read 8 4) = 0x0200000400000008 ∧ decodeTableWord 64 0x0200000400000008 = some (.read 8 4)) ∧
  (encode .nready = 0x0300000000000000 ∧ decodeTableWord 64 0x0300000000000000 = some .nready) ∧
  (encode .freesp = 0x0400000000000000 ∧ decodeTableWord 64 0x0400000000000000 = some .freesp) ∧
  (encode .reset = 0x0500000000000000 ∧ decodeTableWord 64 0x0500000000000000 = some .reset) ∧
  (encode (.setsize 8) = 0x0600000000000008 ∧ decodeTableWord 64 0x0600000000000008 = some (.setsize 8)) ∧
  (encode (.rdcsr 0x001) = 0x1000000100000000 ∧ decodeTableWord 64 0x1000000100000000 = some (.rdcsr 0x001)) ∧
  (encode (.wrcsr 0x010 5) = 0x1100001000000005 ∧ decodeTableWord 64 0x1100001000000005 = some (.wrcsr 0x010 5)) ∧
  (encode (.wrcsr 0x011 0x42C80000) = 0x1100001142C80000 ∧
    decodeTableWord 64 0x1100001142C80000 = some (.wrcsr 0x011 0x42C80000)) ∧
  (encode .axbuild = 0x1200000000000000 ∧ decodeTableWord 64 0x1200000000000000 = some .axbuild) ∧
  (encode .update = 0x2000000000000000 ∧ decodeTableWord 64 0x2000000000000000 = some .update) ∧
  (encode (.getinfo 3) = 0x2100000000000003 ∧ decodeTableWord 64 0x2100000000000003 = some (.getinfo 3)) ∧
  (encode (.getbin 0) = 0x2200000000000000 ∧ decodeTableWord 64 0x2200000000000000 = some (.getbin 0)) ∧
  respWord .ok 0 10 = 0x00000000000000000A

/-! ### What a step runs -/

/-- A step of agent P in IDLE runs the command its first offered word decodes to, on port P, with that word taken
(30_encoding.md R92, 00_scope.md R13). -/
def Obligations.StepRunsDecodedCommandOnP : Prop :=
  ∀ (s : State) (ts : List Turn) (cw : CmdWord) (rest : List CmdWord) (i : Instr),
    s.turns = .agentP :: ts → s.pPhase = .idle → s.pCmd = cw :: rest → decode cw = .ok i →
    step s = exec i { s with turns := ts, port := .P, pCmd := rest }

/-- A step of agent C in IDLE runs the command its first offered word decodes to, on port C, with that word taken; around a
RESET or SETSIZE it notes how many responses the host must take until the window of 70_reset_and_hazards.md R291 closes (log
entry 12). -/
def Obligations.StepRunsDecodedCommandOnC : Prop :=
  ∀ (s : State) (ts : List Turn) (cw : CmdWord) (rest : List CmdWord) (i : Instr),
    s.turns = .agentC :: ts → s.cPhase = .idle → s.cCmd = cw :: rest → decode cw = .ok i →
    ((i ≠ .reset → (∀ cap, i ≠ .setsize cap) →
        step s = exec i { s with turns := ts, port := .C, cCmd := rest }) ∧
      (i = .reset ∨ (∃ cap, i = .setsize cap) →
        (∀ t, exec i { s with turns := ts, port := .C, cCmd := rest } = .next t →
          step s = .next { t with quiet := t.cRsp.length }) ∧
        (∀ r, exec i { s with turns := ts, port := .C, cCmd := rest } = .fault r → step s = .fault r)))

/-- 30_encoding.md R98, R100: a word that is no command is answered ERR_ILLEGAL on either port and changes nothing else. -/
def Obligations.NoCommandAnswersIllegal : Prop :=
  ∀ (s : State) (ts : List Turn) (cw : CmdWord) (rest : List CmdWord) (e : Reject), decode cw = .error e →
    (s.turns = .agentP :: ts → s.pPhase = .idle → s.pCmd = cw :: rest →
      step s = .next { s with
        turns := ts, port := .P, pCmd := rest, pRsp := s.pRsp ++ [respWord .errIllegal 0 0] }) ∧
    (s.turns = .agentC :: ts → s.cPhase = .idle → s.cCmd = cw :: rest →
      step s = .next { s with
        turns := ts, port := .C, cCmd := rest, cRsp := s.cRsp ++ [respWord .errIllegal 0 0] })

/-- 30_encoding.md R92, 10_state.md R26: a port takes the next command only in phase IDLE; until then the command waits, and no
response is sent but the one OK with which the compute step answers its own UPDATE (42_spectral_analyzer.md R199). -/
def Obligations.BusyPortTakesNoCommand : Prop :=
  ∀ (s t : State) (ts : List Turn), step s = .next t →
    (s.turns = .agentP :: ts → s.pPhase = .busy →
      t.pCmd = s.pCmd ∧ t.cCmd = s.cCmd ∧ t.pRsp = s.pRsp ∧ t.cRsp = s.cRsp) ∧
    (s.turns = .agentC :: ts → s.cPhase ≠ .idle →
      t.cCmd = s.cCmd ∧ t.pCmd = s.pCmd ∧ t.pRsp = s.pRsp ∧
      (s.cPhase = .beats ∨ s.cPhase = .release → t.cRsp = s.cRsp) ∧
      (s.cPhase = .compute → t.cRsp = s.cRsp ++ [respWord .ok 0 0]))

/-- 30_encoding.md R92: a command is answered by one response on its own port; only an admitted UPDATE answers later, at its
compute step (42_spectral_analyzer.md R182). -/
def Obligations.OneResponsePerCommand : Prop :=
  ∀ (i : Instr) (s t : State), exec i s = .next t →
    (s.port = .P → (∃ w, t.pRsp = s.pRsp ++ [w]) ∧ t.cRsp = s.cRsp) ∧
    (s.port = .C → t.pRsp = s.pRsp ∧
      ((∃ w, t.cRsp = s.cRsp ++ [w]) ∨
       (i = .update ∧ t.cRsp = s.cRsp ∧ t.cPhase = .beats ∧ t.cDst = .analyzer)))

/-- 60_exceptions.md R252, R257: a command answered with a status other than OK has d1 = d0 = 0 and has changed no state but
the response itself. -/
def Obligations.NonOkStatusChangesNothing : Prop :=
  ∀ (i : Instr) (s t : State) (w : RspWord), exec i s = .next t →
    (t.pRsp = s.pRsp ++ [w] ∨ t.cRsp = s.cRsp ++ [w]) → w.extractLsb' 64 8 ≠ Status.ok.code →
    w.extractLsb' 0 64 = 0 ∧ t = { s with pRsp := t.pRsp, cRsp := t.cRsp }

/-- 60_exceptions.md R252, R253: which status codes the first step of each command can answer with. UPDATE answers OK only at
its compute step. -/
def Obligations.StatusesOfEachCommand : Prop :=
  ∀ (i : Instr) (s t : State) (w : RspWord), exec i s = .next t →
    (t.pRsp = s.pRsp ++ [w] ∨ t.cRsp = s.cRsp ++ [w]) →
    w.extractLsb' 64 8 ∈ (match i with
      | .write _ => [0x00#8, 0x01#8, 0x02#8]
      | .read _ _ => [0x00#8, 0x01#8, 0x02#8, 0x03#8]
      | .nready => [0x00#8]
      | .freesp => [0x00#8]
      | .reset => [0x00#8, 0x02#8]
      | .setsize _ => [0x00#8, 0x02#8, 0x04#8]
      | .rdcsr _ => [0x00#8, 0x02#8, 0x03#8]
      | .wrcsr _ _ => [0x00#8, 0x02#8, 0x03#8, 0x04#8]
      | .axbuild => [0x00#8, 0x02#8, 0x04#8]
      | .update => [0x01#8, 0x02#8, 0x05#8]
      | .getinfo _ => [0x00#8, 0x02#8, 0x03#8, 0x05#8]
      | .getbin _ => [0x00#8, 0x02#8, 0x03#8])

/-! ### Ring buffer -/

/-- 40_ring_buffer.md R125: the WRITE check step, when it is enabled, both answers, and that nothing else changes. -/
def Obligations.WriteCheckStep : Prop :=
  ∀ (n : Nat) (s : State),
    (∀ (ts : List Turn) (rest : List CmdWord), n < 2 ^ 24 → s.turns = .agentP :: ts → s.pPhase = .idle →
      s.pCmd = encode (.write n) :: rest →
      step s = exec (.write n) { s with turns := ts, port := .P, pCmd := rest }) ∧
    (s.port = .P →
      let occ := modC ((s.tail : Int) - headView s) s.capacity
      let free := s.capacity - occ - 1
      (free < n → exec (.write n) s = .next (respond .fail 0 0 s)) ∧
      (n ≤ free → n = 0 → exec (.write n) s = .next (respond .ok 0 0 s)) ∧
      (n ≤ free → 0 < n → exec (.write n) s = .next { respond .ok 0 0 s with pRem := n, pPhase := .busy }))

/-- 40_ring_buffer.md R127: a WRITE beat stores the item in slot TAIL, moves TAIL by one modulo CAPACITY and counts P_REM down in
the same step, and leaves every other slot and everything else as it was. The item is what 32·N_CH wires carry (log entry 16). -/
def Obligations.WriteBeatStep : Prop :=
  ∀ (s : State) (ts : List Turn) (item : Item) (rest : List Item),
    s.turns = .agentP :: ts → s.pPhase = .busy → s.pDat = item :: rest → s.tail < s.cfg.depth →
    Memory.wf none s.ring = true →
    ∃ t : State, step s = .next t ∧
      Memory.read none t.ring s.tail = some (onWires s.cfg.nCh item) ∧
      (∀ a, a ≠ s.tail → Memory.read none t.ring a = Memory.read none s.ring a) ∧
      Memory.wf none t.ring = true ∧
      t = { s with
        turns := ts
        pDat := rest
        ring := t.ring
        tail := (s.tail + 1) % s.capacity
        pRem := s.pRem - 1
        pPhase := if s.pRem - 1 = 0 then .idle else .busy }

/-- 40_ring_buffer.md R131: the READ check step, when it is enabled, its three answers, and that nothing else changes. -/
def Obligations.ReadCheckStep : Prop :=
  ∀ (n c : Nat) (s : State),
    (∀ (ts : List Turn) (rest : List CmdWord), n < 2 ^ 24 → c < 2 ^ 24 → s.turns = .agentC :: ts → s.cPhase = .idle →
      s.cCmd = encode (.read n c) :: rest →
      step s = exec (.read n c) { s with turns := ts, port := .C, cCmd := rest }) ∧
    (s.port = .C →
      let ready := modC (tailView s - (s.head : Int)) s.capacity
      (n < c → exec (.read n c) s = .next (respond .errOperand 0 0 s)) ∧
      (c ≤ n → ready < n → exec (.read n c) s = .next (respond .fail 0 0 s)) ∧
      (c ≤ n → n ≤ ready → n = 0 → exec (.read n c) s = .next (respond .ok 0 0 s)) ∧
      (c ≤ n → n ≤ ready → 0 < n → exec (.read n c) s = .next { respond .ok 0 0 s with
        cDst := .port, cOff := 0, cRem := n, cRel := c, cPhase := .beats }))

/-- 40_ring_buffer.md R132 for C_DST = PORT: a beat delivers the item of slot (HEAD + C_OFF) mod C when the host accepts it, and
HEAD does not move; while the host does not accept, the step is not enabled. -/
def Obligations.BeatToPort : Prop :=
  ∀ (s : State) (ts : List Turn), s.turns = .agentC :: ts → s.cPhase = .beats → s.cDst = .port →
    (s.cDatReady = false → step s = .next { s with turns := ts }) ∧
    (s.cDatReady = true → ∀ item, Memory.read none s.ring ((s.head + s.cOff) % s.capacity) = some item →
      step s = .next { s with
        turns := ts
        cDat := s.cDat ++ [item]
        cOff := s.cOff + 1
        cRem := s.cRem - 1
        cPhase := if s.cRem - 1 = 0 then (if 0 < s.cRel then .release else .idle) else .beats })

/-- 40_ring_buffer.md R132 and 42_spectral_analyzer.md R183 for C_DST = ANALYZER: a beat puts the channel sum of the item, folded
from channel 0 upward with one `fadd` per channel, into IN[C_OFF] and leaves every other element of IN alone. -/
def Obligations.BeatToAnalyzer : Prop :=
  ∀ (s : State) (ts : List Turn) (item : Item), s.turns = .agentC :: ts → s.cPhase = .beats → s.cDst = .analyzer →
    s.cOff < s.cfg.fftSize → Memory.read none s.ring ((s.head + s.cOff) % s.capacity) = some item →
    Memory.wf none s.inBuf = true →
    ∃ t : State, step s = .next t ∧
      (s.cfg.nCh = 1 → Memory.read none t.inBuf s.cOff = some (item.extractLsb' 0 32)) ∧
      (s.cfg.nCh = 2 → Memory.read none t.inBuf s.cOff =
        some (fadd (Config.freeNaN s.draws (.channel 1)) (item.extractLsb' 0 32) (item.extractLsb' 32 32))) ∧
      Memory.read none t.inBuf s.cOff = some (channelSum (Config.freeNaN s.draws) s.cfg.nCh item) ∧
      (∀ c, 1 ≤ c → channelSum (Config.freeNaN s.draws) (c + 1) item =
        fadd (Config.freeNaN s.draws (.channel c)) (channelSum (Config.freeNaN s.draws) c item)
          (item.extractLsb' (32 * c) 32)) ∧
      (∀ a, a ≠ s.cOff → Memory.read none t.inBuf a = Memory.read none s.inBuf a) ∧
      t = { s with
        turns := ts
        inBuf := t.inBuf
        draws := s.draws + 1
        cOff := s.cOff + 1
        cRem := s.cRem - 1
        cPhase := if s.cRem - 1 = 0 then (if 0 < s.cRel then .release else .compute) else .beats }

/-- 40_ring_buffer.md R133: the release step. -/
def Obligations.ReleaseMovesHead : Prop :=
  ∀ (s : State) (ts : List Turn), s.turns = .agentC :: ts → s.cPhase = .release →
    step s = .next { s with
      turns := ts
      head := (s.head + 1) % s.capacity
      cRel := s.cRel - 1
      cPhase := if s.cRel - 1 = 0 then (if s.cDst = .analyzer then .compute else .idle) else .release }

/-- 40_ring_buffer.md R137: NREADY on either port answers the count that port sees and changes nothing else. -/
def Obligations.NreadyAnswersCount : Prop :=
  ∀ s : State,
    (s.port = .P → exec .nready s =
      .next (respond .ok 0 (BitVec.ofNat 32 (modC ((s.tail : Int) - headView s) s.capacity)) s)) ∧
    (s.port = .C → exec .nready s =
      .next (respond .ok 0 (BitVec.ofNat 32 (modC (tailView s - (s.head : Int)) s.capacity)) s))

/-- 40_ring_buffer.md R138: FREESP on either port answers the free space that port sees and changes nothing else. -/
def Obligations.FreespAnswersSpace : Prop :=
  ∀ s : State,
    (s.port = .P → exec .freesp s =
      .next (respond .ok 0 (BitVec.ofNat 32 (s.capacity - modC ((s.tail : Int) - headView s) s.capacity - 1)) s)) ∧
    (s.port = .C → exec .freesp s =
      .next (respond .ok 0 (BitVec.ofNat 32 (s.capacity - modC (tailView s - (s.head : Int)) s.capacity - 1)) s))

/-- 40_ring_buffer.md R121: the counts of either side, and that one slot is reserved. -/
def Obligations.CountsReserveOneSlot : Prop :=
  ∀ s : State, 0 < s.capacity →
    ((occP s : Int) = ((s.tail : Int) - headView s) % s.capacity ∧ occP s ≤ s.capacity - 1 ∧
      (freeP s : Int) = s.capacity - occP s - 1 ∧ freeP s ≤ s.capacity - 1) ∧
    ((readyC s : Int) = (tailView s - (s.head : Int)) % s.capacity ∧ readyC s ≤ s.capacity - 1 ∧
      (freeC s : Int) = s.capacity - readyC s - 1 ∧ freeC s ≤ s.capacity - 1)

/-- 40_ring_buffer.md R138, R147 (P1): what FREESP answers on port P is exactly the bound of the next WRITE check. -/
def Obligations.FreespDecidesNextWrite : Prop :=
  ∀ s : State, Inv s → s.port = .P →
    ∃ d0 : Word, exec .freesp s = .next (respond .ok 0 d0 s) ∧ ∀ n : Nat,
      (d0.toNat < n → exec (.write n) s = .next (respond .fail 0 0 s)) ∧
      (n ≤ d0.toNat → ∃ t : State, exec (.write n) s = .next t ∧ t.pRsp = s.pRsp ++ [respWord .ok 0 0])

/-- 40_ring_buffer.md R140, R142: RESET clears both pointers and every stage and nothing else; with the producer active it is a
fault, whose name is the model's (log entry 13). -/
def Obligations.ResetClearsPointers : Prop :=
  ∀ s : State, s.port = .C →
    (s.pPhase = .idle → exec .reset s = .next (respond .ok 0 0 { s with
      head := 0
      tail := 0
      tailv := List.replicate s.cfg.syncStages (ptrCode s.cfg.ptrW s.capacity 0)
      headv := List.replicate s.cfg.syncStages (ptrCode s.cfg.ptrW s.capacity 0) })) ∧
    (s.pPhase = .busy → exec .reset s = .fault .resetWhileProducerActive)

/-- 40_ring_buffer.md R141, R142: SETSIZE refuses an illegal capacity, is a fault with the producer active, and otherwise sets
CAPACITY and clears both pointers and every stage under the new capacity, and nothing else. The fault's name, and that the capacity
is tested first, are the model's (log entry 13). -/
def Obligations.SetsizeResizes : Prop :=
  ∀ (s : State) (cap : Nat), s.port = .C →
    (cap < 2 ∨ cap % 2 = 1 ∨ s.cfg.depth < cap → exec (.setsize cap) s = .next (respond .errCfg 0 0 s)) ∧
    (2 ≤ cap → cap % 2 = 0 → cap ≤ s.cfg.depth → s.pPhase = .busy →
      exec (.setsize cap) s = .fault .resizeWhileProducerActive) ∧
    (2 ≤ cap → cap % 2 = 0 → cap ≤ s.cfg.depth → s.pPhase = .idle →
      exec (.setsize cap) s = .next (respond .ok 0 0 { s with
        capacity := cap
        head := 0
        tail := 0
        tailv := List.replicate s.cfg.syncStages (ptrCode s.cfg.ptrW cap 0)
        headv := List.replicate s.cfg.syncStages (ptrCode s.cfg.ptrW cap 0) }))

/-! ### Synchronisers and the pointer code -/

/-- 20_memory.md R66: the step of ST. -/
def Obligations.SyncTailStep : Prop :=
  ∀ (s : State) (ts : List Turn), s.turns = .agentST :: ts → s.tailv.length = s.cfg.syncStages → 1 ≤ s.cfg.syncStages →
    step s = .next { s with
      turns := ts, tailv := ptrCode s.cfg.ptrW s.capacity s.tail :: s.tailv.dropLast }

/-- 20_memory.md R67: the step of SH. -/
def Obligations.SyncHeadStep : Prop :=
  ∀ (s : State) (ts : List Turn), s.turns = .agentSH :: ts → s.headv.length = s.cfg.syncStages → 1 ≤ s.cfg.syncStages →
    step s = .next { s with
      turns := ts, headv := ptrCode s.cfg.ptrW s.capacity s.head :: s.headv.dropLast }

/-- 10_state.md R24: a code fits PTR_W bits and decodes to its index. -/
def Obligations.PointerCodeDecodes : Prop :=
  ∀ W Cp i : Nat, Cp % 2 = 0 → 2 ≤ Cp → Cp ≤ 2 ^ W → i < Cp →
    ptrCode W Cp i < 2 ^ W ∧ ptrDecode W Cp (ptrCode W Cp i) = (i : Int)

/-- 10_state.md R24: neighbouring codes differ in exactly one bit, and the last and the first in the top bit. -/
def Obligations.PointerCodeChangesOneBit : Prop :=
  ∀ W Cp i : Nat, Cp % 2 = 0 → 2 ≤ Cp → Cp ≤ 2 ^ W → i < Cp →
    (∃ b, b < W ∧ ptrCode W Cp i ^^^ ptrCode W Cp ((i + 1) % Cp) = 2 ^ b) ∧
    ptrCode W Cp (Cp - 1) ^^^ ptrCode W Cp 0 = 2 ^ (W - 1)

/-- 20_memory.md R73 (e): after SYNC_STAGES steps of a synchroniser with the pointer unchanged, the view is the pointer. -/
def Obligations.ViewsSettle : Prop :=
  ∀ (s : State) (n : Nat), RingInv s → s.cfg.syncStages ≤ n →
    tailView (syncTail^[n] s) = (s.tail : Int) ∧ headView (syncHead^[n] s) = (s.head : Int)

/-! ### Whole machine -/

/-- 10_state.md R42, 70_reset_and_hazards.md R280: `rst`, from any state, leaves every register at its reset value, nothing
pending, and the contents R42 calls unspecified without a value (92_eei_decisions.md D23). What the host offers is not the
block's and stays (log entry 14). -/
def Obligations.RstRestoresResetValues : Prop :=
  ∀ (s : State) (ts : List Turn), s.turns = .rst :: ts → ∃ t : State, step s = .next t ∧
    t.tail = 0 ∧ t.head = 0 ∧ t.capacity = s.cfg.capReset ∧
    t.tailv = List.replicate s.cfg.syncStages (ptrCode s.cfg.ptrW s.cfg.capReset 0) ∧
    t.headv = List.replicate s.cfg.syncStages (ptrCode s.cfg.ptrW s.cfg.capReset 0) ∧
    t.pPhase = .idle ∧ t.cPhase = .idle ∧ t.cDst = .port ∧
    t.pRem = 0 ∧ t.cRem = 0 ∧ t.cOff = 0 ∧ t.cRel = 0 ∧
    (∀ a, t.avg.readZ a = 0) ∧ t.avgPtr = 1 ∧ t.rngMin = 0 ∧ t.rngMax = 0 ∧ t.sticky = false ∧
    t.axisValid = false ∧ t.dataValid = false ∧
    t.res = 0 ∧ t.fmin = 0 ∧ t.fmax = 0 ∧ t.dist = 0 ∧ t.srate = 0 ∧ t.interp = 0 ∧
    t.aRes = 0 ∧ t.aFmin = 0 ∧ t.aFmax = 0 ∧ t.aDist = 0 ∧ t.aSrate = 0 ∧
    (∀ a, t.out.readZ a = 0) ∧ t.pRsp = [] ∧ t.cRsp = [] ∧
    (∀ a, Memory.read none t.ring a = none ∧ Memory.read none t.axis a = none ∧ Memory.read none t.inBuf a = none ∧
      Memory.read none t.re a = none ∧ Memory.read none t.im a = none ∧ Memory.read none t.mag a = none) ∧
    t.cfg = s.cfg ∧ t.turns = ts ∧ t.pCmd = s.pCmd ∧ t.cCmd = s.cCmd ∧ t.pDat = s.pDat ∧ t.draws = s.draws

/-- The invariant holds at reset, of the model's reset state and of the reset state of every well-formed configuration
(10_state.md R42, 00_scope.md R6). -/
def Obligations.ResetMeetsInvariant : Prop :=
  Inv State.reset ∧ ∀ p : Config.Params, p.wf = true → Inv (State.resetWith p)

/-- Every step keeps the invariant (10_state.md R21 to R23, 20_memory.md R72, 70_reset_and_hazards.md R291). Its clause about the
window of R291 is the model's: the counter (log entry 12), and that nothing at all waits on port P inside the window, not even a
word that is no command (log entry 27, DESIGN CHOICE). -/
def Obligations.StepKeepsInvariant : Prop :=
  ∀ s t : State, Inv s → step s = .next t → Inv t

/-- 20_memory.md R72: the ordering of the pointers and their views, and its consequences. -/
def Obligations.PointersStayOrdered : Prop :=
  ∀ s : State, Inv s →
    forward s.capacity (chain s) ≤ s.capacity - 1 ∧ occ s ≤ s.capacity - 1 ∧
    readyC s ≤ occ s ∧ occ s ≤ occP s ∧ occP s ≤ s.capacity - 1

/-- 60_exceptions.md R258, 10_state.md R31, 70_reset_and_hazards.md R291, 93_implementation_defined.md U1, U5: from a state that
meets the invariant a step answers a next state, but for an offer of the host that breaks R291 as the model reads it, which is
marked faulted. No step of an agent faults, and no element without a value is ever read. `cw` ranges over every word: that a word
which is none of the twelve commands breaks the duty of R291 as well, whether offered inside the window or waiting on port P when
RESET or SETSIZE is offered, is the model's DESIGN CHOICE (log entry 27), not the spec's, which leaves it open (R290, R100). The
model's too are the window's bookkeeping (log entry 12), the faults' names (log entries 6, 13, 19), and that a turn with nothing
to do passes and an ended run stays (log entries 20, 21). -/
def Obligations.OnlyTheHostCausesFaults : Prop :=
  ∀ s : State, Inv s →
    (∃ t : State, step s = .next t) ∨
    (step s = .fault .producerNotQuiescent ∧ ∃ (cw : CmdWord) (ts : List Turn),
      (s.turns = .offerP cw :: ts ∧ windowOpen s = true) ∨
      (s.turns = .offerC cw :: ts ∧ isQuiesce cw = true ∧ ¬ (s.pCmd = [] ∧ s.pPhase = .idle)))

/-- 10_state.md R21, R22: only agent P moves TAIL and only agent C moves HEAD, but for RESET, SETSIZE and `rst`; CAPACITY changes
only by SETSIZE and `rst`; the parameters never change. -/
def Obligations.PointerOwnership : Prop :=
  ∀ (s t : State) (u : Turn) (ts : List Turn), s.turns = u :: ts → step s = .next t →
    t.cfg = s.cfg ∧
    (t.tail ≠ s.tail → u = .agentP ∨ u = .rst ∨ (u = .agentC ∧ s.cPhase = .idle ∧
      ∃ cw rest, s.cCmd = cw :: rest ∧ (decode cw = .ok .reset ∨ ∃ cap, decode cw = .ok (.setsize cap)))) ∧
    (t.head ≠ s.head → u = .agentC ∨ u = .rst) ∧
    (t.capacity ≠ s.capacity → u = .rst ∨ (u = .agentC ∧ s.cPhase = .idle ∧
      ∃ cw rest cap, s.cCmd = cw :: rest ∧ decode cw = .ok (.setsize cap)))

/-- 20_memory.md R73 (b), 10_state.md R23: seen through what it holds, the ring is a queue. -/
def Obligations.RingIsQueue : Prop :=
  ∀ (s t : State) (u : Turn) (ts : List Turn), Inv s → s.turns = u :: ts → step s = .next t → held t = queueAfter s u

/-- 20_memory.md R71, 40_ring_buffer.md R124 to R128, 70_reset_and_hazards.md R293: an admitted WRITE n with at least n beats on
offer completes in 1 + n steps of agent P taken one after another: it takes exactly n beats and appends them in order. An item
is what 32·N_CH wires carry (log entry 16); turns and offers are the model's (log entries 2, 3). -/
def Obligations.WriteRunsToCompletion : Prop :=
  ∀ (s : State) (n : Nat) (ts : List Turn) (rest : List CmdWord), Inv s → s.pPhase = .idle → n < 2 ^ 24 →
    s.pCmd = encode (.write n) :: rest → n ≤ s.pDat.length → n ≤ freeP s →
    s.turns = List.replicate (1 + n) .agentP ++ ts →
    ∃ t : State, Host.Core.run Sys2Proof.core (1 + n) s = .next t ∧ t.turns = ts ∧ t.pPhase = .idle ∧ t.pCmd = rest ∧
      t.pDat = s.pDat.drop n ∧ t.pRsp = s.pRsp ++ [respWord .ok 0 0] ∧ t.tail = (s.tail + n) % s.capacity ∧
      t.head = s.head ∧ held t = held s ++ (s.pDat.take n).map (fun item => some (onWires s.cfg.nCh item))

/-- 20_memory.md R71, R73, 40_ring_buffer.md R130 to R134: an admitted READ n, c whose beats the host accepts completes in
1 + n + c steps of agent C; it delivers the n oldest items in order and removes the c oldest. -/
def Obligations.ReadRunsToCompletion : Prop :=
  ∀ (s : State) (n c : Nat) (ts : List Turn) (rest : List CmdWord), Inv s → s.cPhase = .idle → n < 2 ^ 24 → c ≤ n →
    s.cCmd = encode (.read n c) :: rest → s.cDatReady = true → n ≤ readyC s →
    s.turns = List.replicate (1 + n + c) .agentC ++ ts →
    ∃ t : State, Host.Core.run Sys2Proof.core (1 + n + c) s = .next t ∧ t.turns = ts ∧ t.cPhase = .idle ∧ t.cCmd = rest ∧
      t.cRsp = s.cRsp ++ [respWord .ok 0 0] ∧ t.head = (s.head + c) % s.capacity ∧ t.tail = s.tail ∧
      t.cDat.map some = s.cDat.map some ++ (held s).take n ∧ held t = (held s).drop c

/-- 42_spectral_analyzer.md R180 to R182, R199, 70_reset_and_hazards.md R305: an admitted UPDATE completes in
1 + FFT_SIZE + (FFT_SIZE − KEEP) + 1 steps of agent C, answers OK at its end, sets DATA_VALID and removes the oldest half of its
block. -/
def Obligations.UpdateRunsToCompletion : Prop :=
  ∀ (s : State) (ts : List Turn) (rest : List CmdWord), Inv s → s.cPhase = .idle → s.cCmd = encode .update :: rest →
    s.axisValid = true → s.cfg.fftSize ≤ readyC s →
    s.turns = List.replicate (1 + s.cfg.fftSize + (s.cfg.fftSize - s.cfg.keep) + 1) .agentC ++ ts →
    ∃ t : State,
      Host.Core.run Sys2Proof.core (1 + s.cfg.fftSize + (s.cfg.fftSize - s.cfg.keep) + 1) s = .next t ∧
      t.turns = ts ∧ t.cPhase = .idle ∧ t.cDst = .port ∧ t.cCmd = rest ∧ t.cRsp = s.cRsp ++ [respWord .ok 0 0] ∧
      t.dataValid = true ∧ t.axisValid = true ∧ t.avgPtr = (if s.avgPtr + 1 = s.cfg.k then 1 else s.avgPtr + 1) ∧
      t.tail = s.tail ∧ held t = (held s).drop (s.cfg.fftSize / 2) ∧ t.cDat = s.cDat

/-- 00_scope.md R10, 10_state.md R20, R25, 20_memory.md R70: what a step of agent P does to the producer's side depends on the
producer's side alone; HEAD, the TAILV stages and the analyzer cannot be seen from it. -/
def Obligations.ProducerSeesOnlyItsDomain : Prop :=
  ∀ (s1 s2 : State) (ts1 ts2 : List Turn), s1.turns = .agentP :: ts1 → s2.turns = .agentP :: ts2 →
    producerView s1 = producerView s2 →
    ∀ t1 : State, step s1 = .next t1 → ∃ t2 : State, step s2 = .next t2 ∧ producerView t1 = producerView t2

/-- 70_reset_and_hazards.md R282: nothing but a compute step and `rst` changes AVG, AVG_PTR, RNG_MIN or RNG_MAX; RESET and SETSIZE
leave them alone. -/
def Obligations.AverageChangesOnlyInCompute : Prop :=
  ∀ (s t : State) (u : Turn) (ts : List Turn), s.turns = u :: ts → step s = .next t →
    (t.avg = s.avg ∧ t.avgPtr = s.avgPtr ∧ t.rngMin = s.rngMin ∧ t.rngMax = s.rngMax) ∨
    u = .rst ∨ (u = .agentC ∧ s.cPhase = .compute)

/-! ### Control registers and axis -/

/-- 41_csr_and_config.md R160, 10_state.md R28: RDCSR answers each populated register's value, refuses every other address, and
changes nothing. That P_K and AVG_PTR read as the low 32 bits where K is 2^32 or more is the model's DESIGN CHOICE (log entry 29):
R6 gives K no upper bound, and the spec does not say what the two registers read there. -/
def Obligations.RdcsrReadsRegisterMap : Prop :=
  ∀ s : State, s.port = .C →
    exec (.rdcsr 0x000) s = .next (respond .ok 0 (BitVec.ofNat 32 s.capacity) s) ∧
    (∃ w : Word, exec (.rdcsr 0x001) s = .next (respond .ok 0 w s) ∧
      w.getLsbD 0 = s.axisValid ∧ w.getLsbD 1 = s.dataValid ∧ w.toNat < 4) ∧
    exec (.rdcsr 0x002) s = .next (respond .ok 0 (BitVec.ofNat 32 s.cfg.depth) s) ∧
    exec (.rdcsr 0x003) s = .next (respond .ok 0 (BitVec.ofNat 32 s.cfg.fftSize) s) ∧
    exec (.rdcsr 0x004) s = .next (respond .ok 0 (BitVec.ofNat 32 s.cfg.nCh) s) ∧
    exec (.rdcsr 0x005) s = .next (respond .ok 0 (BitVec.ofNat 32 s.cfg.k) s) ∧
    exec (.rdcsr 0x006) s = .next (respond .ok 0 (BitVec.ofNat 32 s.cfg.resMax) s) ∧
    exec (.rdcsr 0x007) s = .next (respond .ok 0 1 s) ∧
    exec (.rdcsr 0x010) s = .next (respond .ok 0 s.res s) ∧
    exec (.rdcsr 0x011) s = .next (respond .ok 0 s.fmin s) ∧
    exec (.rdcsr 0x012) s = .next (respond .ok 0 s.fmax s) ∧
    exec (.rdcsr 0x013) s = .next (respond .ok 0 s.dist s) ∧
    exec (.rdcsr 0x014) s = .next (respond .ok 0 s.srate s) ∧
    exec (.rdcsr 0x015) s = .next (respond .ok 0 s.interp s) ∧
    exec (.rdcsr 0x020) s = .next (respond .ok 0 s.rngMin s) ∧
    exec (.rdcsr 0x021) s = .next (respond .ok 0 s.rngMax s) ∧
    exec (.rdcsr 0x022) s = .next (respond .ok 0 (BitVec.ofNat 32 s.avgPtr) s) ∧
    exec (.rdcsr 0x023) s = .next (respond .ok 0 s.aRes s) ∧
    ∀ addr : BitVec 12, addr ∉ [0x000#12, 0x001#12, 0x002#12, 0x003#12, 0x004#12, 0x005#12, 0x006#12, 0x007#12,
        0x010#12, 0x011#12, 0x012#12, 0x013#12, 0x014#12, 0x015#12, 0x020#12, 0x021#12, 0x022#12, 0x023#12] →
      exec (.rdcsr addr) s = .next (respond .errOperand 0 0 s)

/-- 41_csr_and_config.md R161, R166, 10_state.md R29: WRCSR stores the whole value in one of six registers and nothing else;
a reserved DIST or INTERP value is refused with ERR_CFG, every other address with ERR_OPERAND. -/
def Obligations.WrcsrStoresOrRefuses : Prop :=
  ∀ (s : State) (v : Word), s.port = .C →
    exec (.wrcsr 0x010 v) s = .next (respond .ok 0 0 { s with res := v }) ∧
    exec (.wrcsr 0x011 v) s = .next (respond .ok 0 0 { s with fmin := v }) ∧
    exec (.wrcsr 0x012 v) s = .next (respond .ok 0 0 { s with fmax := v }) ∧
    exec (.wrcsr 0x014 v) s = .next (respond .ok 0 0 { s with srate := v }) ∧
    (v.toNat ≤ 1 → exec (.wrcsr 0x013 v) s = .next (respond .ok 0 0 { s with dist := v })) ∧
    (v.toNat ≤ 1 → exec (.wrcsr 0x015 v) s = .next (respond .ok 0 0 { s with interp := v })) ∧
    (1 < v.toNat → exec (.wrcsr 0x013 v) s = .next (respond .errCfg 0 0 s) ∧
      exec (.wrcsr 0x015 v) s = .next (respond .errCfg 0 0 s)) ∧
    ∀ addr : BitVec 12, addr ∉ [0x010#12, 0x011#12, 0x012#12, 0x013#12, 0x014#12, 0x015#12] →
      exec (.wrcsr addr v) s = .next (respond .errOperand 0 0 s)

/-- 41_csr_and_config.md R163: a staged configuration that fails any test is refused with ERR_CFG and nothing changes. -/
def Obligations.AxbuildRefusesBadConfiguration : Prop :=
  ∀ s : State, s.port = .C →
    (s.res.toNat < 2 ∨ s.cfg.resMax < s.res.toNat ∨
      isFinite s.fmin = false ∨ isFinite s.fmax = false ∨ isFinite s.srate = false ∨
      fgt s.srate 0 = false ∨ flt s.fmin s.fmax = false ∨
      (s.dist = 1 ∧ fgt s.fmin 0 = false) ∨ (s.dist = 0 ∧ flt s.fmin 0 = true)) →
    exec .axbuild s = .next (respond .errCfg 0 0 s)

/-- 41_csr_and_config.md R163: a staged configuration that passes every test is committed: active copies, the entries of the
axis (R162), OUT all +0.0, the flags, the response; entries of AXIS at and above the resolution and everything else stay. -/
def Obligations.AxbuildCommitsConfiguration : Prop :=
  ∀ s : State, s.port = .C → Memory.wf none s.axis = true →
    2 ≤ s.res.toNat → s.res.toNat ≤ s.cfg.resMax →
    isFinite s.fmin = true → isFinite s.fmax = true → isFinite s.srate = true →
    fgt s.srate 0 = true → flt s.fmin s.fmax = true →
    (s.dist = 1 → fgt s.fmin 0 = true) → (s.dist = 0 → flt s.fmin 0 = false) →
    ∃ t : State, exec .axbuild s = .next t ∧
      (∀ i, i < s.res.toNat → Memory.read none t.axis i =
        some (
          let nan := Config.freeNaN s.draws
          let x := fdiv (nan (.axis i 0)) (i2f i) (i2f (s.res.toNat - 1))
          if s.dist = 0 then
            fadd (nan (.axis i 3)) s.fmin (fmul (nan (.axis i 2)) x (fsub (nan (.axis i 1)) s.fmax s.fmin))
          else
            Config.fexp (fadd (nan (.axis i 3))
              (fmul (nan (.axis i 2)) x (fsub (nan (.axis i 1)) (Config.fln s.fmax) (Config.fln s.fmin)))
              (Config.fln s.fmin)))) ∧
      (∀ i, s.res.toNat ≤ i → Memory.read none t.axis i = Memory.read none s.axis i) ∧
      (∀ i, t.out.readZ i = 0) ∧
      t = { s with
        aRes := s.res, aFmin := s.fmin, aFmax := s.fmax, aDist := s.dist, aSrate := s.srate
        axis := t.axis, out := t.out, axisValid := true, dataValid := false, draws := s.draws + 1
        cRsp := s.cRsp ++ [respWord .ok 0 s.res] }

/-- 41_csr_and_config.md R165: a linear axis starts exactly at its minimum (+0.0 for −0.0), and its last entry is
`fadd(lo, fsub(hi, lo))`. -/
def Obligations.LinearAxisEndpoints : Prop :=
  ∀ (nan : Config.DrawSite → BitVec 24) (r : Nat) (lo hi : Word), 2 ≤ r → r ≤ 2 ^ 24 →
    isFinite lo = true → isFinite hi = true → flt lo hi = true → flt lo 0 = false →
    axisEntry nan r lo hi 0 0 = (if lo = 0x80000000#32 then 0x00000000#32 else lo) ∧
    axisEntry nan r lo hi 0 (r - 1) =
      fadd (nan (.axis (r - 1) 3)) lo (fsub (nan (.axis (r - 1) 1)) hi lo)

/-! ### Spectral analyzer -/

/-- 42_spectral_analyzer.md R182: the UPDATE check step: ERR_STATE without an axis, FAIL with fewer than FFT_SIZE items ready,
otherwise the block pull starts with half the block to be released and no response yet. -/
def Obligations.UpdateCheckStep : Prop :=
  ∀ s : State, s.port = .C →
    (s.axisValid = false → exec .update s = .next (respond .errState 0 0 s)) ∧
    (s.axisValid = true → modC (tailView s - (s.head : Int)) s.capacity < s.cfg.fftSize →
      exec .update s = .next (respond .fail 0 0 s)) ∧
    (s.axisValid = true → s.cfg.fftSize ≤ modC (tailView s - (s.head : Int)) s.capacity →
      exec .update s = .next { s with
        cDst := .analyzer, cOff := 0, cRem := s.cfg.fftSize, cRel := s.cfg.fftSize - s.cfg.fftSize / 2,
        cPhase := .beats })

/-- 42_spectral_analyzer.md R199: the compute step runs the stages in order on the input block and the axis, records their
results, sets DATA_VALID, answers OK and returns to IDLE; it touches neither the ring nor port P. The window is applied sample
by sample (R185), and a magnitude is the square root of the sum of the two squares (R191). The other stages are the model's
functions, stated in StageButterflyGivesFourValues, AveragingStep, RangeBoundsTheFrame and RegimeSwitchIsOneWay. That IN, RE, IM
and MAG keep these values until the next tick is the model's choice (log entry 26). -/
def Obligations.ComputeStepRecordsTick : Prop :=
  ∀ (s : State) (ts : List Turn), Inv s → s.turns = .agentC :: ts → s.cPhase = .compute →
    ∃ (t : State) (xs fs : List Word), step s = .next t ∧
      xs.length = s.cfg.fftSize ∧ (∀ j, j < s.cfg.fftSize → Memory.read none s.inBuf j = xs[j]?) ∧
      fs.length = s.aRes.toNat ∧ (∀ i, i < s.aRes.toNat → Memory.read none s.axis i = fs[i]?) ∧
      (let nan := Config.freeNaN s.draws
       let input := windowed nan s.cfg xs
       let work := fft nan s.cfg.fftSize s.cfg.log2n input
       let mags := magnitudes nan s.cfg.bins work
       let avg := average nan s.cfg.bins s.avgPtr s.cfg.invKm1 mags s.avg
       let S := spectrum s.cfg.bins avg
       let pass := interpPass nan s.cfg.bins s.interp s.aSrate S fs
       input.length = s.cfg.fftSize ∧
       (∀ j, j < s.cfg.fftSize → input[j]? = some (fmul (nan (.window j)) (xs.getD j 0) (s.cfg.win.getD j 0))) ∧
       mags.length = s.cfg.bins ∧
       (∀ k, k < s.cfg.bins → mags[k]? = some (fsqrt (nan (.magnitude k 3))
         (fadd (nan (.magnitude k 2)) (fmul (nan (.magnitude k 0)) (work.re.getD k 0) (work.re.getD k 0))
           (fmul (nan (.magnitude k 1)) (work.im.getD k 0) (work.im.getD k 0))))) ∧
       (∀ j, j < s.cfg.fftSize → Memory.read none t.inBuf j = input[j]?) ∧
       (∀ j, j < s.cfg.fftSize → Memory.read none t.re j = work.re[j]? ∧ Memory.read none t.im j = work.im[j]?) ∧
       (∀ k, k < s.cfg.bins → Memory.read none t.mag k = mags[k]?) ∧
       (∀ x, x < s.aRes.toNat → some (t.out.readZ x) = pass.out[x]?) ∧
       (∀ x, s.aRes.toNat ≤ x → t.out.readZ x = s.out.readZ x) ∧
       t = { s with
         turns := ts, port := .C
         inBuf := t.inBuf, re := t.re, im := t.im, mag := t.mag, out := t.out, avg := avg
         avgPtr := if s.avgPtr + 1 = s.cfg.k then 1 else s.avgPtr + 1
         rngMin := (levelRange S).1, rngMax := (levelRange S).2, sticky := pass.sticky
         dataValid := true, cDst := .port, cPhase := .idle, draws := s.draws + 1
         cRsp := s.cRsp ++ [respWord .ok 0 0] })

/-- 42_spectral_analyzer.md R193: the averaging step on every bin, and that no other element of AVG changes. -/
def Obligations.AveragingStep : Prop :=
  ∀ (nan : Config.DrawSite → BitVec 24) (bins p : Nat) (inv : Word) (mags : List Word) (avg : Memory Word),
    1 ≤ p → Memory.wf zeroed avg = true →
    let avg' := average nan bins p inv mags avg
    (∀ k, k < bins →
      avg'.readZ (p * bins + k) = fmul (nan (.average k 1)) (mags.getD k 0) inv ∧
      avg'.readZ k = fadd (nan (.average k 2))
        (fsub (nan (.average k 0)) (avg.readZ k) (avg.readZ (p * bins + k)))
        (fmul (nan (.average k 1)) (mags.getD k 0) inv)) ∧
    (∀ a, bins ≤ a → (a < p * bins ∨ p * bins + bins ≤ a) → avg'.readZ a = avg.readZ a) ∧
    Memory.wf zeroed avg' = true

/-- 93_implementation_defined.md U16, 42_spectral_analyzer.md R193: a NaN in the running sum stays: whatever the new frame is,
the averaged bin is a NaN after the next tick too. -/
def Obligations.NanStaysInRunningSum : Prop :=
  ∀ (nan : Config.DrawSite → BitVec 24) (bins p : Nat) (inv : Word) (mags : List Word) (avg : Memory Word) (k : Nat),
    1 ≤ p → Memory.wf zeroed avg = true → k < bins → isNaN (avg.readZ k) = true →
    isNaN ((average nan bins p inv mags avg).readZ k) = true

/-- 42_spectral_analyzer.md R188: the butterflies of one stage lie on disjoint pairs, and butterflies on disjoint pairs do not
affect each other, so their order within a stage does not change any result. First two butterflies on any four different
indexes, then two different ones of one stage, with the group number and the place in the group of each. -/
def Obligations.ButterfliesOfAStageCommute : Prop :=
  (∀ (n1 n2 : Nat → BitVec 24) (wr1 wi1 wr2 wi2 : Word) (a b c d : Nat) (z : Work),
    a ≠ b → c ≠ d → a ≠ c → a ≠ d → b ≠ c → b ≠ d →
    butterfly n1 wr1 wi1 a b (butterfly n2 wr2 wi2 c d z) = butterfly n2 wr2 wi2 c d (butterfly n1 wr1 wi1 a b z)) ∧
  ∀ (nan : Config.DrawSite → BitVec 24) (N s g1 j1 g2 j2 : Nat) (z : Work),
    j1 < 2 ^ s / 2 → j2 < 2 ^ s / 2 → (g1, j1) ≠ (g2, j2) →
    stageButterfly nan N s (g1 * 2 ^ s) j1 (stageButterfly nan N s (g2 * 2 ^ s) j2 z) =
      stageButterfly nan N s (g2 * 2 ^ s) j2 (stageButterfly nan N s (g1 * 2 ^ s) j1 z)

/-- 42_spectral_analyzer.md R188, R190: the FFT is the bit-reversed load and then the stages 1 to L in order. The load puts sample
`j` at the index whose L bits are those of `j` in reverse, with a zero imaginary part. A butterfly of stage `s` reads the pair
a = g + j, b = g + j + 2^s / 2, weighs element b with the twiddle of t = j · (N / 2^s), gives the four values of R190, all from
the old ones, and leaves every other element alone. A whole stage leaves on every pair of every group the four values computed
from the arrays the stage found. -/
def Obligations.StageButterflyGivesFourValues : Prop :=
  (∀ (L j : Nat) (xs : List Word), j < 2 ^ L →
    bitrev L j < 2 ^ L ∧ (∀ i, i < L → (bitrev L j).testBit i = j.testBit (L - 1 - i)) ∧
    (loadReversed (2 ^ L) L xs).re[bitrev L j]? = some (xs.getD j 0) ∧
    (loadReversed (2 ^ L) L xs).im[bitrev L j]? = some 0) ∧
  (∀ (nan : Config.DrawSite → BitVec 24) (N s g j : Nat) (z : Work), 1 ≤ s →
    let a := g + j
    let b := g + j + 2 ^ s / 2
    b < z.re.length → b < z.im.length →
    let z' := stageButterfly nan N s g j z
    FourValues (fun op => nan (.butterfly s a op)) (Rom.twr N (j * (N / 2 ^ s))) (Rom.twi N (j * (N / 2 ^ s))) a b z z' ∧
    z'.re.length = z.re.length ∧ z'.im.length = z.im.length ∧
    ∀ i, i ≠ a → i ≠ b → z'.re[i]? = z.re[i]? ∧ z'.im[i]? = z.im[i]?) ∧
  (∀ (nan : Config.DrawSite → BitVec 24) (N s : Nat) (z : Work), 1 ≤ s → z.re.length = N → z.im.length = N →
    (fftStage nan N s z).re.length = N ∧ (fftStage nan N s z).im.length = N ∧
    ∀ g j, g < N / 2 ^ s → j < 2 ^ s / 2 →
      let a := g * 2 ^ s + j
      let b := g * 2 ^ s + j + 2 ^ s / 2
      FourValues (fun op => nan (.butterfly s a op)) (Rom.twr N (j * (N / 2 ^ s))) (Rom.twi N (j * (N / 2 ^ s))) a b z
        (fftStage nan N s z)) ∧
  ∀ (nan : Config.DrawSite → BitVec 24) (N L : Nat) (xs : List Word), ∃ z : Nat → Work,
    z 0 = loadReversed N L xs ∧ (∀ i, i < L → z (i + 1) = fftStage nan N (i + 1) (z i)) ∧ fft nan N L xs = z L

/-- 42_spectral_analyzer.md R192: an all-zero input gives MAG = +0.0 in every bin, for every well-formed configuration (its
window ROM is finite, 00_scope.md R6, and so are the entries of the twiddle ROM of R189 as the model computes them, log entry
10). -/
def Obligations.SilenceHasZeroSpectrum : Prop :=
  ∀ (nan : Config.DrawSite → BitVec 24) (p : Config.Params), p.wf = true →
    magnitudes nan p.bins (fft nan p.fftSize p.log2n (windowed nan p (List.replicate p.fftSize 0#32))) =
      List.replicate p.bins 0#32

/-- 42_spectral_analyzer.md R197: on a frame without a NaN, RNG_MIN and RNG_MAX are entries of the frame and no entry lies
outside them. -/
def Obligations.RangeBoundsTheFrame : Prop :=
  ∀ S : List Word, S ≠ [] → (∀ x ∈ S, isNaN x = false) →
    (levelRange S).1 ∈ S ∧ (levelRange S).2 ∈ S ∧
    ∀ x ∈ S, flt x (levelRange S).1 = false ∧ fgt x (levelRange S).2 = false

/-! ### Interpolator and read-out -/

/-- 43_interpolator.md R223: the bin number of a coordinate is 0 where the coordinate is not above 0, a NaN among them, the last
bin from there on upward, and else the floor of the coordinate (its magnitude counted in units of 2^−149). It is always in
range. -/
def Obligations.BinIndexInRange : Prop :=
  ∀ (bins : Nat) (b : Word), 1 ≤ bins →
    (bins ≤ 2 ^ 22 → binIdx bins b < bins) ∧
    (fgt b 0 = false → binIdx bins b = 0) ∧
    (fgt b 0 = true → fge b (i2f (bins - 1)) = true → binIdx bins b = bins - 1) ∧
    (fgt b 0 = true → fge b (i2f (bins - 1)) = false →
      binIdx bins b * 2 ^ 149 ≤ magnitudeOf b ∧ magnitudeOf b < (binIdx bins b + 1) * 2 ^ 149)

/-- 43_interpolator.md R227: decimation takes the largest bin of its interval, which runs from idx(bprev) + 1 to idx(b), or is
the single bin idx(b) where that is empty. A NaN bin is skipped unless it is the first one scanned, and then it is the result.
First the scan of any interval of the frame, then decimation. -/
def Obligations.PeakIsTheMaximum : Prop :=
  (∀ (S : List Word) (lo hi : Nat), lo ≤ hi →
    (isNaN (S.getD lo 0) = true → peak S lo hi = S.getD lo 0) ∧
    (isNaN (S.getD lo 0) = false →
      (∃ k, lo ≤ k ∧ k ≤ hi ∧ peak S lo hi = S.getD k 0) ∧ isNaN (peak S lo hi) = false ∧
      ∀ k, lo ≤ k → k ≤ hi → fgt (S.getD k 0) (peak S lo hi) = false)) ∧
  ∀ (bins : Nat) (S : List Word) (bprev b : Word),
    let hi := binIdx bins b
    let lo := if hi < binIdx bins bprev + 1 then hi else binIdx bins bprev + 1
    (isNaN (S.getD lo 0) = true → decimate bins S bprev b = S.getD lo 0) ∧
    (isNaN (S.getD lo 0) = false →
      (∃ k, lo ≤ k ∧ k ≤ hi ∧ decimate bins S bprev b = S.getD k 0) ∧ isNaN (decimate bins S bprev b) = false ∧
      ∀ k, lo ≤ k → k ≤ hi → fgt (S.getD k 0) (decimate bins S bprev b) = false)

/-- 43_interpolator.md R221, R222, R224 to R226: the pass gives one value per output index. From the first index on whose local
axis width exceeds one bin every value is decimated; before it, INTERP selects the nearest bin, or the linear blend with its two
unblended cases. STICKY ends set exactly when some index switched. -/
def Obligations.RegimeSwitchIsOneWay : Prop :=
  ∀ (nan : Config.DrawSite → BitVec 24) (bins : Nat) (interp aSrate : Word) (S fs : List Word),
    let b := fun x => fdiv (nan (.coordinate x 1)) (fmul (nan (.coordinate x 0)) (fs.getD x 0) (i2f (bins - 1)))
      (fmul (nan .nyquist) aSrate 0x3F000000#32)
    let switched := fun x => ∃ y, 1 ≤ y ∧ y ≤ x ∧ fgt (fsub (nan (.width y)) (b y) (b (y - 1))) 0x3F800000#32 = true
    let pass := interpPass nan bins interp aSrate S fs
    pass.out.length = fs.length ∧
    (pass.sticky = true ↔ ∃ x, x < fs.length ∧ switched x) ∧
    ∀ x, x < fs.length →
      (switched x → pass.out[x]? = some (decimate bins S (b (x - 1)) (b x))) ∧
      (¬ switched x → interp = 0 →
        pass.out[x]? = some (S.getD (binIdx bins (fadd (nan (.value x 0)) (b x) 0x3F000000#32)) 0)) ∧
      (¬ switched x → interp ≠ 0 →
        let k0 := binIdx bins (b x)
        let fr := fsub (nan (.value x 0)) (b x) (i2f k0)
        (fgt (b x) 0 = false ∨ k0 = bins - 1 → pass.out[x]? = some (S.getD k0 0)) ∧
        (fgt (b x) 0 = true → k0 ≠ bins - 1 →
          pass.out[x]? = some (fadd (nan (.value x 4))
            (fmul (nan (.value x 2)) (S.getD k0 0) (fsub (nan (.value x 1)) 0x3F800000#32 fr))
            (fmul (nan (.value x 3)) (S.getD (k0 + 1) 0) fr))))

/-- 43_interpolator.md R232, 60_exceptions.md R256: GETINFO answers ERR_STATE without an axis, then ERR_OPERAND out of range, else
the frequency and the magnitude of the index; it changes nothing. -/
def Obligations.GetinfoReadsFrame : Prop :=
  ∀ (s : State) (idx : Nat), s.port = .C →
    (s.axisValid = false → exec (.getinfo idx) s = .next (respond .errState 0 0 s)) ∧
    (s.axisValid = true → s.aRes.toNat ≤ idx → exec (.getinfo idx) s = .next (respond .errOperand 0 0 s)) ∧
    (s.axisValid = true → idx < s.aRes.toNat → ∀ f, Memory.read none s.axis idx = some f →
      exec (.getinfo idx) s = .next (respond .ok f (s.out.readZ idx) s))

/-- 43_interpolator.md R234: GETBIN answers AVG[0][k], or ERR_OPERAND for k ≥ BINS; it changes nothing. -/
def Obligations.GetbinReadsAverage : Prop :=
  ∀ (s : State) (k : Nat), s.port = .C →
    (s.cfg.fftSize / 2 ≤ k → exec (.getbin k) s = .next (respond .errOperand 0 0 s)) ∧
    (k < s.cfg.fftSize / 2 → exec (.getbin k) s = .next (respond .ok 0 (s.avg.readZ k) s))

/-- 20_memory.md R63: RDCSR, GETINFO, GETBIN, NREADY and FREESP change no state but the response they send, on either port. -/
def Obligations.ReadsHaveNoSideEffect : Prop :=
  ∀ (i : Instr) (s t : State),
    ((∃ addr, i = .rdcsr addr) ∨ (∃ idx, i = .getinfo idx) ∨ (∃ k, i = .getbin k) ∨ i = .nready ∨ i = .freesp) →
    exec i s = .next t → t = { s with pRsp := t.pRsp, cRsp := t.cRsp }

/-! ### Arithmetic -/

/-- 00_scope.md R9: rounding is to nearest, ties to even. Below (2^25 − 1) · 2^103, half a last place beyond the largest finite
value, the result is finite: no finite pattern of the same sign is nearer to the exact value m · 2^(e − 400) than the one
`roundPack` gives, and of two equally near ones it gives the even one. From there on it is infinity of the value's sign.
Magnitudes are compared in units of 2^−400. Then, of finite operands and whatever the NaN draws: a sum, difference, product,
quotient by a non-zero divisor and root of a value not below zero is the exact result so rounded, an exact zero with the sign
IEEE-754 gives it; the conversion of an integer up to 2^24 is exact; and the comparisons are those of the exact values, false if
an operand is a NaN. The format itself is general knowledge (log entry 9). -/
def Obligations.RoundingIsToNearestEven : Prop :=
  (∀ (sgn : Bool) (m e : Nat),
    ((2 ^ 25 - 1) * 2 ^ 503 ≤ m * 2 ^ e → roundPack sgn m e = if sgn then 0xFF800000#32 else 0x7F800000#32) ∧
    (m * 2 ^ e < (2 ^ 25 - 1) * 2 ^ 503 →
      isFinite (roundPack sgn m e) = true ∧ f32Sign (roundPack sgn m e) = sgn ∧
      ∀ w : Word, isFinite w = true → f32Sign w = sgn →
        distance (m * 2 ^ e) (magnitudeOf (roundPack sgn m e) * 2 ^ 251) ≤ distance (m * 2 ^ e) (magnitudeOf w * 2 ^ 251) ∧
        (distance (m * 2 ^ e) (magnitudeOf (roundPack sgn m e) * 2 ^ 251) =
            distance (m * 2 ^ e) (magnitudeOf w * 2 ^ 251) → w ≠ roundPack sgn m e →
          f32Frac (roundPack sgn m e) % 2 = 0))) ∧
  (∀ (q : BitVec 24) (a b : Word), isFinite a = true → isFinite b = true →
    let va : ℝ := valueOf a
    let vb : ℝ := valueOf b
    RoundsTo (if valueOf a + valueOf b = 0 then f32Sign a && f32Sign b else decide (valueOf a + valueOf b < 0)) (va + vb) (fadd q a b) ∧
    RoundsTo (if valueOf a - valueOf b = 0 then f32Sign a && !f32Sign b else decide (valueOf a - valueOf b < 0)) (va - vb) (fsub q a b) ∧
    RoundsTo (f32Sign a ^^ f32Sign b) (va * vb) (fmul q a b) ∧
    (vb ≠ 0 → RoundsTo (f32Sign a ^^ f32Sign b) (va / vb) (fdiv q a b)) ∧
    (0 ≤ va → RoundsTo (f32Sign a) (Real.sqrt va) (fsqrt q a)) ∧
    (flt a b = true ↔ va < vb) ∧ (fgt a b = true ↔ vb < va) ∧ (fge a b = true ↔ vb ≤ va)) ∧
  (∀ a b : Word, isNaN a = true ∨ isNaN b = true → flt a b = false ∧ fgt a b = false ∧ fge a b = false) ∧
  ∀ i : Nat, i ≤ 2 ^ 24 → isFinite (i2f i) = true ∧ f32Sign (i2f i) = false ∧ valueOf (i2f i) = i
end

