-- ==== Sys2Proof/Laws/Fft.lean ====
section
/-! SUPPORT. The bit-reversed index (42_spectral_analyzer.md R188) and the sizes of the work arrays. -/

namespace Sys2Proof.Machine

theorem bitrev_succ (L j : Nat) : bitrev (L + 1) j = 2 * bitrev L j + (j >>> L) % 2 := by
  simp [bitrev, List.range_succ]

theorem bitrev_lt (L j : Nat) : bitrev L j < 2 ^ L := by
  induction L with
  | zero => simp [bitrev]
  | succ L ih => rw [bitrev_succ, pow_succ]; omega

/-- Bit `i` of the reversed index is bit L − 1 − i of the index (R188). -/
theorem testBit_bitrev (L j : Nat) : ∀ i, i < L → (bitrev L j).testBit i = j.testBit (L - 1 - i) := by
  induction L with
  | zero => intro i hi; omega
  | succ L ih =>
    intro i hi
    rw [bitrev_succ]
    cases i with
    | zero =>
      rw [Nat.testBit_zero, show L + 1 - 1 - 0 = L by omega, Nat.testBit_eq_decide_div_mod_eq, Nat.shiftRight_eq_div_pow]
      congr 1
      rw [eq_iff_iff]
      omega
    | succ i =>
      rw [Nat.testBit_succ, show (2 * bitrev L j + (j >>> L) % 2) / 2 = bitrev L j by omega, ih i (by omega)]
      congr 1
      omega

/-- Different indexes have different reversed indexes, so the load writes every element once. -/
theorem bitrev_inj {L j k : Nat} (hj : j < 2 ^ L) (hk : k < 2 ^ L) (h : bitrev L j = bitrev L k) : j = k := by
  refine Nat.eq_of_testBit_eq fun i => ?_
  by_cases hi : i < L
  · have hb := congrArg (fun x => x.testBit (L - 1 - i)) h
    simp only [testBit_bitrev L _ (L - 1 - i) (by omega)] at hb
    rwa [show L - 1 - (L - 1 - i) = i by omega] at hb
  · have hle : 2 ^ L ≤ 2 ^ i := Nat.pow_le_pow_right (by omega) (by omega)
    rw [Nat.testBit_lt_two_pow (by omega), Nat.testBit_lt_two_pow (by omega)]

@[simp] theorem butterfly_re_length (nan : Nat → BitVec 24) (wr wi : Word) (a b : Nat) (z : Work) :
    (butterfly nan wr wi a b z).re.length = z.re.length := by simp [butterfly]

@[simp] theorem butterfly_im_length (nan : Nat → BitVec 24) (wr wi : Word) (a b : Nat) (z : Work) :
    (butterfly nan wr wi a b z).im.length = z.im.length := by simp [butterfly]

@[simp] theorem stageButterfly_re_length (nan : Config.DrawSite → BitVec 24) (N s g j : Nat) (z : Work) :
    (stageButterfly nan N s g j z).re.length = z.re.length := by simp [stageButterfly]

@[simp] theorem stageButterfly_im_length (nan : Config.DrawSite → BitVec 24) (N s g j : Nat) (z : Work) :
    (stageButterfly nan N s g j z).im.length = z.im.length := by simp [stageButterfly]

end Sys2Proof.Machine
end

