-- ==== Sys2Proof/Laws/Float.lean ====
section
/-! SUPPORT. When a rounded value is finite, and that every entry of the twiddle ROM is (42_spectral_analyzer.md R189). -/

namespace Sys2Proof.Machine

/-- The exponent field of a packed magnitude. -/
theorem f32Exp_packBits (s : Bool) {bits : Nat} (h : bits < 2 ^ 31) : f32Exp (packBits s bits) = bits / 2 ^ 23 := by
  unfold f32Exp packBits
  rw [BitVec.extractLsb'_toNat, BitVec.toNat_ofNat, Nat.shiftRight_eq_div_pow]
  cases s
  · rw [if_neg Bool.false_ne_true]; omega
  · rw [if_pos rfl]; omega

theorem isFinite_packBits (s : Bool) {bits : Nat} (h : bits < 0x7F800000) : isFinite (packBits s bits) = true := by
  rw [isFinite, f32Exp_packBits s (by omega)]
  simp only [decide_eq_true_eq]
  omega

/-- A significand is rounded to at most 24 bits. -/
theorem roundShift_le (m sh : Nat) (h : m < 2 ^ (sh + 24)) : roundShift m sh ≤ 2 ^ 24 := by
  have hd : m / 2 ^ sh < 2 ^ 24 := Nat.div_lt_of_lt_mul (by rwa [← pow_add])
  by_cases h0 : sh = 0
  · subst h0; simpa [roundShift] using h.le
  · rw [roundShift, if_neg h0]
    dsimp only
    split <;> omega

/-- A value below 2^100 rounds to a finite pattern. In the units of `roundPack`, 2^−400, that is 500 bits. -/
theorem isFinite_roundPack (s : Bool) (m e : Nat) (h : m.log2 + e < 500) : isFinite (roundPack s m e) = true := by
  by_cases hm : m = 0
  · subst hm; exact isFinite_packBits s (by omega)
  have hhi : m < 2 ^ (m.log2 + 1) := Nat.lt_log2_self
  rw [roundPack, if_neg hm]
  dsimp only
  generalize hq : max (m.log2 + 1 + e - 24) 251 = q
  have hmant : (if q ≤ e then m * 2 ^ (e - q) else roundShift m (q - e)) ≤ 2 ^ 24 := by
    split
    · rename_i hqe
      calc m * 2 ^ (e - q) ≤ 2 ^ (m.log2 + 1) * 2 ^ (e - q) := Nat.mul_le_mul_right _ hhi.le
        _ = 2 ^ (m.log2 + 1 + (e - q)) := (pow_add ..).symm
        _ ≤ 2 ^ 24 := Nat.pow_le_pow_right (by omega) (by omega)
    · exact roundShift_le m (q - e) (hhi.trans_le (Nat.pow_le_pow_right (by omega) (by omega)))
  generalize (if q ≤ e then m * 2 ^ (e - q) else roundShift m (q - e)) = mant at hmant ⊢
  have hb : (q - 251) * 2 ^ 23 + mant < 0x7F800000 := by omega
  rw [if_neg (by omega)]
  exact isFinite_packBits s hb

namespace Rom

/-- A fixed-point number below 2^8 rounds to a finite pattern. -/
theorem isFinite_fixToF32 {v : Int} (h : v.natAbs < 2 ^ 200) : isFinite (fixToF32 v) = true := by
  have hone : oneFix = 2 ^ 192 := rfl
  have hlog : oneFix.log2 = 192 := by rw [hone, Nat.log2_two_pow]
  unfold fixToF32 nearestRat
  rw [hlog]
  split
  · exact isFinite_packBits _ (by omega)
  generalize v.natAbs = num at h
  have hL : num.log2 ≤ 199 := by
    by_cases h0 : num = 0
    · subst h0; decide
    · have := (Nat.pow_lt_pow_iff_right (a := 2) (by omega)).1 ((Nat.log2_self_le h0).trans_lt h)
      omega
  have hn : num * 2 ^ (192 + 64 - num.log2) < 2 ^ 192 * 2 ^ 65 := by
    calc num * 2 ^ (192 + 64 - num.log2) < 2 ^ (num.log2 + 1) * 2 ^ (192 + 64 - num.log2) :=
          Nat.mul_lt_mul_of_pos_right Nat.lt_log2_self (by positivity)
      _ = 2 ^ (num.log2 + 1 + (192 + 64 - num.log2)) := (pow_add ..).symm
      _ = 2 ^ (192 + 65) := by congr 1; omega
      _ = 2 ^ 192 * 2 ^ 65 := pow_add ..
  have hd : num * 2 ^ (192 + 64 - num.log2) / oneFix < 2 ^ 65 := Nat.div_lt_of_lt_mul (by rw [hone]; exact hn)
  have hs : stickyDiv (num * 2 ^ (192 + 64 - num.log2)) oneFix < 2 ^ 66 := by
    unfold stickyDiv; split <;> omega
  apply isFinite_roundPack
  generalize stickyDiv _ oneFix = m at hs
  have : m.log2 < 66 := by
    by_cases h0 : m = 0
    · subst h0; decide
    · exact (Nat.log2_lt h0).2 hs
  omega

/-- From the second term on the terms of the series do not grow, for an angle up to π. -/
theorem cosTail_le (x2 : Nat) (hx : x2 ≤ 10 * oneFix) : ∀ (fuel n term : Nat), 1 ≤ n →
    (cosTail x2 fuel n term).natAbs ≤ fuel * term := by
  intro fuel
  induction fuel with
  | zero => intro n term _; simp [cosTail]
  | succ fuel ih =>
    intro n term hn
    have hnext : term * x2 / oneFix / ((2 * n + 1) * (2 * n + 2)) ≤ term := by
      have h1 : term * x2 / oneFix ≤ 10 * term := by
        apply Nat.div_le_of_le_mul
        calc term * x2 ≤ term * (10 * oneFix) := Nat.mul_le_mul_left _ hx
          _ = oneFix * (10 * term) := by ring
      apply Nat.div_le_of_le_mul
      refine h1.trans (Nat.mul_le_mul_right _ ?_)
      nlinarith
    rw [cosTail, Nat.succ_mul fuel term]
    have h := (ih (n + 1) _ (by omega)).trans (Nat.mul_le_mul_left fuel hnext)
    generalize cosTail x2 fuel (n + 1) _ = r at h ⊢
    generalize fuel * term = b at h ⊢
    omega

/-- The fixed-point cosine is small whatever its arguments. -/
theorem natAbs_cosFix (u M : Nat) : (cosFix u M).natAbs < 2 ^ 200 := by
  have hone : oneFix = 2 ^ 192 := rfl
  have hx : 2 * piFix * min u (M - u) / M ≤ piFix := by
    rcases Nat.eq_zero_or_pos M with h0 | _
    · simp [h0]
    · apply Nat.div_le_of_le_mul
      have : 2 * min u (M - u) ≤ M := by omega
      calc 2 * piFix * min u (M - u) = 2 * min u (M - u) * piFix := by ring
        _ ≤ M * piFix := Nat.mul_le_mul_right _ this
  unfold cosFix
  dsimp only
  generalize 2 * piFix * min u (M - u) / M = x at hx
  have hx2 : x * x / oneFix ≤ 10 * oneFix :=
    (Nat.div_le_div_right (Nat.mul_le_mul hx hx)).trans (by decide)
  generalize x * x / oneFix = x2 at hx2
  have hnext : oneFix * x2 / oneFix / ((2 * 0 + 1) * (2 * 0 + 2)) ≤ 5 * oneFix := by
    rw [Nat.mul_div_cancel_left _ (by rw [hone]; positivity)]; omega
  have h := (cosTail_le x2 hx2 43 1 _ le_rfl).trans (Nat.mul_le_mul_left 43 hnext)
  rw [cosTail]
  simp only [Nat.zero_add]
  omega

theorem isFinite_twr (N t : Nat) : isFinite (twr N t) = true := by
  unfold twr; split
  · decide
  · exact isFinite_fixToF32 (natAbs_cosFix _ _)

theorem isFinite_twi (N t : Nat) : isFinite (twi N t) = true := by
  unfold twi; split
  · decide
  · exact isFinite_fixToF32 (natAbs_cosFix _ _)

end Rom

end Sys2Proof.Machine
end

