-- ==== Sys2Proof/Laws/Memory.lean ====
section
/-! SUPPORT. The laws of a memory space: a read after a write, the canonical form kept by every operation, and what a run of
writes and a block read give. Later proofs cite these and do not unfold the operations. -/

namespace Sys2Proof.Machine.Memory

variable {α : Type}

@[simp] theorem find_nil (a : Nat) : find ([] : Memory α) a = none := rfl

theorem find_put_same (m : Memory α) (a : Nat) (v : α) : find (put m a v) a = some v := by
  induction m with
  | nil => simp [put, find]
  | cons e m ih =>
    obtain ⟨k, x⟩ := e
    simp only [put]
    split
    · simp [find]
    · split
      · simp [find]
      · rw [find, if_neg (by omega), ih]

theorem find_put_other (m : Memory α) (a b : Nat) (v : α) (h : b ≠ a) : find (put m a v) b = find m b := by
  induction m with
  | nil => simp [put, find, Ne.symm h]
  | cons e m ih =>
    obtain ⟨k, x⟩ := e
    simp only [put]
    split
    · simp [find, Ne.symm h]
    · split
      · rename_i hk; subst hk; simp [find, Ne.symm h]
      · simp only [find, ih]

theorem find_eq_none_of_lt (m : Memory α) (a : Nat) (h : ∀ e ∈ m, a < e.1) : find m a = none := by
  induction m with
  | nil => rfl
  | cons e m ih =>
    obtain ⟨k, x⟩ := e
    have hk : a < k := h (k, x) (by simp)
    rw [find, if_neg (by omega)]
    exact ih fun e he => h e (by simp [he])

/-- The indexes rise strictly. -/
abbrev Sorted (m : Memory α) : Prop := (m.map Prod.fst).Pairwise (· < ·)

theorem sorted_cons {k : Nat} {x : α} {m : Memory α} :
    Sorted ((k, x) :: m) ↔ (∀ e ∈ m, k < e.1) ∧ Sorted m := by
  simp [Sorted, List.pairwise_cons]

theorem find_drop_same (m : Memory α) (a : Nat) (h : Sorted m) : find (drop m a) a = none := by
  induction m with
  | nil => rfl
  | cons e m ih =>
    obtain ⟨k, x⟩ := e
    rw [sorted_cons] at h
    simp only [drop]
    split
    · rename_i hk; subst hk; exact find_eq_none_of_lt m _ h.1
    · rw [find, if_neg (by omega), ih h.2]

theorem find_drop_other (m : Memory α) (a b : Nat) (h : b ≠ a) : find (drop m a) b = find m b := by
  induction m with
  | nil => rfl
  | cons e m ih =>
    obtain ⟨k, x⟩ := e
    simp only [drop]
    split
    · rename_i hk; subst hk; rw [find, if_neg (Ne.symm h)]
    · simp only [find, ih]

theorem mem_put {m : Memory α} {a : Nat} {v : α} {e : Nat × α} (h : e ∈ put m a v) : e = (a, v) ∨ e ∈ m := by
  induction m with
  | nil => simpa [put] using h
  | cons f m ih =>
    obtain ⟨k, x⟩ := f
    simp only [put] at h
    split at h
    · simpa using h
    · split at h
      · rename_i hk; subst hk
        rcases List.mem_cons.1 h with h | h
        · exact .inl h
        · exact .inr (by simp [h])
      · rcases List.mem_cons.1 h with h | h
        · exact .inr (by simp [h])
        · rcases ih h with h | h
          · exact .inl h
          · exact .inr (by simp [h])

theorem mem_drop {m : Memory α} {a : Nat} {e : Nat × α} (h : e ∈ drop m a) : e ∈ m := by
  induction m with
  | nil => simp [drop] at h
  | cons f m ih =>
    obtain ⟨k, x⟩ := f
    simp only [drop] at h
    split at h
    · simp [h]
    · rcases List.mem_cons.1 h with h | h
      · simp [h]
      · simp [ih h]

theorem sorted_put {m : Memory α} (a : Nat) (v : α) (h : Sorted m) : Sorted (put m a v) := by
  induction m with
  | nil => simp [put, Sorted]
  | cons e m ih =>
    obtain ⟨k, x⟩ := e
    have hs := h
    rw [sorted_cons] at h
    simp only [put]
    split
    · rename_i hak
      refine sorted_cons.2 ⟨fun e he => ?_, hs⟩
      rcases List.mem_cons.1 he with he | he
      · simpa [he] using hak
      · exact hak.trans (h.1 e he)
    · split
      · rename_i hk; subst hk; exact sorted_cons.2 h
      · refine sorted_cons.2 ⟨fun e he => ?_, ih h.2⟩
        rcases mem_put he with he | he
        · simp only [he]; omega
        · exact h.1 e he

theorem sorted_drop {m : Memory α} (a : Nat) (h : Sorted m) : Sorted (drop m a) := by
  induction m with
  | nil => exact h
  | cons e m ih =>
    obtain ⟨k, x⟩ := e
    rw [sorted_cons] at h
    simp only [drop]
    split
    · exact h.2
    · exact sorted_cons.2 ⟨fun e he => h.1 e (mem_drop he), ih h.2⟩

section Canonical

variable [DecidableEq α]

theorem wf_iff {d : Option α} {m : Memory α} : wf d m = true ↔ Sorted m ∧ ∀ e ∈ m, d ≠ some e.2 := by
  simp [wf, Sorted, List.all_eq_true]

theorem wf_nil (d : Option α) : wf d ([] : Memory α) = true := by simp [wf]

/-- Every write keeps the canonical form. -/
theorem wf_write {d : Option α} {m : Memory α} (a : Nat) (v : α) (h : wf d m = true) : wf d (write d m a v) = true := by
  rw [wf_iff] at h ⊢
  unfold write
  split
  · exact ⟨sorted_drop a h.1, fun e he => h.2 e (mem_drop he)⟩
  · rename_i hv
    refine ⟨sorted_put a v h.1, fun e he => ?_⟩
    rcases mem_put he with he | he
    · subst he; exact hv
    · exact h.2 e he

theorem wf_writeFrom {d : Option α} (vs : List α) : ∀ {m : Memory α} (i : Nat), wf d m = true → wf d (writeFrom d m i vs) = true := by
  induction vs with
  | nil => intro m i h; exact h
  | cons v vs ih => intro m i h; exact ih (i + 1) (wf_write i v h)

/-- A read after a write to the same element gives the value written. -/
theorem read_write_same {d : Option α} {m : Memory α} (a : Nat) (v : α) (h : wf d m = true) :
    read d (write d m a v) a = some v := by
  by_cases hd : d = some v
  · rw [write, if_pos hd, read, find_drop_same m a (wf_iff.1 h).1]; exact hd
  · rw [write, if_neg hd, read, find_put_same]

/-- A write leaves every other element alone. -/
theorem read_write_other {d : Option α} {m : Memory α} (a b : Nat) (v : α) (h : b ≠ a) :
    read d (write d m a v) b = read d m b := by
  by_cases hd : d = some v
  · rw [write, if_pos hd, read, find_drop_other m a b h]; rfl
  · rw [write, if_neg hd, read, find_put_other m a b v h]; rfl

/-- A run of writes from index `i` gives its values to i..i + length − 1 and leaves every other element alone. -/
theorem read_writeFrom {d : Option α} (vs : List α) : ∀ {m : Memory α} (i b : Nat), wf d m = true →
    read d (writeFrom d m i vs) b = if i ≤ b ∧ b < i + vs.length then vs[b - i]? else read d m b := by
  induction vs with
  | nil => intro m i b _; simp only [writeFrom, List.length_nil, Nat.add_zero]; rw [if_neg (by omega)]
  | cons v vs ih =>
    intro m i b h
    rw [writeFrom, ih (i + 1) b (wf_write i v h)]
    by_cases hb : b = i
    · subst hb
      rw [if_neg (by omega), read_write_same b v h, if_pos (by simp)]
      simp
    · rw [read_write_other i b v hb]
      by_cases hi : i + 1 ≤ b ∧ b < i + 1 + vs.length
      · rw [if_pos hi, if_pos (by simp only [List.length_cons]; omega)]
        obtain ⟨k, rfl⟩ : ∃ k, b = i + 1 + k := ⟨b - (i + 1), by omega⟩
        rw [show i + 1 + k - (i + 1) = k by omega, show i + 1 + k - i = k + 1 by omega, List.getElem?_cons_succ]
      · rw [if_neg hi, if_neg (by simp only [List.length_cons]; omega)]

/-- Every index stays below a bound that the written index meets. -/
theorem mem_write {d : Option α} {m : Memory α} {a : Nat} {v : α} {e : Nat × α} (h : e ∈ write d m a v) :
    e = (a, v) ∨ e ∈ m := by
  unfold write at h
  split at h
  · exact .inr (mem_drop h)
  · exact mem_put h

end Canonical

/-- A block read gives a list of the right length whose entries are the elements read. -/
theorem readFirst_eq_some {d : Option α} {m : Memory α} : ∀ {n : Nat} {xs : List α}, readFirst d m n = some xs →
    xs.length = n ∧ ∀ i, i < n → read d m i = xs[i]? := by
  intro n
  induction n with
  | zero => intro xs h; cases h; exact ⟨rfl, fun i hi => absurd hi (Nat.not_lt_zero i)⟩
  | succ n ih =>
    intro xs h
    simp only [readFirst] at h
    split at h
    · rename_i ys v hys hv
      cases h
      obtain ⟨hl, hr⟩ := ih hys
      refine ⟨by simp [hl], fun i hi => ?_⟩
      rcases Nat.lt_succ_iff_lt_or_eq.1 hi with h | rfl
      · rw [hr i h, List.getElem?_append_left (by omega)]
      · rw [hv, ← hl, List.getElem?_concat_length]
    · cases h

/-- A block read succeeds when every element has a value. -/
theorem readFirst_isSome {d : Option α} {m : Memory α} : ∀ {n : Nat}, (∀ i, i < n → read d m i ≠ none) →
    ∃ xs, readFirst d m n = some xs := by
  intro n
  induction n with
  | zero => exact fun _ => ⟨[], rfl⟩
  | succ n ih =>
    intro h
    obtain ⟨ys, hys⟩ := ih fun i hi => h i (by omega)
    obtain ⟨v, hv⟩ := Option.ne_none_iff_exists'.1 (h n (by omega))
    exact ⟨ys ++ [v], by simp only [readFirst, hys, hv]⟩

/-- Equal memories are equal data: two canonical memories that read alike are the same list. -/
theorem eq_of_read_eq [DecidableEq α] {d : Option α} : ∀ {m n : Memory α}, wf d m = true → wf d n = true →
    (∀ a, read d m a = read d n a) → m = n := by
  intro m
  induction m with
  | nil =>
    intro n _ hn h
    cases n with
    | nil => rfl
    | cons e n =>
      obtain ⟨k, x⟩ := e
      have h0 := h k
      simp only [read, find, if_true] at h0
      exact absurd h0 ((wf_iff.1 hn).2 (k, x) (by simp))
  | cons e m ih =>
    obtain ⟨k, x⟩ := e
    intro n hm hn h
    have hm' := wf_iff.1 hm
    have hms := sorted_cons.1 hm'.1
    cases n with
    | nil =>
      have h0 := h k
      simp only [read, find, if_true] at h0
      exact absurd h0.symm (hm'.2 (k, x) (by simp))
    | cons f n =>
      obtain ⟨l, y⟩ := f
      have hn' := wf_iff.1 hn
      have hns := sorted_cons.1 hn'.1
      have hkl : k = l := by
        rcases Nat.lt_trichotomy k l with hlt | heq | hgt
        · have h0 := h k
          rw [read, find, if_pos rfl, read, find_eq_none_of_lt ((l, y) :: n) k (by
            intro e he
            rcases List.mem_cons.1 he with he | he
            · simpa [he] using hlt
            · exact hlt.trans (hns.1 e he))] at h0
          exact absurd h0.symm (hm'.2 (k, x) (by simp))
        · exact heq
        · have h0 := h l
          rw [read, find_eq_none_of_lt ((k, x) :: m) l (by
            intro e he
            rcases List.mem_cons.1 he with he | he
            · simpa [he] using hgt
            · exact hgt.trans (hms.1 e he)), read, find, if_pos rfl] at h0
          exact absurd h0 (hn'.2 (l, y) (by simp))
      subst hkl
      have hxy : x = y := by
        have h0 := h k
        simpa [read, find] using h0
      subst hxy
      refine congrArg _ (ih (wf_iff.2 ⟨hms.2, fun e he => hm'.2 e (by simp [he])⟩)
        (wf_iff.2 ⟨hns.2, fun e he => hn'.2 e (by simp [he])⟩) fun a => ?_)
      by_cases ha : k = a
      · subst ha
        rw [read, find_eq_none_of_lt m k hms.1, read, find_eq_none_of_lt n k hns.1]
      · have h0 := h a
        simpa [read, find, ha] using h0

/-- What a cleared space reads as. -/
theorem readZ_eq (m : Memory Word) (a : Nat) : read zeroed m a = some (readZ m a) := by
  unfold read readZ zeroed
  cases find m a <;> rfl

theorem readZ_writeZ_same {m : Memory Word} (a : Nat) (v : Word) (h : wf zeroed m = true) :
    (m.writeZ a v).readZ a = v :=
  Option.some.inj ((readZ_eq _ a).symm.trans (read_write_same a v h))

theorem readZ_writeZ_other {m : Memory Word} (a b : Nat) (v : Word) (h : b ≠ a) :
    (m.writeZ a v).readZ b = m.readZ b :=
  Option.some.inj ((readZ_eq _ b).symm.trans ((read_write_other a b v h).trans (readZ_eq m b)))

end Sys2Proof.Machine.Memory
end

