-- ==== Sys2Proof/Laws/State.lean ====
section
/-! SUPPORT. One lemma per field per named update of State, true by rfl, so that no proof unfolds a record update. -/

namespace Sys2Proof.Machine

/-! ### respond -/

@[simp] theorem respond_tail (st : Status) (d1 d0 : Word) (s : State) : (respond st d1 d0 s).tail = s.tail := rfl
@[simp] theorem respond_head (st : Status) (d1 d0 : Word) (s : State) : (respond st d1 d0 s).head = s.head := rfl
@[simp] theorem respond_capacity (st : Status) (d1 d0 : Word) (s : State) : (respond st d1 d0 s).capacity = s.capacity := rfl
@[simp] theorem respond_tailv (st : Status) (d1 d0 : Word) (s : State) : (respond st d1 d0 s).tailv = s.tailv := rfl
@[simp] theorem respond_headv (st : Status) (d1 d0 : Word) (s : State) : (respond st d1 d0 s).headv = s.headv := rfl
@[simp] theorem respond_pPhase (st : Status) (d1 d0 : Word) (s : State) : (respond st d1 d0 s).pPhase = s.pPhase := rfl
@[simp] theorem respond_pRem (st : Status) (d1 d0 : Word) (s : State) : (respond st d1 d0 s).pRem = s.pRem := rfl
@[simp] theorem respond_cPhase (st : Status) (d1 d0 : Word) (s : State) : (respond st d1 d0 s).cPhase = s.cPhase := rfl
@[simp] theorem respond_cDst (st : Status) (d1 d0 : Word) (s : State) : (respond st d1 d0 s).cDst = s.cDst := rfl
@[simp] theorem respond_cRem (st : Status) (d1 d0 : Word) (s : State) : (respond st d1 d0 s).cRem = s.cRem := rfl
@[simp] theorem respond_cOff (st : Status) (d1 d0 : Word) (s : State) : (respond st d1 d0 s).cOff = s.cOff := rfl
@[simp] theorem respond_cRel (st : Status) (d1 d0 : Word) (s : State) : (respond st d1 d0 s).cRel = s.cRel := rfl
@[simp] theorem respond_avgPtr (st : Status) (d1 d0 : Word) (s : State) : (respond st d1 d0 s).avgPtr = s.avgPtr := rfl
@[simp] theorem respond_rngMin (st : Status) (d1 d0 : Word) (s : State) : (respond st d1 d0 s).rngMin = s.rngMin := rfl
@[simp] theorem respond_rngMax (st : Status) (d1 d0 : Word) (s : State) : (respond st d1 d0 s).rngMax = s.rngMax := rfl
@[simp] theorem respond_sticky (st : Status) (d1 d0 : Word) (s : State) : (respond st d1 d0 s).sticky = s.sticky := rfl
@[simp] theorem respond_axisValid (st : Status) (d1 d0 : Word) (s : State) : (respond st d1 d0 s).axisValid = s.axisValid := rfl
@[simp] theorem respond_dataValid (st : Status) (d1 d0 : Word) (s : State) : (respond st d1 d0 s).dataValid = s.dataValid := rfl
@[simp] theorem respond_res (st : Status) (d1 d0 : Word) (s : State) : (respond st d1 d0 s).res = s.res := rfl
@[simp] theorem respond_fmin (st : Status) (d1 d0 : Word) (s : State) : (respond st d1 d0 s).fmin = s.fmin := rfl
@[simp] theorem respond_fmax (st : Status) (d1 d0 : Word) (s : State) : (respond st d1 d0 s).fmax = s.fmax := rfl
@[simp] theorem respond_dist (st : Status) (d1 d0 : Word) (s : State) : (respond st d1 d0 s).dist = s.dist := rfl
@[simp] theorem respond_srate (st : Status) (d1 d0 : Word) (s : State) : (respond st d1 d0 s).srate = s.srate := rfl
@[simp] theorem respond_interp (st : Status) (d1 d0 : Word) (s : State) : (respond st d1 d0 s).interp = s.interp := rfl
@[simp] theorem respond_aRes (st : Status) (d1 d0 : Word) (s : State) : (respond st d1 d0 s).aRes = s.aRes := rfl
@[simp] theorem respond_aFmin (st : Status) (d1 d0 : Word) (s : State) : (respond st d1 d0 s).aFmin = s.aFmin := rfl
@[simp] theorem respond_aFmax (st : Status) (d1 d0 : Word) (s : State) : (respond st d1 d0 s).aFmax = s.aFmax := rfl
@[simp] theorem respond_aDist (st : Status) (d1 d0 : Word) (s : State) : (respond st d1 d0 s).aDist = s.aDist := rfl
@[simp] theorem respond_aSrate (st : Status) (d1 d0 : Word) (s : State) : (respond st d1 d0 s).aSrate = s.aSrate := rfl
@[simp] theorem respond_ring (st : Status) (d1 d0 : Word) (s : State) : (respond st d1 d0 s).ring = s.ring := rfl
@[simp] theorem respond_inBuf (st : Status) (d1 d0 : Word) (s : State) : (respond st d1 d0 s).inBuf = s.inBuf := rfl
@[simp] theorem respond_re (st : Status) (d1 d0 : Word) (s : State) : (respond st d1 d0 s).re = s.re := rfl
@[simp] theorem respond_im (st : Status) (d1 d0 : Word) (s : State) : (respond st d1 d0 s).im = s.im := rfl
@[simp] theorem respond_mag (st : Status) (d1 d0 : Word) (s : State) : (respond st d1 d0 s).mag = s.mag := rfl
@[simp] theorem respond_avg (st : Status) (d1 d0 : Word) (s : State) : (respond st d1 d0 s).avg = s.avg := rfl
@[simp] theorem respond_axis (st : Status) (d1 d0 : Word) (s : State) : (respond st d1 d0 s).axis = s.axis := rfl
@[simp] theorem respond_out (st : Status) (d1 d0 : Word) (s : State) : (respond st d1 d0 s).out = s.out := rfl
@[simp] theorem respond_pRsp (st : Status) (d1 d0 : Word) (s : State) : (respond st d1 d0 s).pRsp = (if s.port = .P then s.pRsp ++ [respWord st d1 d0] else s.pRsp) := rfl
@[simp] theorem respond_cRsp (st : Status) (d1 d0 : Word) (s : State) : (respond st d1 d0 s).cRsp = (if s.port = .C then s.cRsp ++ [respWord st d1 d0] else s.cRsp) := rfl
@[simp] theorem respond_cfg (st : Status) (d1 d0 : Word) (s : State) : (respond st d1 d0 s).cfg = s.cfg := rfl
@[simp] theorem respond_turns (st : Status) (d1 d0 : Word) (s : State) : (respond st d1 d0 s).turns = s.turns := rfl
@[simp] theorem respond_port (st : Status) (d1 d0 : Word) (s : State) : (respond st d1 d0 s).port = s.port := rfl
@[simp] theorem respond_pCmd (st : Status) (d1 d0 : Word) (s : State) : (respond st d1 d0 s).pCmd = s.pCmd := rfl
@[simp] theorem respond_cCmd (st : Status) (d1 d0 : Word) (s : State) : (respond st d1 d0 s).cCmd = s.cCmd := rfl
@[simp] theorem respond_pDat (st : Status) (d1 d0 : Word) (s : State) : (respond st d1 d0 s).pDat = s.pDat := rfl
@[simp] theorem respond_cDatReady (st : Status) (d1 d0 : Word) (s : State) : (respond st d1 d0 s).cDatReady = s.cDatReady := rfl
@[simp] theorem respond_cDat (st : Status) (d1 d0 : Word) (s : State) : (respond st d1 d0 s).cDat = s.cDat := rfl
@[simp] theorem respond_quiet (st : Status) (d1 d0 : Word) (s : State) : (respond st d1 d0 s).quiet = s.quiet := rfl
@[simp] theorem respond_draws (st : Status) (d1 d0 : Word) (s : State) : (respond st d1 d0 s).draws = s.draws := rfl

/-! ### clearPointers -/

@[simp] theorem clearPointers_tail (s : State) : (clearPointers s).tail = 0 := rfl
@[simp] theorem clearPointers_head (s : State) : (clearPointers s).head = 0 := rfl
@[simp] theorem clearPointers_capacity (s : State) : (clearPointers s).capacity = s.capacity := rfl
@[simp] theorem clearPointers_tailv (s : State) : (clearPointers s).tailv = (List.replicate s.cfg.syncStages (codeOf s 0)) := rfl
@[simp] theorem clearPointers_headv (s : State) : (clearPointers s).headv = (List.replicate s.cfg.syncStages (codeOf s 0)) := rfl
@[simp] theorem clearPointers_pPhase (s : State) : (clearPointers s).pPhase = s.pPhase := rfl
@[simp] theorem clearPointers_pRem (s : State) : (clearPointers s).pRem = s.pRem := rfl
@[simp] theorem clearPointers_cPhase (s : State) : (clearPointers s).cPhase = s.cPhase := rfl
@[simp] theorem clearPointers_cDst (s : State) : (clearPointers s).cDst = s.cDst := rfl
@[simp] theorem clearPointers_cRem (s : State) : (clearPointers s).cRem = s.cRem := rfl
@[simp] theorem clearPointers_cOff (s : State) : (clearPointers s).cOff = s.cOff := rfl
@[simp] theorem clearPointers_cRel (s : State) : (clearPointers s).cRel = s.cRel := rfl
@[simp] theorem clearPointers_avgPtr (s : State) : (clearPointers s).avgPtr = s.avgPtr := rfl
@[simp] theorem clearPointers_rngMin (s : State) : (clearPointers s).rngMin = s.rngMin := rfl
@[simp] theorem clearPointers_rngMax (s : State) : (clearPointers s).rngMax = s.rngMax := rfl
@[simp] theorem clearPointers_sticky (s : State) : (clearPointers s).sticky = s.sticky := rfl
@[simp] theorem clearPointers_axisValid (s : State) : (clearPointers s).axisValid = s.axisValid := rfl
@[simp] theorem clearPointers_dataValid (s : State) : (clearPointers s).dataValid = s.dataValid := rfl
@[simp] theorem clearPointers_res (s : State) : (clearPointers s).res = s.res := rfl
@[simp] theorem clearPointers_fmin (s : State) : (clearPointers s).fmin = s.fmin := rfl
@[simp] theorem clearPointers_fmax (s : State) : (clearPointers s).fmax = s.fmax := rfl
@[simp] theorem clearPointers_dist (s : State) : (clearPointers s).dist = s.dist := rfl
@[simp] theorem clearPointers_srate (s : State) : (clearPointers s).srate = s.srate := rfl
@[simp] theorem clearPointers_interp (s : State) : (clearPointers s).interp = s.interp := rfl
@[simp] theorem clearPointers_aRes (s : State) : (clearPointers s).aRes = s.aRes := rfl
@[simp] theorem clearPointers_aFmin (s : State) : (clearPointers s).aFmin = s.aFmin := rfl
@[simp] theorem clearPointers_aFmax (s : State) : (clearPointers s).aFmax = s.aFmax := rfl
@[simp] theorem clearPointers_aDist (s : State) : (clearPointers s).aDist = s.aDist := rfl
@[simp] theorem clearPointers_aSrate (s : State) : (clearPointers s).aSrate = s.aSrate := rfl
@[simp] theorem clearPointers_ring (s : State) : (clearPointers s).ring = s.ring := rfl
@[simp] theorem clearPointers_inBuf (s : State) : (clearPointers s).inBuf = s.inBuf := rfl
@[simp] theorem clearPointers_re (s : State) : (clearPointers s).re = s.re := rfl
@[simp] theorem clearPointers_im (s : State) : (clearPointers s).im = s.im := rfl
@[simp] theorem clearPointers_mag (s : State) : (clearPointers s).mag = s.mag := rfl
@[simp] theorem clearPointers_avg (s : State) : (clearPointers s).avg = s.avg := rfl
@[simp] theorem clearPointers_axis (s : State) : (clearPointers s).axis = s.axis := rfl
@[simp] theorem clearPointers_out (s : State) : (clearPointers s).out = s.out := rfl
@[simp] theorem clearPointers_pRsp (s : State) : (clearPointers s).pRsp = s.pRsp := rfl
@[simp] theorem clearPointers_cRsp (s : State) : (clearPointers s).cRsp = s.cRsp := rfl
@[simp] theorem clearPointers_cfg (s : State) : (clearPointers s).cfg = s.cfg := rfl
@[simp] theorem clearPointers_turns (s : State) : (clearPointers s).turns = s.turns := rfl
@[simp] theorem clearPointers_port (s : State) : (clearPointers s).port = s.port := rfl
@[simp] theorem clearPointers_pCmd (s : State) : (clearPointers s).pCmd = s.pCmd := rfl
@[simp] theorem clearPointers_cCmd (s : State) : (clearPointers s).cCmd = s.cCmd := rfl
@[simp] theorem clearPointers_pDat (s : State) : (clearPointers s).pDat = s.pDat := rfl
@[simp] theorem clearPointers_cDatReady (s : State) : (clearPointers s).cDatReady = s.cDatReady := rfl
@[simp] theorem clearPointers_cDat (s : State) : (clearPointers s).cDat = s.cDat := rfl
@[simp] theorem clearPointers_quiet (s : State) : (clearPointers s).quiet = s.quiet := rfl
@[simp] theorem clearPointers_draws (s : State) : (clearPointers s).draws = s.draws := rfl

/-! ### syncTail -/

@[simp] theorem syncTail_tail (s : State) : (syncTail s).tail = s.tail := rfl
@[simp] theorem syncTail_head (s : State) : (syncTail s).head = s.head := rfl
@[simp] theorem syncTail_capacity (s : State) : (syncTail s).capacity = s.capacity := rfl
@[simp] theorem syncTail_tailv (s : State) : (syncTail s).tailv = ((codeOf s s.tail :: s.tailv).take s.cfg.syncStages) := rfl
@[simp] theorem syncTail_headv (s : State) : (syncTail s).headv = s.headv := rfl
@[simp] theorem syncTail_pPhase (s : State) : (syncTail s).pPhase = s.pPhase := rfl
@[simp] theorem syncTail_pRem (s : State) : (syncTail s).pRem = s.pRem := rfl
@[simp] theorem syncTail_cPhase (s : State) : (syncTail s).cPhase = s.cPhase := rfl
@[simp] theorem syncTail_cDst (s : State) : (syncTail s).cDst = s.cDst := rfl
@[simp] theorem syncTail_cRem (s : State) : (syncTail s).cRem = s.cRem := rfl
@[simp] theorem syncTail_cOff (s : State) : (syncTail s).cOff = s.cOff := rfl
@[simp] theorem syncTail_cRel (s : State) : (syncTail s).cRel = s.cRel := rfl
@[simp] theorem syncTail_avgPtr (s : State) : (syncTail s).avgPtr = s.avgPtr := rfl
@[simp] theorem syncTail_rngMin (s : State) : (syncTail s).rngMin = s.rngMin := rfl
@[simp] theorem syncTail_rngMax (s : State) : (syncTail s).rngMax = s.rngMax := rfl
@[simp] theorem syncTail_sticky (s : State) : (syncTail s).sticky = s.sticky := rfl
@[simp] theorem syncTail_axisValid (s : State) : (syncTail s).axisValid = s.axisValid := rfl
@[simp] theorem syncTail_dataValid (s : State) : (syncTail s).dataValid = s.dataValid := rfl
@[simp] theorem syncTail_res (s : State) : (syncTail s).res = s.res := rfl
@[simp] theorem syncTail_fmin (s : State) : (syncTail s).fmin = s.fmin := rfl
@[simp] theorem syncTail_fmax (s : State) : (syncTail s).fmax = s.fmax := rfl
@[simp] theorem syncTail_dist (s : State) : (syncTail s).dist = s.dist := rfl
@[simp] theorem syncTail_srate (s : State) : (syncTail s).srate = s.srate := rfl
@[simp] theorem syncTail_interp (s : State) : (syncTail s).interp = s.interp := rfl
@[simp] theorem syncTail_aRes (s : State) : (syncTail s).aRes = s.aRes := rfl
@[simp] theorem syncTail_aFmin (s : State) : (syncTail s).aFmin = s.aFmin := rfl
@[simp] theorem syncTail_aFmax (s : State) : (syncTail s).aFmax = s.aFmax := rfl
@[simp] theorem syncTail_aDist (s : State) : (syncTail s).aDist = s.aDist := rfl
@[simp] theorem syncTail_aSrate (s : State) : (syncTail s).aSrate = s.aSrate := rfl
@[simp] theorem syncTail_ring (s : State) : (syncTail s).ring = s.ring := rfl
@[simp] theorem syncTail_inBuf (s : State) : (syncTail s).inBuf = s.inBuf := rfl
@[simp] theorem syncTail_re (s : State) : (syncTail s).re = s.re := rfl
@[simp] theorem syncTail_im (s : State) : (syncTail s).im = s.im := rfl
@[simp] theorem syncTail_mag (s : State) : (syncTail s).mag = s.mag := rfl
@[simp] theorem syncTail_avg (s : State) : (syncTail s).avg = s.avg := rfl
@[simp] theorem syncTail_axis (s : State) : (syncTail s).axis = s.axis := rfl
@[simp] theorem syncTail_out (s : State) : (syncTail s).out = s.out := rfl
@[simp] theorem syncTail_pRsp (s : State) : (syncTail s).pRsp = s.pRsp := rfl
@[simp] theorem syncTail_cRsp (s : State) : (syncTail s).cRsp = s.cRsp := rfl
@[simp] theorem syncTail_cfg (s : State) : (syncTail s).cfg = s.cfg := rfl
@[simp] theorem syncTail_turns (s : State) : (syncTail s).turns = s.turns := rfl
@[simp] theorem syncTail_port (s : State) : (syncTail s).port = s.port := rfl
@[simp] theorem syncTail_pCmd (s : State) : (syncTail s).pCmd = s.pCmd := rfl
@[simp] theorem syncTail_cCmd (s : State) : (syncTail s).cCmd = s.cCmd := rfl
@[simp] theorem syncTail_pDat (s : State) : (syncTail s).pDat = s.pDat := rfl
@[simp] theorem syncTail_cDatReady (s : State) : (syncTail s).cDatReady = s.cDatReady := rfl
@[simp] theorem syncTail_cDat (s : State) : (syncTail s).cDat = s.cDat := rfl
@[simp] theorem syncTail_quiet (s : State) : (syncTail s).quiet = s.quiet := rfl
@[simp] theorem syncTail_draws (s : State) : (syncTail s).draws = s.draws := rfl

/-! ### syncHead -/

@[simp] theorem syncHead_tail (s : State) : (syncHead s).tail = s.tail := rfl
@[simp] theorem syncHead_head (s : State) : (syncHead s).head = s.head := rfl
@[simp] theorem syncHead_capacity (s : State) : (syncHead s).capacity = s.capacity := rfl
@[simp] theorem syncHead_tailv (s : State) : (syncHead s).tailv = s.tailv := rfl
@[simp] theorem syncHead_headv (s : State) : (syncHead s).headv = ((codeOf s s.head :: s.headv).take s.cfg.syncStages) := rfl
@[simp] theorem syncHead_pPhase (s : State) : (syncHead s).pPhase = s.pPhase := rfl
@[simp] theorem syncHead_pRem (s : State) : (syncHead s).pRem = s.pRem := rfl
@[simp] theorem syncHead_cPhase (s : State) : (syncHead s).cPhase = s.cPhase := rfl
@[simp] theorem syncHead_cDst (s : State) : (syncHead s).cDst = s.cDst := rfl
@[simp] theorem syncHead_cRem (s : State) : (syncHead s).cRem = s.cRem := rfl
@[simp] theorem syncHead_cOff (s : State) : (syncHead s).cOff = s.cOff := rfl
@[simp] theorem syncHead_cRel (s : State) : (syncHead s).cRel = s.cRel := rfl
@[simp] theorem syncHead_avgPtr (s : State) : (syncHead s).avgPtr = s.avgPtr := rfl
@[simp] theorem syncHead_rngMin (s : State) : (syncHead s).rngMin = s.rngMin := rfl
@[simp] theorem syncHead_rngMax (s : State) : (syncHead s).rngMax = s.rngMax := rfl
@[simp] theorem syncHead_sticky (s : State) : (syncHead s).sticky = s.sticky := rfl
@[simp] theorem syncHead_axisValid (s : State) : (syncHead s).axisValid = s.axisValid := rfl
@[simp] theorem syncHead_dataValid (s : State) : (syncHead s).dataValid = s.dataValid := rfl
@[simp] theorem syncHead_res (s : State) : (syncHead s).res = s.res := rfl
@[simp] theorem syncHead_fmin (s : State) : (syncHead s).fmin = s.fmin := rfl
@[simp] theorem syncHead_fmax (s : State) : (syncHead s).fmax = s.fmax := rfl
@[simp] theorem syncHead_dist (s : State) : (syncHead s).dist = s.dist := rfl
@[simp] theorem syncHead_srate (s : State) : (syncHead s).srate = s.srate := rfl
@[simp] theorem syncHead_interp (s : State) : (syncHead s).interp = s.interp := rfl
@[simp] theorem syncHead_aRes (s : State) : (syncHead s).aRes = s.aRes := rfl
@[simp] theorem syncHead_aFmin (s : State) : (syncHead s).aFmin = s.aFmin := rfl
@[simp] theorem syncHead_aFmax (s : State) : (syncHead s).aFmax = s.aFmax := rfl
@[simp] theorem syncHead_aDist (s : State) : (syncHead s).aDist = s.aDist := rfl
@[simp] theorem syncHead_aSrate (s : State) : (syncHead s).aSrate = s.aSrate := rfl
@[simp] theorem syncHead_ring (s : State) : (syncHead s).ring = s.ring := rfl
@[simp] theorem syncHead_inBuf (s : State) : (syncHead s).inBuf = s.inBuf := rfl
@[simp] theorem syncHead_re (s : State) : (syncHead s).re = s.re := rfl
@[simp] theorem syncHead_im (s : State) : (syncHead s).im = s.im := rfl
@[simp] theorem syncHead_mag (s : State) : (syncHead s).mag = s.mag := rfl
@[simp] theorem syncHead_avg (s : State) : (syncHead s).avg = s.avg := rfl
@[simp] theorem syncHead_axis (s : State) : (syncHead s).axis = s.axis := rfl
@[simp] theorem syncHead_out (s : State) : (syncHead s).out = s.out := rfl
@[simp] theorem syncHead_pRsp (s : State) : (syncHead s).pRsp = s.pRsp := rfl
@[simp] theorem syncHead_cRsp (s : State) : (syncHead s).cRsp = s.cRsp := rfl
@[simp] theorem syncHead_cfg (s : State) : (syncHead s).cfg = s.cfg := rfl
@[simp] theorem syncHead_turns (s : State) : (syncHead s).turns = s.turns := rfl
@[simp] theorem syncHead_port (s : State) : (syncHead s).port = s.port := rfl
@[simp] theorem syncHead_pCmd (s : State) : (syncHead s).pCmd = s.pCmd := rfl
@[simp] theorem syncHead_cCmd (s : State) : (syncHead s).cCmd = s.cCmd := rfl
@[simp] theorem syncHead_pDat (s : State) : (syncHead s).pDat = s.pDat := rfl
@[simp] theorem syncHead_cDatReady (s : State) : (syncHead s).cDatReady = s.cDatReady := rfl
@[simp] theorem syncHead_cDat (s : State) : (syncHead s).cDat = s.cDat := rfl
@[simp] theorem syncHead_quiet (s : State) : (syncHead s).quiet = s.quiet := rfl
@[simp] theorem syncHead_draws (s : State) : (syncHead s).draws = s.draws := rfl

/-! ### startTransfer -/

@[simp] theorem startTransfer_tail (dst : CDst) (n c : Nat) (s : State) : (startTransfer dst n c s).tail = s.tail := rfl
@[simp] theorem startTransfer_head (dst : CDst) (n c : Nat) (s : State) : (startTransfer dst n c s).head = s.head := rfl
@[simp] theorem startTransfer_capacity (dst : CDst) (n c : Nat) (s : State) : (startTransfer dst n c s).capacity = s.capacity := rfl
@[simp] theorem startTransfer_tailv (dst : CDst) (n c : Nat) (s : State) : (startTransfer dst n c s).tailv = s.tailv := rfl
@[simp] theorem startTransfer_headv (dst : CDst) (n c : Nat) (s : State) : (startTransfer dst n c s).headv = s.headv := rfl
@[simp] theorem startTransfer_pPhase (dst : CDst) (n c : Nat) (s : State) : (startTransfer dst n c s).pPhase = s.pPhase := rfl
@[simp] theorem startTransfer_pRem (dst : CDst) (n c : Nat) (s : State) : (startTransfer dst n c s).pRem = s.pRem := rfl
@[simp] theorem startTransfer_cPhase (dst : CDst) (n c : Nat) (s : State) : (startTransfer dst n c s).cPhase = .beats := rfl
@[simp] theorem startTransfer_cDst (dst : CDst) (n c : Nat) (s : State) : (startTransfer dst n c s).cDst = dst := rfl
@[simp] theorem startTransfer_cRem (dst : CDst) (n c : Nat) (s : State) : (startTransfer dst n c s).cRem = n := rfl
@[simp] theorem startTransfer_cOff (dst : CDst) (n c : Nat) (s : State) : (startTransfer dst n c s).cOff = 0 := rfl
@[simp] theorem startTransfer_cRel (dst : CDst) (n c : Nat) (s : State) : (startTransfer dst n c s).cRel = c := rfl
@[simp] theorem startTransfer_avgPtr (dst : CDst) (n c : Nat) (s : State) : (startTransfer dst n c s).avgPtr = s.avgPtr := rfl
@[simp] theorem startTransfer_rngMin (dst : CDst) (n c : Nat) (s : State) : (startTransfer dst n c s).rngMin = s.rngMin := rfl
@[simp] theorem startTransfer_rngMax (dst : CDst) (n c : Nat) (s : State) : (startTransfer dst n c s).rngMax = s.rngMax := rfl
@[simp] theorem startTransfer_sticky (dst : CDst) (n c : Nat) (s : State) : (startTransfer dst n c s).sticky = s.sticky := rfl
@[simp] theorem startTransfer_axisValid (dst : CDst) (n c : Nat) (s : State) : (startTransfer dst n c s).axisValid = s.axisValid := rfl
@[simp] theorem startTransfer_dataValid (dst : CDst) (n c : Nat) (s : State) : (startTransfer dst n c s).dataValid = s.dataValid := rfl
@[simp] theorem startTransfer_res (dst : CDst) (n c : Nat) (s : State) : (startTransfer dst n c s).res = s.res := rfl
@[simp] theorem startTransfer_fmin (dst : CDst) (n c : Nat) (s : State) : (startTransfer dst n c s).fmin = s.fmin := rfl
@[simp] theorem startTransfer_fmax (dst : CDst) (n c : Nat) (s : State) : (startTransfer dst n c s).fmax = s.fmax := rfl
@[simp] theorem startTransfer_dist (dst : CDst) (n c : Nat) (s : State) : (startTransfer dst n c s).dist = s.dist := rfl
@[simp] theorem startTransfer_srate (dst : CDst) (n c : Nat) (s : State) : (startTransfer dst n c s).srate = s.srate := rfl
@[simp] theorem startTransfer_interp (dst : CDst) (n c : Nat) (s : State) : (startTransfer dst n c s).interp = s.interp := rfl
@[simp] theorem startTransfer_aRes (dst : CDst) (n c : Nat) (s : State) : (startTransfer dst n c s).aRes = s.aRes := rfl
@[simp] theorem startTransfer_aFmin (dst : CDst) (n c : Nat) (s : State) : (startTransfer dst n c s).aFmin = s.aFmin := rfl
@[simp] theorem startTransfer_aFmax (dst : CDst) (n c : Nat) (s : State) : (startTransfer dst n c s).aFmax = s.aFmax := rfl
@[simp] theorem startTransfer_aDist (dst : CDst) (n c : Nat) (s : State) : (startTransfer dst n c s).aDist = s.aDist := rfl
@[simp] theorem startTransfer_aSrate (dst : CDst) (n c : Nat) (s : State) : (startTransfer dst n c s).aSrate = s.aSrate := rfl
@[simp] theorem startTransfer_ring (dst : CDst) (n c : Nat) (s : State) : (startTransfer dst n c s).ring = s.ring := rfl
@[simp] theorem startTransfer_inBuf (dst : CDst) (n c : Nat) (s : State) : (startTransfer dst n c s).inBuf = s.inBuf := rfl
@[simp] theorem startTransfer_re (dst : CDst) (n c : Nat) (s : State) : (startTransfer dst n c s).re = s.re := rfl
@[simp] theorem startTransfer_im (dst : CDst) (n c : Nat) (s : State) : (startTransfer dst n c s).im = s.im := rfl
@[simp] theorem startTransfer_mag (dst : CDst) (n c : Nat) (s : State) : (startTransfer dst n c s).mag = s.mag := rfl
@[simp] theorem startTransfer_avg (dst : CDst) (n c : Nat) (s : State) : (startTransfer dst n c s).avg = s.avg := rfl
@[simp] theorem startTransfer_axis (dst : CDst) (n c : Nat) (s : State) : (startTransfer dst n c s).axis = s.axis := rfl
@[simp] theorem startTransfer_out (dst : CDst) (n c : Nat) (s : State) : (startTransfer dst n c s).out = s.out := rfl
@[simp] theorem startTransfer_pRsp (dst : CDst) (n c : Nat) (s : State) : (startTransfer dst n c s).pRsp = s.pRsp := rfl
@[simp] theorem startTransfer_cRsp (dst : CDst) (n c : Nat) (s : State) : (startTransfer dst n c s).cRsp = s.cRsp := rfl
@[simp] theorem startTransfer_cfg (dst : CDst) (n c : Nat) (s : State) : (startTransfer dst n c s).cfg = s.cfg := rfl
@[simp] theorem startTransfer_turns (dst : CDst) (n c : Nat) (s : State) : (startTransfer dst n c s).turns = s.turns := rfl
@[simp] theorem startTransfer_port (dst : CDst) (n c : Nat) (s : State) : (startTransfer dst n c s).port = s.port := rfl
@[simp] theorem startTransfer_pCmd (dst : CDst) (n c : Nat) (s : State) : (startTransfer dst n c s).pCmd = s.pCmd := rfl
@[simp] theorem startTransfer_cCmd (dst : CDst) (n c : Nat) (s : State) : (startTransfer dst n c s).cCmd = s.cCmd := rfl
@[simp] theorem startTransfer_pDat (dst : CDst) (n c : Nat) (s : State) : (startTransfer dst n c s).pDat = s.pDat := rfl
@[simp] theorem startTransfer_cDatReady (dst : CDst) (n c : Nat) (s : State) : (startTransfer dst n c s).cDatReady = s.cDatReady := rfl
@[simp] theorem startTransfer_cDat (dst : CDst) (n c : Nat) (s : State) : (startTransfer dst n c s).cDat = s.cDat := rfl
@[simp] theorem startTransfer_quiet (dst : CDst) (n c : Nat) (s : State) : (startTransfer dst n c s).quiet = s.quiet := rfl
@[simp] theorem startTransfer_draws (dst : CDst) (n c : Nat) (s : State) : (startTransfer dst n c s).draws = s.draws := rfl

/-! ### advanceBeat -/

@[simp] theorem advanceBeat_tail (s : State) : (advanceBeat s).tail = s.tail := rfl
@[simp] theorem advanceBeat_head (s : State) : (advanceBeat s).head = s.head := rfl
@[simp] theorem advanceBeat_capacity (s : State) : (advanceBeat s).capacity = s.capacity := rfl
@[simp] theorem advanceBeat_tailv (s : State) : (advanceBeat s).tailv = s.tailv := rfl
@[simp] theorem advanceBeat_headv (s : State) : (advanceBeat s).headv = s.headv := rfl
@[simp] theorem advanceBeat_pPhase (s : State) : (advanceBeat s).pPhase = s.pPhase := rfl
@[simp] theorem advanceBeat_pRem (s : State) : (advanceBeat s).pRem = s.pRem := rfl
@[simp] theorem advanceBeat_cPhase (s : State) : (advanceBeat s).cPhase = (if s.cRem - 1 = 0 then (if 0 < s.cRel then .release else afterTransfer s.cDst) else s.cPhase) := rfl
@[simp] theorem advanceBeat_cDst (s : State) : (advanceBeat s).cDst = s.cDst := rfl
@[simp] theorem advanceBeat_cRem (s : State) : (advanceBeat s).cRem = (s.cRem - 1) := rfl
@[simp] theorem advanceBeat_cOff (s : State) : (advanceBeat s).cOff = (s.cOff + 1) := rfl
@[simp] theorem advanceBeat_cRel (s : State) : (advanceBeat s).cRel = s.cRel := rfl
@[simp] theorem advanceBeat_avgPtr (s : State) : (advanceBeat s).avgPtr = s.avgPtr := rfl
@[simp] theorem advanceBeat_rngMin (s : State) : (advanceBeat s).rngMin = s.rngMin := rfl
@[simp] theorem advanceBeat_rngMax (s : State) : (advanceBeat s).rngMax = s.rngMax := rfl
@[simp] theorem advanceBeat_sticky (s : State) : (advanceBeat s).sticky = s.sticky := rfl
@[simp] theorem advanceBeat_axisValid (s : State) : (advanceBeat s).axisValid = s.axisValid := rfl
@[simp] theorem advanceBeat_dataValid (s : State) : (advanceBeat s).dataValid = s.dataValid := rfl
@[simp] theorem advanceBeat_res (s : State) : (advanceBeat s).res = s.res := rfl
@[simp] theorem advanceBeat_fmin (s : State) : (advanceBeat s).fmin = s.fmin := rfl
@[simp] theorem advanceBeat_fmax (s : State) : (advanceBeat s).fmax = s.fmax := rfl
@[simp] theorem advanceBeat_dist (s : State) : (advanceBeat s).dist = s.dist := rfl
@[simp] theorem advanceBeat_srate (s : State) : (advanceBeat s).srate = s.srate := rfl
@[simp] theorem advanceBeat_interp (s : State) : (advanceBeat s).interp = s.interp := rfl
@[simp] theorem advanceBeat_aRes (s : State) : (advanceBeat s).aRes = s.aRes := rfl
@[simp] theorem advanceBeat_aFmin (s : State) : (advanceBeat s).aFmin = s.aFmin := rfl
@[simp] theorem advanceBeat_aFmax (s : State) : (advanceBeat s).aFmax = s.aFmax := rfl
@[simp] theorem advanceBeat_aDist (s : State) : (advanceBeat s).aDist = s.aDist := rfl
@[simp] theorem advanceBeat_aSrate (s : State) : (advanceBeat s).aSrate = s.aSrate := rfl
@[simp] theorem advanceBeat_ring (s : State) : (advanceBeat s).ring = s.ring := rfl
@[simp] theorem advanceBeat_inBuf (s : State) : (advanceBeat s).inBuf = s.inBuf := rfl
@[simp] theorem advanceBeat_re (s : State) : (advanceBeat s).re = s.re := rfl
@[simp] theorem advanceBeat_im (s : State) : (advanceBeat s).im = s.im := rfl
@[simp] theorem advanceBeat_mag (s : State) : (advanceBeat s).mag = s.mag := rfl
@[simp] theorem advanceBeat_avg (s : State) : (advanceBeat s).avg = s.avg := rfl
@[simp] theorem advanceBeat_axis (s : State) : (advanceBeat s).axis = s.axis := rfl
@[simp] theorem advanceBeat_out (s : State) : (advanceBeat s).out = s.out := rfl
@[simp] theorem advanceBeat_pRsp (s : State) : (advanceBeat s).pRsp = s.pRsp := rfl
@[simp] theorem advanceBeat_cRsp (s : State) : (advanceBeat s).cRsp = s.cRsp := rfl
@[simp] theorem advanceBeat_cfg (s : State) : (advanceBeat s).cfg = s.cfg := rfl
@[simp] theorem advanceBeat_turns (s : State) : (advanceBeat s).turns = s.turns := rfl
@[simp] theorem advanceBeat_port (s : State) : (advanceBeat s).port = s.port := rfl
@[simp] theorem advanceBeat_pCmd (s : State) : (advanceBeat s).pCmd = s.pCmd := rfl
@[simp] theorem advanceBeat_cCmd (s : State) : (advanceBeat s).cCmd = s.cCmd := rfl
@[simp] theorem advanceBeat_pDat (s : State) : (advanceBeat s).pDat = s.pDat := rfl
@[simp] theorem advanceBeat_cDatReady (s : State) : (advanceBeat s).cDatReady = s.cDatReady := rfl
@[simp] theorem advanceBeat_cDat (s : State) : (advanceBeat s).cDat = s.cDat := rfl
@[simp] theorem advanceBeat_quiet (s : State) : (advanceBeat s).quiet = s.quiet := rfl
@[simp] theorem advanceBeat_draws (s : State) : (advanceBeat s).draws = s.draws := rfl

/-! ### releaseStep -/

@[simp] theorem releaseStep_tail (s : State) : (releaseStep s).tail = s.tail := rfl
@[simp] theorem releaseStep_head (s : State) : (releaseStep s).head = ((s.head + 1) % s.capacity) := rfl
@[simp] theorem releaseStep_capacity (s : State) : (releaseStep s).capacity = s.capacity := rfl
@[simp] theorem releaseStep_tailv (s : State) : (releaseStep s).tailv = s.tailv := rfl
@[simp] theorem releaseStep_headv (s : State) : (releaseStep s).headv = s.headv := rfl
@[simp] theorem releaseStep_pPhase (s : State) : (releaseStep s).pPhase = s.pPhase := rfl
@[simp] theorem releaseStep_pRem (s : State) : (releaseStep s).pRem = s.pRem := rfl
@[simp] theorem releaseStep_cPhase (s : State) : (releaseStep s).cPhase = (if s.cRel - 1 = 0 then afterTransfer s.cDst else s.cPhase) := rfl
@[simp] theorem releaseStep_cDst (s : State) : (releaseStep s).cDst = s.cDst := rfl
@[simp] theorem releaseStep_cRem (s : State) : (releaseStep s).cRem = s.cRem := rfl
@[simp] theorem releaseStep_cOff (s : State) : (releaseStep s).cOff = s.cOff := rfl
@[simp] theorem releaseStep_cRel (s : State) : (releaseStep s).cRel = (s.cRel - 1) := rfl
@[simp] theorem releaseStep_avgPtr (s : State) : (releaseStep s).avgPtr = s.avgPtr := rfl
@[simp] theorem releaseStep_rngMin (s : State) : (releaseStep s).rngMin = s.rngMin := rfl
@[simp] theorem releaseStep_rngMax (s : State) : (releaseStep s).rngMax = s.rngMax := rfl
@[simp] theorem releaseStep_sticky (s : State) : (releaseStep s).sticky = s.sticky := rfl
@[simp] theorem releaseStep_axisValid (s : State) : (releaseStep s).axisValid = s.axisValid := rfl
@[simp] theorem releaseStep_dataValid (s : State) : (releaseStep s).dataValid = s.dataValid := rfl
@[simp] theorem releaseStep_res (s : State) : (releaseStep s).res = s.res := rfl
@[simp] theorem releaseStep_fmin (s : State) : (releaseStep s).fmin = s.fmin := rfl
@[simp] theorem releaseStep_fmax (s : State) : (releaseStep s).fmax = s.fmax := rfl
@[simp] theorem releaseStep_dist (s : State) : (releaseStep s).dist = s.dist := rfl
@[simp] theorem releaseStep_srate (s : State) : (releaseStep s).srate = s.srate := rfl
@[simp] theorem releaseStep_interp (s : State) : (releaseStep s).interp = s.interp := rfl
@[simp] theorem releaseStep_aRes (s : State) : (releaseStep s).aRes = s.aRes := rfl
@[simp] theorem releaseStep_aFmin (s : State) : (releaseStep s).aFmin = s.aFmin := rfl
@[simp] theorem releaseStep_aFmax (s : State) : (releaseStep s).aFmax = s.aFmax := rfl
@[simp] theorem releaseStep_aDist (s : State) : (releaseStep s).aDist = s.aDist := rfl
@[simp] theorem releaseStep_aSrate (s : State) : (releaseStep s).aSrate = s.aSrate := rfl
@[simp] theorem releaseStep_ring (s : State) : (releaseStep s).ring = s.ring := rfl
@[simp] theorem releaseStep_inBuf (s : State) : (releaseStep s).inBuf = s.inBuf := rfl
@[simp] theorem releaseStep_re (s : State) : (releaseStep s).re = s.re := rfl
@[simp] theorem releaseStep_im (s : State) : (releaseStep s).im = s.im := rfl
@[simp] theorem releaseStep_mag (s : State) : (releaseStep s).mag = s.mag := rfl
@[simp] theorem releaseStep_avg (s : State) : (releaseStep s).avg = s.avg := rfl
@[simp] theorem releaseStep_axis (s : State) : (releaseStep s).axis = s.axis := rfl
@[simp] theorem releaseStep_out (s : State) : (releaseStep s).out = s.out := rfl
@[simp] theorem releaseStep_pRsp (s : State) : (releaseStep s).pRsp = s.pRsp := rfl
@[simp] theorem releaseStep_cRsp (s : State) : (releaseStep s).cRsp = s.cRsp := rfl
@[simp] theorem releaseStep_cfg (s : State) : (releaseStep s).cfg = s.cfg := rfl
@[simp] theorem releaseStep_turns (s : State) : (releaseStep s).turns = s.turns := rfl
@[simp] theorem releaseStep_port (s : State) : (releaseStep s).port = s.port := rfl
@[simp] theorem releaseStep_pCmd (s : State) : (releaseStep s).pCmd = s.pCmd := rfl
@[simp] theorem releaseStep_cCmd (s : State) : (releaseStep s).cCmd = s.cCmd := rfl
@[simp] theorem releaseStep_pDat (s : State) : (releaseStep s).pDat = s.pDat := rfl
@[simp] theorem releaseStep_cDatReady (s : State) : (releaseStep s).cDatReady = s.cDatReady := rfl
@[simp] theorem releaseStep_cDat (s : State) : (releaseStep s).cDat = s.cDat := rfl
@[simp] theorem releaseStep_quiet (s : State) : (releaseStep s).quiet = s.quiet := rfl
@[simp] theorem releaseStep_draws (s : State) : (releaseStep s).draws = s.draws := rfl

/-! ### flagAxisBuilt -/

@[simp] theorem flagAxisBuilt_tail (s : State) : (flagAxisBuilt s).tail = s.tail := rfl
@[simp] theorem flagAxisBuilt_head (s : State) : (flagAxisBuilt s).head = s.head := rfl
@[simp] theorem flagAxisBuilt_capacity (s : State) : (flagAxisBuilt s).capacity = s.capacity := rfl
@[simp] theorem flagAxisBuilt_tailv (s : State) : (flagAxisBuilt s).tailv = s.tailv := rfl
@[simp] theorem flagAxisBuilt_headv (s : State) : (flagAxisBuilt s).headv = s.headv := rfl
@[simp] theorem flagAxisBuilt_pPhase (s : State) : (flagAxisBuilt s).pPhase = s.pPhase := rfl
@[simp] theorem flagAxisBuilt_pRem (s : State) : (flagAxisBuilt s).pRem = s.pRem := rfl
@[simp] theorem flagAxisBuilt_cPhase (s : State) : (flagAxisBuilt s).cPhase = s.cPhase := rfl
@[simp] theorem flagAxisBuilt_cDst (s : State) : (flagAxisBuilt s).cDst = s.cDst := rfl
@[simp] theorem flagAxisBuilt_cRem (s : State) : (flagAxisBuilt s).cRem = s.cRem := rfl
@[simp] theorem flagAxisBuilt_cOff (s : State) : (flagAxisBuilt s).cOff = s.cOff := rfl
@[simp] theorem flagAxisBuilt_cRel (s : State) : (flagAxisBuilt s).cRel = s.cRel := rfl
@[simp] theorem flagAxisBuilt_avgPtr (s : State) : (flagAxisBuilt s).avgPtr = s.avgPtr := rfl
@[simp] theorem flagAxisBuilt_rngMin (s : State) : (flagAxisBuilt s).rngMin = s.rngMin := rfl
@[simp] theorem flagAxisBuilt_rngMax (s : State) : (flagAxisBuilt s).rngMax = s.rngMax := rfl
@[simp] theorem flagAxisBuilt_sticky (s : State) : (flagAxisBuilt s).sticky = s.sticky := rfl
@[simp] theorem flagAxisBuilt_axisValid (s : State) : (flagAxisBuilt s).axisValid = true := rfl
@[simp] theorem flagAxisBuilt_dataValid (s : State) : (flagAxisBuilt s).dataValid = false := rfl
@[simp] theorem flagAxisBuilt_res (s : State) : (flagAxisBuilt s).res = s.res := rfl
@[simp] theorem flagAxisBuilt_fmin (s : State) : (flagAxisBuilt s).fmin = s.fmin := rfl
@[simp] theorem flagAxisBuilt_fmax (s : State) : (flagAxisBuilt s).fmax = s.fmax := rfl
@[simp] theorem flagAxisBuilt_dist (s : State) : (flagAxisBuilt s).dist = s.dist := rfl
@[simp] theorem flagAxisBuilt_srate (s : State) : (flagAxisBuilt s).srate = s.srate := rfl
@[simp] theorem flagAxisBuilt_interp (s : State) : (flagAxisBuilt s).interp = s.interp := rfl
@[simp] theorem flagAxisBuilt_aRes (s : State) : (flagAxisBuilt s).aRes = s.aRes := rfl
@[simp] theorem flagAxisBuilt_aFmin (s : State) : (flagAxisBuilt s).aFmin = s.aFmin := rfl
@[simp] theorem flagAxisBuilt_aFmax (s : State) : (flagAxisBuilt s).aFmax = s.aFmax := rfl
@[simp] theorem flagAxisBuilt_aDist (s : State) : (flagAxisBuilt s).aDist = s.aDist := rfl
@[simp] theorem flagAxisBuilt_aSrate (s : State) : (flagAxisBuilt s).aSrate = s.aSrate := rfl
@[simp] theorem flagAxisBuilt_ring (s : State) : (flagAxisBuilt s).ring = s.ring := rfl
@[simp] theorem flagAxisBuilt_inBuf (s : State) : (flagAxisBuilt s).inBuf = s.inBuf := rfl
@[simp] theorem flagAxisBuilt_re (s : State) : (flagAxisBuilt s).re = s.re := rfl
@[simp] theorem flagAxisBuilt_im (s : State) : (flagAxisBuilt s).im = s.im := rfl
@[simp] theorem flagAxisBuilt_mag (s : State) : (flagAxisBuilt s).mag = s.mag := rfl
@[simp] theorem flagAxisBuilt_avg (s : State) : (flagAxisBuilt s).avg = s.avg := rfl
@[simp] theorem flagAxisBuilt_axis (s : State) : (flagAxisBuilt s).axis = s.axis := rfl
@[simp] theorem flagAxisBuilt_out (s : State) : (flagAxisBuilt s).out = s.out := rfl
@[simp] theorem flagAxisBuilt_pRsp (s : State) : (flagAxisBuilt s).pRsp = s.pRsp := rfl
@[simp] theorem flagAxisBuilt_cRsp (s : State) : (flagAxisBuilt s).cRsp = s.cRsp := rfl
@[simp] theorem flagAxisBuilt_cfg (s : State) : (flagAxisBuilt s).cfg = s.cfg := rfl
@[simp] theorem flagAxisBuilt_turns (s : State) : (flagAxisBuilt s).turns = s.turns := rfl
@[simp] theorem flagAxisBuilt_port (s : State) : (flagAxisBuilt s).port = s.port := rfl
@[simp] theorem flagAxisBuilt_pCmd (s : State) : (flagAxisBuilt s).pCmd = s.pCmd := rfl
@[simp] theorem flagAxisBuilt_cCmd (s : State) : (flagAxisBuilt s).cCmd = s.cCmd := rfl
@[simp] theorem flagAxisBuilt_pDat (s : State) : (flagAxisBuilt s).pDat = s.pDat := rfl
@[simp] theorem flagAxisBuilt_cDatReady (s : State) : (flagAxisBuilt s).cDatReady = s.cDatReady := rfl
@[simp] theorem flagAxisBuilt_cDat (s : State) : (flagAxisBuilt s).cDat = s.cDat := rfl
@[simp] theorem flagAxisBuilt_quiet (s : State) : (flagAxisBuilt s).quiet = s.quiet := rfl
@[simp] theorem flagAxisBuilt_draws (s : State) : (flagAxisBuilt s).draws = s.draws := rfl

/-! ### flagDataValid -/

@[simp] theorem flagDataValid_tail (s : State) : (flagDataValid s).tail = s.tail := rfl
@[simp] theorem flagDataValid_head (s : State) : (flagDataValid s).head = s.head := rfl
@[simp] theorem flagDataValid_capacity (s : State) : (flagDataValid s).capacity = s.capacity := rfl
@[simp] theorem flagDataValid_tailv (s : State) : (flagDataValid s).tailv = s.tailv := rfl
@[simp] theorem flagDataValid_headv (s : State) : (flagDataValid s).headv = s.headv := rfl
@[simp] theorem flagDataValid_pPhase (s : State) : (flagDataValid s).pPhase = s.pPhase := rfl
@[simp] theorem flagDataValid_pRem (s : State) : (flagDataValid s).pRem = s.pRem := rfl
@[simp] theorem flagDataValid_cPhase (s : State) : (flagDataValid s).cPhase = s.cPhase := rfl
@[simp] theorem flagDataValid_cDst (s : State) : (flagDataValid s).cDst = s.cDst := rfl
@[simp] theorem flagDataValid_cRem (s : State) : (flagDataValid s).cRem = s.cRem := rfl
@[simp] theorem flagDataValid_cOff (s : State) : (flagDataValid s).cOff = s.cOff := rfl
@[simp] theorem flagDataValid_cRel (s : State) : (flagDataValid s).cRel = s.cRel := rfl
@[simp] theorem flagDataValid_avgPtr (s : State) : (flagDataValid s).avgPtr = s.avgPtr := rfl
@[simp] theorem flagDataValid_rngMin (s : State) : (flagDataValid s).rngMin = s.rngMin := rfl
@[simp] theorem flagDataValid_rngMax (s : State) : (flagDataValid s).rngMax = s.rngMax := rfl
@[simp] theorem flagDataValid_sticky (s : State) : (flagDataValid s).sticky = s.sticky := rfl
@[simp] theorem flagDataValid_axisValid (s : State) : (flagDataValid s).axisValid = s.axisValid := rfl
@[simp] theorem flagDataValid_dataValid (s : State) : (flagDataValid s).dataValid = true := rfl
@[simp] theorem flagDataValid_res (s : State) : (flagDataValid s).res = s.res := rfl
@[simp] theorem flagDataValid_fmin (s : State) : (flagDataValid s).fmin = s.fmin := rfl
@[simp] theorem flagDataValid_fmax (s : State) : (flagDataValid s).fmax = s.fmax := rfl
@[simp] theorem flagDataValid_dist (s : State) : (flagDataValid s).dist = s.dist := rfl
@[simp] theorem flagDataValid_srate (s : State) : (flagDataValid s).srate = s.srate := rfl
@[simp] theorem flagDataValid_interp (s : State) : (flagDataValid s).interp = s.interp := rfl
@[simp] theorem flagDataValid_aRes (s : State) : (flagDataValid s).aRes = s.aRes := rfl
@[simp] theorem flagDataValid_aFmin (s : State) : (flagDataValid s).aFmin = s.aFmin := rfl
@[simp] theorem flagDataValid_aFmax (s : State) : (flagDataValid s).aFmax = s.aFmax := rfl
@[simp] theorem flagDataValid_aDist (s : State) : (flagDataValid s).aDist = s.aDist := rfl
@[simp] theorem flagDataValid_aSrate (s : State) : (flagDataValid s).aSrate = s.aSrate := rfl
@[simp] theorem flagDataValid_ring (s : State) : (flagDataValid s).ring = s.ring := rfl
@[simp] theorem flagDataValid_inBuf (s : State) : (flagDataValid s).inBuf = s.inBuf := rfl
@[simp] theorem flagDataValid_re (s : State) : (flagDataValid s).re = s.re := rfl
@[simp] theorem flagDataValid_im (s : State) : (flagDataValid s).im = s.im := rfl
@[simp] theorem flagDataValid_mag (s : State) : (flagDataValid s).mag = s.mag := rfl
@[simp] theorem flagDataValid_avg (s : State) : (flagDataValid s).avg = s.avg := rfl
@[simp] theorem flagDataValid_axis (s : State) : (flagDataValid s).axis = s.axis := rfl
@[simp] theorem flagDataValid_out (s : State) : (flagDataValid s).out = s.out := rfl
@[simp] theorem flagDataValid_pRsp (s : State) : (flagDataValid s).pRsp = s.pRsp := rfl
@[simp] theorem flagDataValid_cRsp (s : State) : (flagDataValid s).cRsp = s.cRsp := rfl
@[simp] theorem flagDataValid_cfg (s : State) : (flagDataValid s).cfg = s.cfg := rfl
@[simp] theorem flagDataValid_turns (s : State) : (flagDataValid s).turns = s.turns := rfl
@[simp] theorem flagDataValid_port (s : State) : (flagDataValid s).port = s.port := rfl
@[simp] theorem flagDataValid_pCmd (s : State) : (flagDataValid s).pCmd = s.pCmd := rfl
@[simp] theorem flagDataValid_cCmd (s : State) : (flagDataValid s).cCmd = s.cCmd := rfl
@[simp] theorem flagDataValid_pDat (s : State) : (flagDataValid s).pDat = s.pDat := rfl
@[simp] theorem flagDataValid_cDatReady (s : State) : (flagDataValid s).cDatReady = s.cDatReady := rfl
@[simp] theorem flagDataValid_cDat (s : State) : (flagDataValid s).cDat = s.cDat := rfl
@[simp] theorem flagDataValid_quiet (s : State) : (flagDataValid s).quiet = s.quiet := rfl
@[simp] theorem flagDataValid_draws (s : State) : (flagDataValid s).draws = s.draws := rfl

/-! ### buildAxis -/

@[simp] theorem buildAxis_tail (s : State) : (buildAxis s).tail = s.tail := rfl
@[simp] theorem buildAxis_head (s : State) : (buildAxis s).head = s.head := rfl
@[simp] theorem buildAxis_capacity (s : State) : (buildAxis s).capacity = s.capacity := rfl
@[simp] theorem buildAxis_tailv (s : State) : (buildAxis s).tailv = s.tailv := rfl
@[simp] theorem buildAxis_headv (s : State) : (buildAxis s).headv = s.headv := rfl
@[simp] theorem buildAxis_pPhase (s : State) : (buildAxis s).pPhase = s.pPhase := rfl
@[simp] theorem buildAxis_pRem (s : State) : (buildAxis s).pRem = s.pRem := rfl
@[simp] theorem buildAxis_cPhase (s : State) : (buildAxis s).cPhase = s.cPhase := rfl
@[simp] theorem buildAxis_cDst (s : State) : (buildAxis s).cDst = s.cDst := rfl
@[simp] theorem buildAxis_cRem (s : State) : (buildAxis s).cRem = s.cRem := rfl
@[simp] theorem buildAxis_cOff (s : State) : (buildAxis s).cOff = s.cOff := rfl
@[simp] theorem buildAxis_cRel (s : State) : (buildAxis s).cRel = s.cRel := rfl
@[simp] theorem buildAxis_avgPtr (s : State) : (buildAxis s).avgPtr = s.avgPtr := rfl
@[simp] theorem buildAxis_rngMin (s : State) : (buildAxis s).rngMin = s.rngMin := rfl
@[simp] theorem buildAxis_rngMax (s : State) : (buildAxis s).rngMax = s.rngMax := rfl
@[simp] theorem buildAxis_sticky (s : State) : (buildAxis s).sticky = s.sticky := rfl
@[simp] theorem buildAxis_axisValid (s : State) : (buildAxis s).axisValid = true := rfl
@[simp] theorem buildAxis_dataValid (s : State) : (buildAxis s).dataValid = false := rfl
@[simp] theorem buildAxis_res (s : State) : (buildAxis s).res = s.res := rfl
@[simp] theorem buildAxis_fmin (s : State) : (buildAxis s).fmin = s.fmin := rfl
@[simp] theorem buildAxis_fmax (s : State) : (buildAxis s).fmax = s.fmax := rfl
@[simp] theorem buildAxis_dist (s : State) : (buildAxis s).dist = s.dist := rfl
@[simp] theorem buildAxis_srate (s : State) : (buildAxis s).srate = s.srate := rfl
@[simp] theorem buildAxis_interp (s : State) : (buildAxis s).interp = s.interp := rfl
@[simp] theorem buildAxis_aRes (s : State) : (buildAxis s).aRes = s.res := rfl
@[simp] theorem buildAxis_aFmin (s : State) : (buildAxis s).aFmin = s.fmin := rfl
@[simp] theorem buildAxis_aFmax (s : State) : (buildAxis s).aFmax = s.fmax := rfl
@[simp] theorem buildAxis_aDist (s : State) : (buildAxis s).aDist = s.dist := rfl
@[simp] theorem buildAxis_aSrate (s : State) : (buildAxis s).aSrate = s.srate := rfl
@[simp] theorem buildAxis_ring (s : State) : (buildAxis s).ring = s.ring := rfl
@[simp] theorem buildAxis_inBuf (s : State) : (buildAxis s).inBuf = s.inBuf := rfl
@[simp] theorem buildAxis_re (s : State) : (buildAxis s).re = s.re := rfl
@[simp] theorem buildAxis_im (s : State) : (buildAxis s).im = s.im := rfl
@[simp] theorem buildAxis_mag (s : State) : (buildAxis s).mag = s.mag := rfl
@[simp] theorem buildAxis_avg (s : State) : (buildAxis s).avg = s.avg := rfl
@[simp] theorem buildAxis_axis (s : State) : (buildAxis s).axis = (Memory.writeFrom none s.axis 0 (axisEntries (Config.freeNaN s.draws) s.res.toNat s.fmin s.fmax s.dist)) := rfl
@[simp] theorem buildAxis_out (s : State) : (buildAxis s).out = [] := rfl
@[simp] theorem buildAxis_pRsp (s : State) : (buildAxis s).pRsp = s.pRsp := rfl
@[simp] theorem buildAxis_cRsp (s : State) : (buildAxis s).cRsp = s.cRsp := rfl
@[simp] theorem buildAxis_cfg (s : State) : (buildAxis s).cfg = s.cfg := rfl
@[simp] theorem buildAxis_turns (s : State) : (buildAxis s).turns = s.turns := rfl
@[simp] theorem buildAxis_port (s : State) : (buildAxis s).port = s.port := rfl
@[simp] theorem buildAxis_pCmd (s : State) : (buildAxis s).pCmd = s.pCmd := rfl
@[simp] theorem buildAxis_cCmd (s : State) : (buildAxis s).cCmd = s.cCmd := rfl
@[simp] theorem buildAxis_pDat (s : State) : (buildAxis s).pDat = s.pDat := rfl
@[simp] theorem buildAxis_cDatReady (s : State) : (buildAxis s).cDatReady = s.cDatReady := rfl
@[simp] theorem buildAxis_cDat (s : State) : (buildAxis s).cDat = s.cDat := rfl
@[simp] theorem buildAxis_quiet (s : State) : (buildAxis s).quiet = s.quiet := rfl
@[simp] theorem buildAxis_draws (s : State) : (buildAxis s).draws = (s.draws + 1) := rfl

/-! ### applyTick -/

@[simp] theorem applyTick_tail (t : Tick) (s : State) : (applyTick t s).tail = s.tail := rfl
@[simp] theorem applyTick_head (t : Tick) (s : State) : (applyTick t s).head = s.head := rfl
@[simp] theorem applyTick_capacity (t : Tick) (s : State) : (applyTick t s).capacity = s.capacity := rfl
@[simp] theorem applyTick_tailv (t : Tick) (s : State) : (applyTick t s).tailv = s.tailv := rfl
@[simp] theorem applyTick_headv (t : Tick) (s : State) : (applyTick t s).headv = s.headv := rfl
@[simp] theorem applyTick_pPhase (t : Tick) (s : State) : (applyTick t s).pPhase = s.pPhase := rfl
@[simp] theorem applyTick_pRem (t : Tick) (s : State) : (applyTick t s).pRem = s.pRem := rfl
@[simp] theorem applyTick_cPhase (t : Tick) (s : State) : (applyTick t s).cPhase = .idle := rfl
@[simp] theorem applyTick_cDst (t : Tick) (s : State) : (applyTick t s).cDst = .port := rfl
@[simp] theorem applyTick_cRem (t : Tick) (s : State) : (applyTick t s).cRem = s.cRem := rfl
@[simp] theorem applyTick_cOff (t : Tick) (s : State) : (applyTick t s).cOff = s.cOff := rfl
@[simp] theorem applyTick_cRel (t : Tick) (s : State) : (applyTick t s).cRel = s.cRel := rfl
@[simp] theorem applyTick_avgPtr (t : Tick) (s : State) : (applyTick t s).avgPtr = (nextAvgPtr s.cfg.k s.avgPtr) := rfl
@[simp] theorem applyTick_rngMin (t : Tick) (s : State) : (applyTick t s).rngMin = t.range.1 := rfl
@[simp] theorem applyTick_rngMax (t : Tick) (s : State) : (applyTick t s).rngMax = t.range.2 := rfl
@[simp] theorem applyTick_sticky (t : Tick) (s : State) : (applyTick t s).sticky = t.pass.sticky := rfl
@[simp] theorem applyTick_axisValid (t : Tick) (s : State) : (applyTick t s).axisValid = s.axisValid := rfl
@[simp] theorem applyTick_dataValid (t : Tick) (s : State) : (applyTick t s).dataValid = true := rfl
@[simp] theorem applyTick_res (t : Tick) (s : State) : (applyTick t s).res = s.res := rfl
@[simp] theorem applyTick_fmin (t : Tick) (s : State) : (applyTick t s).fmin = s.fmin := rfl
@[simp] theorem applyTick_fmax (t : Tick) (s : State) : (applyTick t s).fmax = s.fmax := rfl
@[simp] theorem applyTick_dist (t : Tick) (s : State) : (applyTick t s).dist = s.dist := rfl
@[simp] theorem applyTick_srate (t : Tick) (s : State) : (applyTick t s).srate = s.srate := rfl
@[simp] theorem applyTick_interp (t : Tick) (s : State) : (applyTick t s).interp = s.interp := rfl
@[simp] theorem applyTick_aRes (t : Tick) (s : State) : (applyTick t s).aRes = s.aRes := rfl
@[simp] theorem applyTick_aFmin (t : Tick) (s : State) : (applyTick t s).aFmin = s.aFmin := rfl
@[simp] theorem applyTick_aFmax (t : Tick) (s : State) : (applyTick t s).aFmax = s.aFmax := rfl
@[simp] theorem applyTick_aDist (t : Tick) (s : State) : (applyTick t s).aDist = s.aDist := rfl
@[simp] theorem applyTick_aSrate (t : Tick) (s : State) : (applyTick t s).aSrate = s.aSrate := rfl
@[simp] theorem applyTick_ring (t : Tick) (s : State) : (applyTick t s).ring = s.ring := rfl
@[simp] theorem applyTick_inBuf (t : Tick) (s : State) : (applyTick t s).inBuf = (Memory.writeFrom none s.inBuf 0 t.input) := rfl
@[simp] theorem applyTick_re (t : Tick) (s : State) : (applyTick t s).re = (Memory.writeFrom none s.re 0 t.work.re) := rfl
@[simp] theorem applyTick_im (t : Tick) (s : State) : (applyTick t s).im = (Memory.writeFrom none s.im 0 t.work.im) := rfl
@[simp] theorem applyTick_mag (t : Tick) (s : State) : (applyTick t s).mag = (Memory.writeFrom none s.mag 0 t.mag) := rfl
@[simp] theorem applyTick_avg (t : Tick) (s : State) : (applyTick t s).avg = t.avg := rfl
@[simp] theorem applyTick_axis (t : Tick) (s : State) : (applyTick t s).axis = s.axis := rfl
@[simp] theorem applyTick_out (t : Tick) (s : State) : (applyTick t s).out = (Memory.writeFrom zeroed s.out 0 t.pass.out) := rfl
@[simp] theorem applyTick_pRsp (t : Tick) (s : State) : (applyTick t s).pRsp = s.pRsp := rfl
@[simp] theorem applyTick_cRsp (t : Tick) (s : State) : (applyTick t s).cRsp = s.cRsp := rfl
@[simp] theorem applyTick_cfg (t : Tick) (s : State) : (applyTick t s).cfg = s.cfg := rfl
@[simp] theorem applyTick_turns (t : Tick) (s : State) : (applyTick t s).turns = s.turns := rfl
@[simp] theorem applyTick_port (t : Tick) (s : State) : (applyTick t s).port = s.port := rfl
@[simp] theorem applyTick_pCmd (t : Tick) (s : State) : (applyTick t s).pCmd = s.pCmd := rfl
@[simp] theorem applyTick_cCmd (t : Tick) (s : State) : (applyTick t s).cCmd = s.cCmd := rfl
@[simp] theorem applyTick_pDat (t : Tick) (s : State) : (applyTick t s).pDat = s.pDat := rfl
@[simp] theorem applyTick_cDatReady (t : Tick) (s : State) : (applyTick t s).cDatReady = s.cDatReady := rfl
@[simp] theorem applyTick_cDat (t : Tick) (s : State) : (applyTick t s).cDat = s.cDat := rfl
@[simp] theorem applyTick_quiet (t : Tick) (s : State) : (applyTick t s).quiet = s.quiet := rfl
@[simp] theorem applyTick_draws (t : Tick) (s : State) : (applyTick t s).draws = (s.draws + 1) := rfl

/-! ### deliver: the beat goes to `c_dat` or into IN -/

@[simp] theorem deliver_tail (item : Item) (s : State) : (deliver item s).tail = s.tail := by unfold deliver; cases s.cDst <;> rfl
@[simp] theorem deliver_head (item : Item) (s : State) : (deliver item s).head = s.head := by unfold deliver; cases s.cDst <;> rfl
@[simp] theorem deliver_capacity (item : Item) (s : State) : (deliver item s).capacity = s.capacity := by unfold deliver; cases s.cDst <;> rfl
@[simp] theorem deliver_tailv (item : Item) (s : State) : (deliver item s).tailv = s.tailv := by unfold deliver; cases s.cDst <;> rfl
@[simp] theorem deliver_headv (item : Item) (s : State) : (deliver item s).headv = s.headv := by unfold deliver; cases s.cDst <;> rfl
@[simp] theorem deliver_pPhase (item : Item) (s : State) : (deliver item s).pPhase = s.pPhase := by unfold deliver; cases s.cDst <;> rfl
@[simp] theorem deliver_pRem (item : Item) (s : State) : (deliver item s).pRem = s.pRem := by unfold deliver; cases s.cDst <;> rfl
@[simp] theorem deliver_cPhase (item : Item) (s : State) : (deliver item s).cPhase = s.cPhase := by unfold deliver; cases s.cDst <;> rfl
@[simp] theorem deliver_cDst (item : Item) (s : State) : (deliver item s).cDst = s.cDst := by unfold deliver; cases s.cDst <;> rfl
@[simp] theorem deliver_cRem (item : Item) (s : State) : (deliver item s).cRem = s.cRem := by unfold deliver; cases s.cDst <;> rfl
@[simp] theorem deliver_cOff (item : Item) (s : State) : (deliver item s).cOff = s.cOff := by unfold deliver; cases s.cDst <;> rfl
@[simp] theorem deliver_cRel (item : Item) (s : State) : (deliver item s).cRel = s.cRel := by unfold deliver; cases s.cDst <;> rfl
@[simp] theorem deliver_avgPtr (item : Item) (s : State) : (deliver item s).avgPtr = s.avgPtr := by unfold deliver; cases s.cDst <;> rfl
@[simp] theorem deliver_rngMin (item : Item) (s : State) : (deliver item s).rngMin = s.rngMin := by unfold deliver; cases s.cDst <;> rfl
@[simp] theorem deliver_rngMax (item : Item) (s : State) : (deliver item s).rngMax = s.rngMax := by unfold deliver; cases s.cDst <;> rfl
@[simp] theorem deliver_sticky (item : Item) (s : State) : (deliver item s).sticky = s.sticky := by unfold deliver; cases s.cDst <;> rfl
@[simp] theorem deliver_axisValid (item : Item) (s : State) : (deliver item s).axisValid = s.axisValid := by unfold deliver; cases s.cDst <;> rfl
@[simp] theorem deliver_dataValid (item : Item) (s : State) : (deliver item s).dataValid = s.dataValid := by unfold deliver; cases s.cDst <;> rfl
@[simp] theorem deliver_res (item : Item) (s : State) : (deliver item s).res = s.res := by unfold deliver; cases s.cDst <;> rfl
@[simp] theorem deliver_fmin (item : Item) (s : State) : (deliver item s).fmin = s.fmin := by unfold deliver; cases s.cDst <;> rfl
@[simp] theorem deliver_fmax (item : Item) (s : State) : (deliver item s).fmax = s.fmax := by unfold deliver; cases s.cDst <;> rfl
@[simp] theorem deliver_dist (item : Item) (s : State) : (deliver item s).dist = s.dist := by unfold deliver; cases s.cDst <;> rfl
@[simp] theorem deliver_srate (item : Item) (s : State) : (deliver item s).srate = s.srate := by unfold deliver; cases s.cDst <;> rfl
@[simp] theorem deliver_interp (item : Item) (s : State) : (deliver item s).interp = s.interp := by unfold deliver; cases s.cDst <;> rfl
@[simp] theorem deliver_aRes (item : Item) (s : State) : (deliver item s).aRes = s.aRes := by unfold deliver; cases s.cDst <;> rfl
@[simp] theorem deliver_aFmin (item : Item) (s : State) : (deliver item s).aFmin = s.aFmin := by unfold deliver; cases s.cDst <;> rfl
@[simp] theorem deliver_aFmax (item : Item) (s : State) : (deliver item s).aFmax = s.aFmax := by unfold deliver; cases s.cDst <;> rfl
@[simp] theorem deliver_aDist (item : Item) (s : State) : (deliver item s).aDist = s.aDist := by unfold deliver; cases s.cDst <;> rfl
@[simp] theorem deliver_aSrate (item : Item) (s : State) : (deliver item s).aSrate = s.aSrate := by unfold deliver; cases s.cDst <;> rfl
@[simp] theorem deliver_ring (item : Item) (s : State) : (deliver item s).ring = s.ring := by unfold deliver; cases s.cDst <;> rfl
@[simp] theorem deliver_re (item : Item) (s : State) : (deliver item s).re = s.re := by unfold deliver; cases s.cDst <;> rfl
@[simp] theorem deliver_im (item : Item) (s : State) : (deliver item s).im = s.im := by unfold deliver; cases s.cDst <;> rfl
@[simp] theorem deliver_mag (item : Item) (s : State) : (deliver item s).mag = s.mag := by unfold deliver; cases s.cDst <;> rfl
@[simp] theorem deliver_avg (item : Item) (s : State) : (deliver item s).avg = s.avg := by unfold deliver; cases s.cDst <;> rfl
@[simp] theorem deliver_axis (item : Item) (s : State) : (deliver item s).axis = s.axis := by unfold deliver; cases s.cDst <;> rfl
@[simp] theorem deliver_out (item : Item) (s : State) : (deliver item s).out = s.out := by unfold deliver; cases s.cDst <;> rfl
@[simp] theorem deliver_pRsp (item : Item) (s : State) : (deliver item s).pRsp = s.pRsp := by unfold deliver; cases s.cDst <;> rfl
@[simp] theorem deliver_cRsp (item : Item) (s : State) : (deliver item s).cRsp = s.cRsp := by unfold deliver; cases s.cDst <;> rfl
@[simp] theorem deliver_cfg (item : Item) (s : State) : (deliver item s).cfg = s.cfg := by unfold deliver; cases s.cDst <;> rfl
@[simp] theorem deliver_turns (item : Item) (s : State) : (deliver item s).turns = s.turns := by unfold deliver; cases s.cDst <;> rfl
@[simp] theorem deliver_port (item : Item) (s : State) : (deliver item s).port = s.port := by unfold deliver; cases s.cDst <;> rfl
@[simp] theorem deliver_pCmd (item : Item) (s : State) : (deliver item s).pCmd = s.pCmd := by unfold deliver; cases s.cDst <;> rfl
@[simp] theorem deliver_cCmd (item : Item) (s : State) : (deliver item s).cCmd = s.cCmd := by unfold deliver; cases s.cDst <;> rfl
@[simp] theorem deliver_pDat (item : Item) (s : State) : (deliver item s).pDat = s.pDat := by unfold deliver; cases s.cDst <;> rfl
@[simp] theorem deliver_cDatReady (item : Item) (s : State) : (deliver item s).cDatReady = s.cDatReady := by unfold deliver; cases s.cDst <;> rfl
@[simp] theorem deliver_quiet (item : Item) (s : State) : (deliver item s).quiet = s.quiet := by unfold deliver; cases s.cDst <;> rfl

/-! ### startWrite: only P_REM and P_PHASE -/

@[simp] theorem startWrite_tail (n : Nat) (s : State) : (startWrite n s).tail = s.tail := by unfold startWrite; split <;> rfl
@[simp] theorem startWrite_head (n : Nat) (s : State) : (startWrite n s).head = s.head := by unfold startWrite; split <;> rfl
@[simp] theorem startWrite_capacity (n : Nat) (s : State) : (startWrite n s).capacity = s.capacity := by unfold startWrite; split <;> rfl
@[simp] theorem startWrite_tailv (n : Nat) (s : State) : (startWrite n s).tailv = s.tailv := by unfold startWrite; split <;> rfl
@[simp] theorem startWrite_headv (n : Nat) (s : State) : (startWrite n s).headv = s.headv := by unfold startWrite; split <;> rfl
@[simp] theorem startWrite_cPhase (n : Nat) (s : State) : (startWrite n s).cPhase = s.cPhase := by unfold startWrite; split <;> rfl
@[simp] theorem startWrite_cDst (n : Nat) (s : State) : (startWrite n s).cDst = s.cDst := by unfold startWrite; split <;> rfl
@[simp] theorem startWrite_cRem (n : Nat) (s : State) : (startWrite n s).cRem = s.cRem := by unfold startWrite; split <;> rfl
@[simp] theorem startWrite_cOff (n : Nat) (s : State) : (startWrite n s).cOff = s.cOff := by unfold startWrite; split <;> rfl
@[simp] theorem startWrite_cRel (n : Nat) (s : State) : (startWrite n s).cRel = s.cRel := by unfold startWrite; split <;> rfl
@[simp] theorem startWrite_avgPtr (n : Nat) (s : State) : (startWrite n s).avgPtr = s.avgPtr := by unfold startWrite; split <;> rfl
@[simp] theorem startWrite_rngMin (n : Nat) (s : State) : (startWrite n s).rngMin = s.rngMin := by unfold startWrite; split <;> rfl
@[simp] theorem startWrite_rngMax (n : Nat) (s : State) : (startWrite n s).rngMax = s.rngMax := by unfold startWrite; split <;> rfl
@[simp] theorem startWrite_sticky (n : Nat) (s : State) : (startWrite n s).sticky = s.sticky := by unfold startWrite; split <;> rfl
@[simp] theorem startWrite_axisValid (n : Nat) (s : State) : (startWrite n s).axisValid = s.axisValid := by unfold startWrite; split <;> rfl
@[simp] theorem startWrite_dataValid (n : Nat) (s : State) : (startWrite n s).dataValid = s.dataValid := by unfold startWrite; split <;> rfl
@[simp] theorem startWrite_res (n : Nat) (s : State) : (startWrite n s).res = s.res := by unfold startWrite; split <;> rfl
@[simp] theorem startWrite_fmin (n : Nat) (s : State) : (startWrite n s).fmin = s.fmin := by unfold startWrite; split <;> rfl
@[simp] theorem startWrite_fmax (n : Nat) (s : State) : (startWrite n s).fmax = s.fmax := by unfold startWrite; split <;> rfl
@[simp] theorem startWrite_dist (n : Nat) (s : State) : (startWrite n s).dist = s.dist := by unfold startWrite; split <;> rfl
@[simp] theorem startWrite_srate (n : Nat) (s : State) : (startWrite n s).srate = s.srate := by unfold startWrite; split <;> rfl
@[simp] theorem startWrite_interp (n : Nat) (s : State) : (startWrite n s).interp = s.interp := by unfold startWrite; split <;> rfl
@[simp] theorem startWrite_aRes (n : Nat) (s : State) : (startWrite n s).aRes = s.aRes := by unfold startWrite; split <;> rfl
@[simp] theorem startWrite_aFmin (n : Nat) (s : State) : (startWrite n s).aFmin = s.aFmin := by unfold startWrite; split <;> rfl
@[simp] theorem startWrite_aFmax (n : Nat) (s : State) : (startWrite n s).aFmax = s.aFmax := by unfold startWrite; split <;> rfl
@[simp] theorem startWrite_aDist (n : Nat) (s : State) : (startWrite n s).aDist = s.aDist := by unfold startWrite; split <;> rfl
@[simp] theorem startWrite_aSrate (n : Nat) (s : State) : (startWrite n s).aSrate = s.aSrate := by unfold startWrite; split <;> rfl
@[simp] theorem startWrite_ring (n : Nat) (s : State) : (startWrite n s).ring = s.ring := by unfold startWrite; split <;> rfl
@[simp] theorem startWrite_inBuf (n : Nat) (s : State) : (startWrite n s).inBuf = s.inBuf := by unfold startWrite; split <;> rfl
@[simp] theorem startWrite_re (n : Nat) (s : State) : (startWrite n s).re = s.re := by unfold startWrite; split <;> rfl
@[simp] theorem startWrite_im (n : Nat) (s : State) : (startWrite n s).im = s.im := by unfold startWrite; split <;> rfl
@[simp] theorem startWrite_mag (n : Nat) (s : State) : (startWrite n s).mag = s.mag := by unfold startWrite; split <;> rfl
@[simp] theorem startWrite_avg (n : Nat) (s : State) : (startWrite n s).avg = s.avg := by unfold startWrite; split <;> rfl
@[simp] theorem startWrite_axis (n : Nat) (s : State) : (startWrite n s).axis = s.axis := by unfold startWrite; split <;> rfl
@[simp] theorem startWrite_out (n : Nat) (s : State) : (startWrite n s).out = s.out := by unfold startWrite; split <;> rfl
@[simp] theorem startWrite_pRsp (n : Nat) (s : State) : (startWrite n s).pRsp = s.pRsp := by unfold startWrite; split <;> rfl
@[simp] theorem startWrite_cRsp (n : Nat) (s : State) : (startWrite n s).cRsp = s.cRsp := by unfold startWrite; split <;> rfl
@[simp] theorem startWrite_cfg (n : Nat) (s : State) : (startWrite n s).cfg = s.cfg := by unfold startWrite; split <;> rfl
@[simp] theorem startWrite_turns (n : Nat) (s : State) : (startWrite n s).turns = s.turns := by unfold startWrite; split <;> rfl
@[simp] theorem startWrite_port (n : Nat) (s : State) : (startWrite n s).port = s.port := by unfold startWrite; split <;> rfl
@[simp] theorem startWrite_pCmd (n : Nat) (s : State) : (startWrite n s).pCmd = s.pCmd := by unfold startWrite; split <;> rfl
@[simp] theorem startWrite_cCmd (n : Nat) (s : State) : (startWrite n s).cCmd = s.cCmd := by unfold startWrite; split <;> rfl
@[simp] theorem startWrite_pDat (n : Nat) (s : State) : (startWrite n s).pDat = s.pDat := by unfold startWrite; split <;> rfl
@[simp] theorem startWrite_cDatReady (n : Nat) (s : State) : (startWrite n s).cDatReady = s.cDatReady := by unfold startWrite; split <;> rfl
@[simp] theorem startWrite_cDat (n : Nat) (s : State) : (startWrite n s).cDat = s.cDat := by unfold startWrite; split <;> rfl
@[simp] theorem startWrite_quiet (n : Nat) (s : State) : (startWrite n s).quiet = s.quiet := by unfold startWrite; split <;> rfl
@[simp] theorem startWrite_draws (n : Nat) (s : State) : (startWrite n s).draws = s.draws := by unfold startWrite; split <;> rfl

/-! ### csrWrite: only the staged registers and INTERP -/

@[simp] theorem csrWrite_tail (s : State) (v : Word) (r : Csr) : (csrWrite s v r).tail = s.tail := by cases r <;> rfl
@[simp] theorem csrWrite_head (s : State) (v : Word) (r : Csr) : (csrWrite s v r).head = s.head := by cases r <;> rfl
@[simp] theorem csrWrite_capacity (s : State) (v : Word) (r : Csr) : (csrWrite s v r).capacity = s.capacity := by cases r <;> rfl
@[simp] theorem csrWrite_tailv (s : State) (v : Word) (r : Csr) : (csrWrite s v r).tailv = s.tailv := by cases r <;> rfl
@[simp] theorem csrWrite_headv (s : State) (v : Word) (r : Csr) : (csrWrite s v r).headv = s.headv := by cases r <;> rfl
@[simp] theorem csrWrite_pPhase (s : State) (v : Word) (r : Csr) : (csrWrite s v r).pPhase = s.pPhase := by cases r <;> rfl
@[simp] theorem csrWrite_pRem (s : State) (v : Word) (r : Csr) : (csrWrite s v r).pRem = s.pRem := by cases r <;> rfl
@[simp] theorem csrWrite_cPhase (s : State) (v : Word) (r : Csr) : (csrWrite s v r).cPhase = s.cPhase := by cases r <;> rfl
@[simp] theorem csrWrite_cDst (s : State) (v : Word) (r : Csr) : (csrWrite s v r).cDst = s.cDst := by cases r <;> rfl
@[simp] theorem csrWrite_cRem (s : State) (v : Word) (r : Csr) : (csrWrite s v r).cRem = s.cRem := by cases r <;> rfl
@[simp] theorem csrWrite_cOff (s : State) (v : Word) (r : Csr) : (csrWrite s v r).cOff = s.cOff := by cases r <;> rfl
@[simp] theorem csrWrite_cRel (s : State) (v : Word) (r : Csr) : (csrWrite s v r).cRel = s.cRel := by cases r <;> rfl
@[simp] theorem csrWrite_avgPtr (s : State) (v : Word) (r : Csr) : (csrWrite s v r).avgPtr = s.avgPtr := by cases r <;> rfl
@[simp] theorem csrWrite_rngMin (s : State) (v : Word) (r : Csr) : (csrWrite s v r).rngMin = s.rngMin := by cases r <;> rfl
@[simp] theorem csrWrite_rngMax (s : State) (v : Word) (r : Csr) : (csrWrite s v r).rngMax = s.rngMax := by cases r <;> rfl
@[simp] theorem csrWrite_sticky (s : State) (v : Word) (r : Csr) : (csrWrite s v r).sticky = s.sticky := by cases r <;> rfl
@[simp] theorem csrWrite_axisValid (s : State) (v : Word) (r : Csr) : (csrWrite s v r).axisValid = s.axisValid := by cases r <;> rfl
@[simp] theorem csrWrite_dataValid (s : State) (v : Word) (r : Csr) : (csrWrite s v r).dataValid = s.dataValid := by cases r <;> rfl
@[simp] theorem csrWrite_aRes (s : State) (v : Word) (r : Csr) : (csrWrite s v r).aRes = s.aRes := by cases r <;> rfl
@[simp] theorem csrWrite_aFmin (s : State) (v : Word) (r : Csr) : (csrWrite s v r).aFmin = s.aFmin := by cases r <;> rfl
@[simp] theorem csrWrite_aFmax (s : State) (v : Word) (r : Csr) : (csrWrite s v r).aFmax = s.aFmax := by cases r <;> rfl
@[simp] theorem csrWrite_aDist (s : State) (v : Word) (r : Csr) : (csrWrite s v r).aDist = s.aDist := by cases r <;> rfl
@[simp] theorem csrWrite_aSrate (s : State) (v : Word) (r : Csr) : (csrWrite s v r).aSrate = s.aSrate := by cases r <;> rfl
@[simp] theorem csrWrite_ring (s : State) (v : Word) (r : Csr) : (csrWrite s v r).ring = s.ring := by cases r <;> rfl
@[simp] theorem csrWrite_inBuf (s : State) (v : Word) (r : Csr) : (csrWrite s v r).inBuf = s.inBuf := by cases r <;> rfl
@[simp] theorem csrWrite_re (s : State) (v : Word) (r : Csr) : (csrWrite s v r).re = s.re := by cases r <;> rfl
@[simp] theorem csrWrite_im (s : State) (v : Word) (r : Csr) : (csrWrite s v r).im = s.im := by cases r <;> rfl
@[simp] theorem csrWrite_mag (s : State) (v : Word) (r : Csr) : (csrWrite s v r).mag = s.mag := by cases r <;> rfl
@[simp] theorem csrWrite_avg (s : State) (v : Word) (r : Csr) : (csrWrite s v r).avg = s.avg := by cases r <;> rfl
@[simp] theorem csrWrite_axis (s : State) (v : Word) (r : Csr) : (csrWrite s v r).axis = s.axis := by cases r <;> rfl
@[simp] theorem csrWrite_out (s : State) (v : Word) (r : Csr) : (csrWrite s v r).out = s.out := by cases r <;> rfl
@[simp] theorem csrWrite_pRsp (s : State) (v : Word) (r : Csr) : (csrWrite s v r).pRsp = s.pRsp := by cases r <;> rfl
@[simp] theorem csrWrite_cRsp (s : State) (v : Word) (r : Csr) : (csrWrite s v r).cRsp = s.cRsp := by cases r <;> rfl
@[simp] theorem csrWrite_cfg (s : State) (v : Word) (r : Csr) : (csrWrite s v r).cfg = s.cfg := by cases r <;> rfl
@[simp] theorem csrWrite_turns (s : State) (v : Word) (r : Csr) : (csrWrite s v r).turns = s.turns := by cases r <;> rfl
@[simp] theorem csrWrite_port (s : State) (v : Word) (r : Csr) : (csrWrite s v r).port = s.port := by cases r <;> rfl
@[simp] theorem csrWrite_pCmd (s : State) (v : Word) (r : Csr) : (csrWrite s v r).pCmd = s.pCmd := by cases r <;> rfl
@[simp] theorem csrWrite_cCmd (s : State) (v : Word) (r : Csr) : (csrWrite s v r).cCmd = s.cCmd := by cases r <;> rfl
@[simp] theorem csrWrite_pDat (s : State) (v : Word) (r : Csr) : (csrWrite s v r).pDat = s.pDat := by cases r <;> rfl
@[simp] theorem csrWrite_cDatReady (s : State) (v : Word) (r : Csr) : (csrWrite s v r).cDatReady = s.cDatReady := by cases r <;> rfl
@[simp] theorem csrWrite_cDat (s : State) (v : Word) (r : Csr) : (csrWrite s v r).cDat = s.cDat := by cases r <;> rfl
@[simp] theorem csrWrite_quiet (s : State) (v : Word) (r : Csr) : (csrWrite s v r).quiet = s.quiet := by cases r <;> rfl
@[simp] theorem csrWrite_draws (s : State) (v : Word) (r : Csr) : (csrWrite s v r).draws = s.draws := by cases r <;> rfl

end Sys2Proof.Machine
end

