-- ==== Sys2Proof/Laws/Ops.lean ====
section
/-! SUPPORT. For each shared operation and each meaning one lemma that says once everything it can do when it answers a next
state. The provers cite these instead of unfolding. -/

namespace Sys2Proof.Machine

/-! ### raise, onlyOn -/

theorem raise_next {e : Status} {s t : State} (h : raise e s = .next t) : t = respond e 0 0 s := by
  unfold raise at h; injection h with h; exact h.symm

theorem onlyOn_self {p : Port} {s : State} {r : Result} (h : s.port = p) : onlyOn p s r = r := if_pos h

theorem onlyOn_other {p : Port} {s : State} {r : Result} (h : s.port ≠ p) : onlyOn p s r = raise .errIllegal s := if_neg h

theorem onlyOn_next {p : Port} {s t : State} {r : Result} (h : onlyOn p s r = .next t) :
    (s.port ≠ p ∧ t = respond .errIllegal 0 0 s) ∨ (s.port = p ∧ r = .next t) := by
  by_cases hp : s.port = p
  · rw [onlyOn_self hp] at h; exact .inr ⟨hp, h⟩
  · rw [onlyOn_other hp] at h; exact .inl ⟨hp, raise_next h⟩

/-! ### The commands -/

theorem execWrite_next {n : Nat} {s t : State} (h : execWrite n s = .next t) :
    (s.port ≠ .P ∧ t = respond .errIllegal 0 0 s) ∨
    (s.port = .P ∧ freeP s < n ∧ t = respond .fail 0 0 s) ∨
    (s.port = .P ∧ n ≤ freeP s ∧ t = startWrite n (respond .ok 0 0 s)) := by
  rcases onlyOn_next h with h | ⟨hp, h⟩
  · exact .inl h
  · split at h
    · rename_i hn; exact .inr (.inl ⟨hp, hn, raise_next h⟩)
    · rename_i hn; injection h with h; exact .inr (.inr ⟨hp, by omega, h.symm⟩)

theorem execRead_next {n c : Nat} {s t : State} (h : execRead n c s = .next t) :
    (s.port ≠ .C ∧ t = respond .errIllegal 0 0 s) ∨
    (s.port = .C ∧ n < c ∧ t = respond .errOperand 0 0 s) ∨
    (s.port = .C ∧ c ≤ n ∧ readyC s < n ∧ t = respond .fail 0 0 s) ∨
    (s.port = .C ∧ c = 0 ∧ n = 0 ∧ t = respond .ok 0 0 s) ∨
    (s.port = .C ∧ c ≤ n ∧ 0 < n ∧ n ≤ readyC s ∧ t = startTransfer .port n c (respond .ok 0 0 s)) := by
  rcases onlyOn_next h with h | ⟨hp, h⟩
  · exact .inl h
  · split at h
    · rename_i hc; exact .inr (.inl ⟨hp, hc, raise_next h⟩)
    · split at h
      · rename_i hc hn; exact .inr (.inr (.inl ⟨hp, by omega, hn, raise_next h⟩))
      · rename_i hc hn
        injection h with h
        split at h
        · exact .inr (.inr (.inr (.inl ⟨hp, by omega, by omega, h.symm⟩)))
        · exact .inr (.inr (.inr (.inr ⟨hp, by omega, by omega, by omega, h.symm⟩)))

theorem execNready_next {s t : State} (h : execNready s = .next t) :
    t = respond .ok 0 (BitVec.ofNat 32 (if s.port = .P then occP s else readyC s)) s := by
  unfold execNready at h
  split at h <;> rename_i hp <;> injection h with h <;> rw [← h, hp] <;> rfl

theorem execFreesp_next {s t : State} (h : execFreesp s = .next t) :
    t = respond .ok 0 (BitVec.ofNat 32 (if s.port = .P then freeP s else freeC s)) s := by
  unfold execFreesp at h
  split at h <;> rename_i hp <;> injection h with h <;> rw [← h, hp] <;> rfl

theorem execReset_next {s t : State} (h : execReset s = .next t) :
    (s.port ≠ .C ∧ t = respond .errIllegal 0 0 s) ∨
    (s.port = .C ∧ s.pPhase = .idle ∧ t = respond .ok 0 0 (clearPointers s)) := by
  rcases onlyOn_next h with h | ⟨hp, h⟩
  · exact .inl h
  · split at h
    · cases h
    · rename_i hi; injection h with h; exact .inr ⟨hp, not_not.1 hi, h.symm⟩

theorem execSetsize_next {cap : Nat} {s t : State} (h : execSetsize cap s = .next t) :
    (s.port ≠ .C ∧ t = respond .errIllegal 0 0 s) ∨
    (s.port = .C ∧ legalCapacity s.cfg.depth cap = false ∧ t = respond .errCfg 0 0 s) ∨
    (s.port = .C ∧ legalCapacity s.cfg.depth cap = true ∧ s.pPhase = .idle ∧
      t = respond .ok 0 0 (clearPointers { s with capacity := cap })) := by
  rcases onlyOn_next h with h | ⟨hp, h⟩
  · exact .inl h
  · split at h
    · rename_i hl; exact .inr (.inl ⟨hp, hl, raise_next h⟩)
    · split at h
      · cases h
      · rename_i hl hi
        injection h with h
        exact .inr (.inr ⟨hp, by simpa using hl, not_not.1 hi, h.symm⟩)

theorem execRdcsr_next {addr : BitVec 12} {s t : State} (h : execRdcsr addr s = .next t) :
    (s.port ≠ .C ∧ t = respond .errIllegal 0 0 s) ∨
    (s.port = .C ∧ Csr.ofAddr addr = none ∧ t = respond .errOperand 0 0 s) ∨
    (s.port = .C ∧ ∃ r, Csr.ofAddr addr = some r ∧ t = respond .ok 0 (csrRead s r) s) := by
  rcases onlyOn_next h with h | ⟨hp, h⟩
  · exact .inl h
  · split at h
    · rename_i hr; exact .inr (.inl ⟨hp, hr, raise_next h⟩)
    · rename_i r hr; injection h with h; exact .inr (.inr ⟨hp, r, hr, h.symm⟩)

theorem execWrcsr_next {addr : BitVec 12} {val : Word} {s t : State} (h : execWrcsr addr val s = .next t) :
    (s.port ≠ .C ∧ t = respond .errIllegal 0 0 s) ∨
    (s.port = .C ∧ (∀ r, Csr.ofAddr addr = some r → r.writable = false) ∧ t = respond .errOperand 0 0 s) ∨
    (s.port = .C ∧ ∃ r, Csr.ofAddr addr = some r ∧ r.writable = true ∧ r.reserved val = true ∧
      t = respond .errCfg 0 0 s) ∨
    (s.port = .C ∧ ∃ r, Csr.ofAddr addr = some r ∧ r.writable = true ∧ r.reserved val = false ∧
      t = respond .ok 0 0 (csrWrite s val r)) := by
  rcases onlyOn_next h with h | ⟨hp, h⟩
  · exact .inl h
  · split at h
    · rename_i hr; exact .inr (.inl ⟨hp, (fun r h' => by rw [hr] at h'; cases h'), raise_next h⟩)
    · rename_i r hr
      split at h
      · rename_i hw
        exact .inr (.inl ⟨hp, (fun r' h' => by rw [hr] at h'; cases h'; exact hw), raise_next h⟩)
      · rename_i hw
        split at h
        · rename_i hv; exact .inr (.inr (.inl ⟨hp, r, hr, by simpa using hw, hv, raise_next h⟩))
        · rename_i hv
          injection h with h
          exact .inr (.inr (.inr ⟨hp, r, hr, by simpa using hw, by simpa using hv, h.symm⟩))

theorem execAxbuild_next {s t : State} (h : execAxbuild s = .next t) :
    (s.port ≠ .C ∧ t = respond .errIllegal 0 0 s) ∨
    (s.port = .C ∧ axisAccepted s.cfg.resMax s.res s.fmin s.fmax s.dist s.srate = false ∧ t = respond .errCfg 0 0 s) ∨
    (s.port = .C ∧ axisAccepted s.cfg.resMax s.res s.fmin s.fmax s.dist s.srate = true ∧
      t = respond .ok 0 s.res (buildAxis s)) := by
  rcases onlyOn_next h with h | ⟨hp, h⟩
  · exact .inl h
  · split at h
    · rename_i ha; exact .inr (.inl ⟨hp, ha, raise_next h⟩)
    · rename_i ha; injection h with h; exact .inr (.inr ⟨hp, by simpa using ha, h.symm⟩)

theorem execUpdate_next {s t : State} (h : execUpdate s = .next t) :
    (s.port ≠ .C ∧ t = respond .errIllegal 0 0 s) ∨
    (s.port = .C ∧ s.axisValid = false ∧ t = respond .errState 0 0 s) ∨
    (s.port = .C ∧ s.axisValid = true ∧ readyC s < s.cfg.fftSize ∧ t = respond .fail 0 0 s) ∨
    (s.port = .C ∧ s.axisValid = true ∧ s.cfg.fftSize ≤ readyC s ∧
      t = startTransfer .analyzer s.cfg.fftSize (s.cfg.fftSize - s.cfg.keep) s) := by
  rcases onlyOn_next h with h | ⟨hp, h⟩
  · exact .inl h
  · split at h
    · rename_i ha; exact .inr (.inl ⟨hp, ha, raise_next h⟩)
    · rename_i ha
      have ha : s.axisValid = true := by simpa using ha
      split at h
      · rename_i hr; exact .inr (.inr (.inl ⟨hp, ha, hr, raise_next h⟩))
      · rename_i hr; injection h with h; exact .inr (.inr (.inr ⟨hp, ha, by omega, h.symm⟩))

theorem execGetinfo_next {idx : Nat} {s t : State} (h : execGetinfo idx s = .next t) :
    (s.port ≠ .C ∧ t = respond .errIllegal 0 0 s) ∨
    (s.port = .C ∧ s.axisValid = false ∧ t = respond .errState 0 0 s) ∨
    (s.port = .C ∧ s.axisValid = true ∧ s.aRes.toNat ≤ idx ∧ t = respond .errOperand 0 0 s) ∨
    (s.port = .C ∧ s.axisValid = true ∧ idx < s.aRes.toNat ∧
      ∃ f, Memory.read none s.axis idx = some f ∧ t = respond .ok f (s.out.readZ idx) s) := by
  rcases onlyOn_next h with h | ⟨hp, h⟩
  · exact .inl h
  · split at h
    · rename_i ha; exact .inr (.inl ⟨hp, ha, raise_next h⟩)
    · rename_i ha
      have ha : s.axisValid = true := by simpa using ha
      split at h
      · rename_i hr; exact .inr (.inr (.inl ⟨hp, ha, hr, raise_next h⟩))
      · rename_i hr
        split at h
        · cases h
        · rename_i f hf; injection h with h; exact .inr (.inr (.inr ⟨hp, ha, by omega, f, hf, h.symm⟩))

theorem execGetbin_next {k : Nat} {s t : State} (h : execGetbin k s = .next t) :
    (s.port ≠ .C ∧ t = respond .errIllegal 0 0 s) ∨
    (s.port = .C ∧ s.cfg.bins ≤ k ∧ t = respond .errOperand 0 0 s) ∨
    (s.port = .C ∧ k < s.cfg.bins ∧ t = respond .ok 0 (s.avg.readZ (avgIx s.cfg.bins 0 k)) s) := by
  rcases onlyOn_next h with h | ⟨hp, h⟩
  · exact .inl h
  · split at h
    · rename_i hk; exact .inr (.inl ⟨hp, hk, raise_next h⟩)
    · rename_i hk; injection h with h; exact .inr (.inr ⟨hp, by omega, h.symm⟩)

/-! ### The steps that go on with a command -/

theorem writeBeat_next {item : Item} {s t : State} (h : writeBeat item s = .next t) :
    s.tail < s.cfg.depth ∧ t = { s with
      ring := Memory.write none s.ring s.tail (onWires s.cfg.nCh item)
      tail := (s.tail + 1) % s.capacity
      pRem := s.pRem - 1
      pPhase := if s.pRem - 1 = 0 then .idle else s.pPhase } := by
  unfold writeBeat at h
  split at h
  · rename_i hd; injection h with h; exact ⟨hd, h.symm⟩
  · cases h

theorem beatStep_next {s t : State} (h : beatStep s = .next t) :
    (beatEnabled s = false ∧ t = s) ∨
    (beatEnabled s = true ∧ (s.cDst = .analyzer → s.cOff < s.cfg.fftSize) ∧
      ∃ item, ringRead s s.cOff = some item ∧ t = advanceBeat (deliver item s)) := by
  unfold beatStep at h
  split at h
  · rename_i hb; injection h with h; exact .inl ⟨hb, h.symm⟩
  · rename_i hb
    split at h
    · cases h
    · rename_i ho
      split at h
      · cases h
      · rename_i item hi
        injection h with h
        exact .inr ⟨by simpa using hb, fun hd => by by_contra hc; exact ho ⟨hd, by omega⟩, item, hi, h.symm⟩

theorem computeStep_next {s t : State} (h : computeStep s = .next t) :
    s.avgPtr < s.cfg.k ∧ s.aRes.toNat ≤ s.cfg.resMax ∧ ∃ xs fs,
      Memory.readFirst none s.inBuf s.cfg.fftSize = some xs ∧ Memory.readFirst none s.axis s.aRes.toNat = some fs ∧
      t = respond .ok 0 0 (applyTick (tick s xs fs) s) := by
  unfold computeStep at h
  split at h
  · cases h
  · split at h
    · cases h
    · rename_i hk hr
      split at h
      · rename_i xs fs hx hf
        injection h with h
        exact ⟨by omega, by omega, xs, fs, hx, hf, h.symm⟩
      · cases h
      · cases h

theorem noteWindow_next {cw : CmdWord} {r : Result} {t : State} (h : noteWindow cw r = .next t) :
    ∃ u, r = .next u ∧ t = (if isQuiesce cw then { u with quiet := u.cRsp.length } else u) := by
  cases r with
  | next u =>
    refine ⟨u, rfl, ?_⟩
    simp only [noteWindow] at h
    by_cases hq : isQuiesce cw = true
    · rw [if_pos hq] at h ⊢; injection h with h; exact h.symm
    · rw [if_neg hq] at h ⊢; injection h with h; exact h.symm
  | fault r => cases h
  | refused r => cases h

theorem runWord_next {cw : CmdWord} {s t : State} (h : runWord cw s = .next t) :
    (∃ i, decode cw = .ok i ∧ exec i s = .next t) ∨
    ((∃ e, decode cw = .error e) ∧ t = respond .errIllegal 0 0 s) := by
  unfold runWord at h
  split at h
  · rename_i i hi; exact .inl ⟨i, hi, h⟩
  · rename_i e he; exact .inr ⟨⟨e, he⟩, raise_next h⟩

theorem stepP_next {s t : State} (h : stepP s = .next t) :
    (s.pPhase = .idle ∧ s.pCmd = [] ∧ t = s) ∨
    (s.pPhase = .idle ∧ ∃ cw rest, s.pCmd = cw :: rest ∧ runWord cw { s with port := .P, pCmd := rest } = .next t) ∨
    (s.pPhase = .busy ∧ s.pDat = [] ∧ t = s) ∨
    (s.pPhase = .busy ∧ ∃ item rest, s.pDat = item :: rest ∧ writeBeat item { s with pDat := rest } = .next t) := by
  unfold stepP at h
  split at h <;> rename_i hp <;> split at h
  · rename_i hc; injection h with h; exact .inl ⟨hp, hc, h.symm⟩
  · rename_i cw rest hc; exact .inr (.inl ⟨hp, cw, rest, hc, h⟩)
  · rename_i hc; injection h with h; exact .inr (.inr (.inl ⟨hp, hc, h.symm⟩))
  · rename_i item rest hc; exact .inr (.inr (.inr ⟨hp, item, rest, hc, h⟩))

theorem stepC_next {s t : State} (h : stepC s = .next t) :
    (s.cPhase = .idle ∧ s.cCmd = [] ∧ t = s) ∨
    (s.cPhase = .idle ∧ ∃ cw rest, s.cCmd = cw :: rest ∧
      noteWindow cw (runWord cw { s with port := .C, cCmd := rest }) = .next t) ∨
    (s.cPhase = .beats ∧ beatStep s = .next t) ∨
    (s.cPhase = .release ∧ t = releaseStep s) ∨
    (s.cPhase = .compute ∧ computeStep { s with port := .C } = .next t) := by
  unfold stepC at h
  split at h <;> rename_i hp
  · split at h
    · rename_i hc; injection h with h; exact .inl ⟨hp, hc, h.symm⟩
    · rename_i cw rest hc; exact .inr (.inl ⟨hp, cw, rest, hc, h⟩)
  · exact .inr (.inr (.inl ⟨hp, h⟩))
  · injection h with h; exact .inr (.inr (.inr (.inl ⟨hp, h.symm⟩)))
  · exact .inr (.inr (.inr (.inr ⟨hp, h⟩)))

theorem step_next {s t : State} (h : step s = .next t) :
    (s.turns = [] ∧ t = s) ∨ (∃ u rest, s.turns = u :: rest ∧ runTurn u { s with turns := rest } = .next t) := by
  unfold step at h
  split at h
  · rename_i ht; injection h with h; exact .inl ⟨ht, h.symm⟩
  · rename_i u rest ht; exact .inr ⟨u, rest, ht, h⟩

end Sys2Proof.Machine
end

