-- ==== Sys2Proof/Laws/PerInstr.lean ====
section
/-! SUPPORT. Laws said of every command as syntax, one lemma per constructor. -/

namespace Sys2Proof.Laws

theorem cmdWord_and (o p : BitVec 8) (a b : BitVec 24) (c d : BitVec 32) :
    cmdWord o a c &&& cmdWord p b d = cmdWord (o &&& p) (a &&& b) (c &&& d) := by
  unfold cmdWord
  rw [← BitVec.and_append, ← BitVec.and_append]

end Sys2Proof.Laws

namespace Sys2Proof.Laws.EncodingFitsRow

/-- The word of a command lies in its row of the opcode map: `CW & mask = match` (30_encoding.md R97). -/
abbrev Statement (i : Instr) : Prop := encode i &&& (rowOf i).mask = (rowOf i).pattern

/-- A field with its mask zero in the low part and full in the high part keeps the high part. -/
theorem low_masked {v w : Nat} (x : BitVec v) (y : BitVec w) : (x ++ y) &&& (BitVec.allOnes v ++ 0#w) = x ++ 0#w := by
  rw [BitVec.and_append, BitVec.and_allOnes, BitVec.and_zero]

theorem encodeN_and (op : BitVec 8) (n : Nat) : encodeN op n &&& 0xFFFFFFFFFF000000#64 = cmdWord op 0 0 := by
  have hm : (0xFFFFFFFFFF000000#64 : CmdWord) = cmdWord (BitVec.allOnes 8) 0xFFFFFF (BitVec.allOnes 8 ++ 0#24) := by decide
  rw [hm, encodeN, cmdWord_and, BitVec.and_allOnes]
  exact congrArg (cmdWord op _) (low_masked 0#8 (BitVec.ofNat 24 n))

theorem write (n : Nat) : Statement (.write n) := by
  show encodeN 0x01 n &&& _ = _
  rw [show (rowOf (.write n)).mask = 0xFFFFFFFFFF000000#64 from rfl, encodeN_and]; rfl

theorem read (n c : Nat) : Statement (.read n c) := by
  show cmdWord 0x02 _ (0#8 ++ BitVec.ofNat 24 n) &&& _ = _
  have hm : (rowOf (.read n c)).mask = cmdWord 0xFF 0#24 (BitVec.allOnes 8 ++ 0#24) := rfl
  rw [hm, cmdWord_and, BitVec.and_zero]
  exact congrArg (cmdWord 2 0) (low_masked 0#8 (BitVec.ofNat 24 n))

theorem nready : Statement .nready := by decide

theorem freesp : Statement .freesp := by decide

theorem reset : Statement .reset := by decide

theorem setsize (cap : Nat) : Statement (.setsize cap) := by
  show encodeN 0x06 cap &&& _ = _
  rw [show (rowOf (.setsize cap)).mask = 0xFFFFFFFFFF000000#64 from rfl, encodeN_and]; rfl

theorem rdcsr (addr : BitVec 12) : Statement (.rdcsr addr) := by
  show cmdWord 0x10 (0#12 ++ addr) 0 &&& _ = _
  have hm : (rowOf (.rdcsr addr)).mask = cmdWord 0xFF (BitVec.allOnes 12 ++ 0#12) 0xFFFFFFFF := rfl
  rw [hm, cmdWord_and]
  exact congrArg (fun a => cmdWord 0x10 a 0) (low_masked 0#12 addr)

theorem wrcsr (addr : BitVec 12) (val : Word) : Statement (.wrcsr addr val) := by
  show cmdWord 0x11 (0#12 ++ addr) val &&& _ = _
  have hm : (rowOf (.wrcsr addr val)).mask = cmdWord 0xFF (BitVec.allOnes 12 ++ 0#12) 0#32 := rfl
  rw [hm, cmdWord_and, BitVec.and_zero]
  exact congrArg (fun a => cmdWord 0x11 a 0) (low_masked 0#12 addr)

theorem axbuild : Statement .axbuild := by decide

theorem update : Statement .update := by decide

theorem getinfo (idx : Nat) : Statement (.getinfo idx) := by
  show encodeN 0x21 idx &&& _ = _
  rw [show (rowOf (.getinfo idx)).mask = 0xFFFFFFFFFF000000#64 from rfl, encodeN_and]; rfl

theorem getbin (k : Nat) : Statement (.getbin k) := by
  show encodeN 0x22 k &&& _ = _
  rw [show (rowOf (.getbin k)).mask = 0xFFFFFFFFFF000000#64 from rfl, encodeN_and]; rfl

end Sys2Proof.Laws.EncodingFitsRow
end

