-- ==== Sys2Proof/Laws/Rounding.lean ====
section
/-! SUPPORT. What `roundPack` does, said once: it gives the nearest binary32 value, ties to even, of an exact value, and also of
a value that its argument only brackets, as a quotient or root with a last bit for the remainder does (00_scope.md R9). -/

namespace Sys2Proof.Machine

/-! ### Fields of a packed pattern -/

theorem f32Sign_packBits (s : Bool) {bits : Nat} (h : bits < 2 ^ 31) : f32Sign (packBits s bits) = s := by
  unfold f32Sign packBits
  rw [BitVec.getLsbD_ofNat, Nat.testBit_eq_decide_div_mod_eq]
  cases s
  · rw [if_neg Bool.false_ne_true, Nat.add_zero, Nat.div_eq_of_lt h]; rfl
  · rw [if_pos rfl, show (bits + 2 ^ 31) / 2 ^ 31 = 1 by omega]; rfl

theorem f32Frac_packBits (s : Bool) (bits : Nat) : f32Frac (packBits s bits) = bits % 2 ^ 23 := by
  unfold f32Frac packBits
  rw [BitVec.extractLsb'_toNat, BitVec.toNat_ofNat, Nat.shiftRight_zero]
  cases s
  · rw [if_neg Bool.false_ne_true]; omega
  · rw [if_pos rfl]; omega

theorem magnitudeOf_eq {w : Word} (h : isFinite w = true) :
    magnitudeOf w = if f32Exp w = 0 then f32Frac w else (f32Frac w + 2 ^ 23) * 2 ^ (f32Exp w - 1) := by
  have h' : f32Exp w ≠ 255 := by simpa [isFinite] using h
  unfold magnitudeOf unpack
  rw [if_neg h']
  by_cases h0 : f32Exp w = 0
  · rw [if_pos h0, if_pos h0]; simp
  · rw [if_neg h0, if_neg h0]

/-- The magnitude of the pattern `roundPack` packs from a significand and the exponent of its last place. -/
theorem magnitudeOf_packBits (s : Bool) {Q mant : Nat} (hm : mant ≤ 2 ^ 24) (hQ : Q = 0 ∨ 2 ^ 23 ≤ mant)
    (h : Q * 2 ^ 23 + mant < 0x7F800000) : magnitudeOf (packBits s (Q * 2 ^ 23 + mant)) = mant * 2 ^ Q := by
  rw [magnitudeOf_eq (isFinite_packBits s h), f32Exp_packBits s (by omega), f32Frac_packBits s _]
  rcases Nat.lt_or_ge mant (2 ^ 23) with h1 | h1
  · obtain rfl : Q = 0 := by omega
    rw [if_pos (by omega)]; simp; omega
  · rcases Nat.lt_or_ge mant (2 ^ 24) with h2 | h2
    · rw [if_neg (by omega), show (Q * 2 ^ 23 + mant) / 2 ^ 23 - 1 = Q by omega,
        show (Q * 2 ^ 23 + mant) % 2 ^ 23 + 2 ^ 23 = mant by omega]
    · obtain rfl : mant = 2 ^ 24 := by omega
      rw [if_neg (by omega), show (Q * 2 ^ 23 + 2 ^ 24) / 2 ^ 23 - 1 = Q + 1 by omega,
        show (Q * 2 ^ 23 + 2 ^ 24) % 2 ^ 23 + 2 ^ 23 = 2 ^ 23 by omega]
      ring

/-- A finite magnitude is a multiple of 2^Q or smaller than 2^(Q + 23). -/
theorem magnitudeOf_multiple {w : Word} (h : isFinite w = true) (Q : Nat) :
    (∃ n : Nat, magnitudeOf w = n * 2 ^ Q) ∨ (0 < Q ∧ magnitudeOf w < 2 ^ (Q + 23)) := by
  have hf : f32Frac w < 2 ^ 23 := (w.extractLsb' 0 23).isLt
  rw [magnitudeOf_eq h]
  have key : ∀ f k : Nat, f < 2 ^ 24 → (∃ n : Nat, f * 2 ^ k = n * 2 ^ Q) ∨ (0 < Q ∧ f * 2 ^ k < 2 ^ (Q + 23)) := by
    intro f k hfk
    rcases Nat.lt_or_ge k Q with hk | hk
    · refine .inr ⟨by omega, ?_⟩
      calc f * 2 ^ k < 2 ^ 24 * 2 ^ k := Nat.mul_lt_mul_of_pos_right hfk (by positivity)
        _ = 2 ^ (24 + k) := (pow_add ..).symm
        _ ≤ 2 ^ (Q + 23) := Nat.pow_le_pow_right (by omega) (by omega)
    · exact .inl ⟨f * 2 ^ (k - Q), by rw [mul_assoc, ← pow_add]; congr 2; omega⟩
  split
  · simpa using key (f32Frac w) 0 (by omega)
  · exact key _ _ (by omega)

/-! ### The nearest integer -/

/-- `n` is the integer nearest to `y`, a tie to the even one. -/
def NearestEven (y : ℝ) (n : Nat) : Prop := |y - n| ≤ 1 / 2 ∧ (|y - n| = 1 / 2 → n % 2 = 0)

theorem nearestEven_natCast (n : Nat) : NearestEven n n := by
  constructor <;> norm_num

theorem NearestEven.le_abs {y : ℝ} {n : Nat} (h : NearestEven y n) (k : Nat) :
    |y - n| ≤ |y - k| ∧ (|y - n| = |y - k| → k ≠ n → n % 2 = 0) := by
  by_cases hk : k = n
  · subst hk; exact ⟨le_rfl, fun _ h => absurd rfl h⟩
  have h1 : (1 : ℝ) ≤ |(k : ℝ) - n| := by
    rcases lt_or_gt_of_ne hk with h | h
    · have : (k : ℝ) + 1 ≤ n := by exact_mod_cast h
      rw [abs_of_nonpos (by linarith)]; linarith
    · have : (n : ℝ) + 1 ≤ k := by exact_mod_cast h
      rw [abs_of_nonneg (by linarith)]; linarith
  have h2 : |(k : ℝ) - n| ≤ |y - n| + |y - k| := by
    have := abs_sub_abs_le_abs_sub (y - n) (y - k)
    calc |(k : ℝ) - n| = |(y - n) - (y - k)| := by congr 1; ring
      _ ≤ _ := abs_sub _ _
  refine ⟨by linarith [h.1], fun he _ => h.2 (le_antisymm h.1 (by linarith))⟩

/-- `roundShift` rounds the exact quotient. -/
theorem nearestEven_roundShift (m sh : Nat) : NearestEven ((m : ℝ) / 2 ^ sh) (roundShift m sh) := by
  by_cases h0 : sh = 0
  · subst h0; simpa [roundShift] using nearestEven_natCast m
  obtain ⟨k, rfl⟩ : ∃ k, sh = k + 1 := ⟨sh - 1, by omega⟩
  have hdm : (m : ℝ) = (2 ^ (k + 1) : ℝ) * ((m / 2 ^ (k + 1) : Nat) : ℝ) + ((m % 2 ^ (k + 1) : Nat) : ℝ) := by
    exact_mod_cast (Nat.div_add_mod m (2 ^ (k + 1))).symm
  have hlt : m % 2 ^ (k + 1) < 2 ^ (k + 1) := Nat.mod_lt _ (by positivity)
  rw [roundShift, if_neg h0]
  dsimp only
  rw [Nat.add_sub_cancel]
  generalize m / 2 ^ (k + 1) = hi at *
  generalize m % 2 ^ (k + 1) = lo at *
  have hp : (0 : ℝ) < 2 ^ k := by positivity
  have hpow : (2 : ℝ) ^ (k + 1) = 2 * 2 ^ k := by ring
  have hy : (m : ℝ) / 2 ^ (k + 1) = hi + lo / (2 * 2 ^ k) := by rw [hdm, hpow]; field_simp
  have hlo0 : (0 : ℝ) ≤ lo / (2 * 2 ^ k) := by positivity
  rw [hy]
  have hlt' : (lo : ℝ) < 2 * 2 ^ k := by rw [← hpow]; exact_mod_cast hlt
  have hlo1 : (lo : ℝ) / (2 * 2 ^ k) < 1 := by rw [div_lt_one (by positivity)]; exact hlt'
  rcases Nat.lt_trichotomy lo (2 ^ k) with h | h | h
  · rw [if_neg (by omega)]
    have : (lo : ℝ) / (2 * 2 ^ k) < 1 / 2 := by
      rw [div_lt_div_iff₀ (by positivity) (by norm_num)]
      have : (lo : ℝ) < 2 ^ k := by exact_mod_cast h
      linarith
    constructor
    · rw [add_sub_cancel_left, abs_of_nonneg hlo0]; exact this.le
    · intro he; rw [add_sub_cancel_left, abs_of_nonneg hlo0] at he; exact absurd he this.ne
  · have hh : (lo : ℝ) / (2 * 2 ^ k) = 1 / 2 := by
      rw [h]; push_cast; field_simp
    rw [hh]
    by_cases hodd : hi % 2 = 1
    · rw [if_pos (.inr ⟨h, hodd⟩)]
      refine ⟨?_, fun _ => by omega⟩
      push_cast
      rw [show (hi : ℝ) + 1 / 2 - (hi + 1) = -(1 / 2) by ring, abs_neg, abs_of_nonneg (by norm_num)]
    · rw [if_neg (by omega)]
      refine ⟨?_, fun _ => by omega⟩
      rw [add_sub_cancel_left, abs_of_nonneg (by norm_num)]
  · rw [if_pos (.inl h)]
    have : 1 / 2 < (lo : ℝ) / (2 * 2 ^ k) := by
      rw [div_lt_div_iff₀ (by norm_num) (by positivity)]
      have : (2 : ℝ) ^ k < lo := by exact_mod_cast h
      linarith
    have hd : (hi : ℝ) + lo / (2 * 2 ^ k) - ((hi + 1 : Nat) : ℝ) = -(1 - lo / (2 * 2 ^ k)) := by push_cast; ring
    constructor
    · rw [hd, abs_neg, abs_of_nonneg (by linarith)]; linarith
    · intro he; rw [hd, abs_neg, abs_of_nonneg (by linarith)] at he; linarith

/-- An odd `m` that stands for a value between its two even neighbours rounds as that value does. -/
theorem nearestEven_roundShift_of_bracket {m sh : Nat} {t : ℝ} (hodd : m % 2 = 1) (hsh : 2 ≤ sh)
    (hl : (m : ℝ) - 1 < t) (hu : t < (m : ℝ) + 1) : NearestEven (t / 2 ^ sh) (roundShift m sh) := by
  obtain ⟨k, rfl⟩ : ∃ k, sh = k + 2 := ⟨sh - 2, by omega⟩
  have hdm : (m : ℝ) = (2 ^ (k + 2) : ℝ) * ((m / 2 ^ (k + 2) : Nat) : ℝ) + ((m % 2 ^ (k + 2) : Nat) : ℝ) := by
    exact_mod_cast (Nat.div_add_mod m (2 ^ (k + 2))).symm
  have hev : (2 : Nat) ^ (k + 1) = 2 * 2 ^ k := by ring
  have hev2 : (2 : Nat) ^ (k + 2) = 2 * (2 * 2 ^ k) := by ring
  have hlt : m % 2 ^ (k + 2) < 2 ^ (k + 2) := Nat.mod_lt _ (by positivity)
  have hlo : m % 2 ^ (k + 2) % 2 = 1 := by rw [Nat.mod_mod_of_dvd _ ⟨2 * 2 ^ k, hev2⟩]; exact hodd
  rw [roundShift, if_neg (by omega)]
  dsimp only
  rw [show k + 2 - 1 = k + 1 by omega]
  generalize m / 2 ^ (k + 2) = hi at *
  generalize m % 2 ^ (k + 2) = lo at *
  have hp : (0 : ℝ) < 2 ^ k := by positivity
  have hpow : (2 : ℝ) ^ (k + 2) = 4 * 2 ^ k := by ring
  obtain ⟨r, hr⟩ : ∃ r : ℝ, t = 4 * 2 ^ k * (hi + r) := ⟨t / (4 * 2 ^ k) - hi, by field_simp; ring⟩
  rw [hpow] at hdm
  have hy : t / 2 ^ (k + 2) = hi + r := by rw [hr, hpow]; field_simp
  rw [hy]
  have h1 : (lo : ℝ) - 1 < 4 * 2 ^ k * r := by rw [hr] at hl; linarith
  have h2 : 4 * 2 ^ k * r < lo + 1 := by rw [hr] at hu; linarith
  have h0 : (1 : ℝ) ≤ lo := by exact_mod_cast (by omega : 1 ≤ lo)
  have hr0 : 0 < r := by
    by_contra hc
    have : 4 * 2 ^ k * r ≤ 0 := mul_nonpos_of_nonneg_of_nonpos (by positivity) (by linarith)
    linarith
  rcases Nat.lt_or_ge lo (2 ^ (k + 1)) with h | h
  · rw [if_neg (by omega)]
    have hb : (lo : ℝ) + 1 ≤ 2 * 2 ^ k := by exact_mod_cast (by omega : lo + 1 ≤ 2 * 2 ^ k)
    have : r < 1 / 2 := by
      by_contra hc
      have : 4 * 2 ^ k * (1 / 2) ≤ 4 * 2 ^ k * r := mul_le_mul_of_nonneg_left (by linarith) (by positivity)
      linarith
    constructor
    · rw [add_sub_cancel_left, abs_of_pos hr0]; exact this.le
    · intro he; rw [add_sub_cancel_left, abs_of_pos hr0] at he; exact absurd he this.ne
  · rw [if_pos (.inl (by omega))]
    have hb : (2 : ℝ) * 2 ^ k ≤ lo - 1 := by
      have : (2 : ℝ) * 2 ^ k + 1 ≤ lo := by exact_mod_cast (by omega : 2 * 2 ^ k + 1 ≤ lo)
      linarith
    have hb2 : (lo : ℝ) + 1 ≤ 4 * 2 ^ k := by exact_mod_cast (by omega : lo + 1 ≤ 4 * 2 ^ k)
    have hgt : 1 / 2 < r := by
      by_contra hc
      have : 4 * 2 ^ k * r ≤ 4 * 2 ^ k * (1 / 2) := mul_le_mul_of_nonneg_left (by linarith) (by positivity)
      linarith
    have hlt1 : r < 1 := by
      by_contra hc
      have : 4 * 2 ^ k * 1 ≤ 4 * 2 ^ k * r := mul_le_mul_of_nonneg_left (by linarith) (by positivity)
      linarith
    have hd : (hi : ℝ) + r - ((hi + 1 : Nat) : ℝ) = -(1 - r) := by push_cast; ring
    constructor
    · rw [hd, abs_neg, abs_of_nonneg (by linarith)]; linarith
    · intro he; rw [hd, abs_neg, abs_of_nonneg (by linarith)] at he; linarith

/-! ### From the integer to the pattern -/

/-- The sign of a value as a factor. -/
def signFactor (s : Bool) : ℝ := if s then -1 else 1

theorem valueOf_eq (w : Word) : (valueOf w : ℝ) = signFactor (f32Sign w) * (magnitudeOf w : ℝ) / 2 ^ 149 := by
  unfold valueOf signFactor
  push_cast
  split <;> norm_num

/-- A pattern packed from the nearest integer is nearest among the finite patterns. `y` is the exact magnitude in units of the
last place, 2^(Q − 149). -/
theorem packBits_nearest {s : Bool} {Q mant : Nat} {y : ℝ} (hy : 0 ≤ y) (hn : NearestEven y mant)
    (hm : mant ≤ 2 ^ 24) (hQ : Q = 0 ∨ (2 ^ 23 ≤ mant ∧ (2 : ℝ) ^ 23 ≤ y)) (h : Q * 2 ^ 23 + mant < 0x7F800000)
    (v : Word) (hv : isFinite v = true) :
    let x := signFactor s * (y * 2 ^ Q / 2 ^ 149)
    let w := packBits s (Q * 2 ^ 23 + mant)
    |x - (valueOf w : ℝ)| ≤ |x - (valueOf v : ℝ)| ∧
    (|x - (valueOf w : ℝ)| = |x - (valueOf v : ℝ)| → valueOf v ≠ valueOf w → f32Frac w % 2 = 0) := by
  intro x w
  have hw : (valueOf w : ℝ) = signFactor s * ((mant : ℝ) * 2 ^ Q / 2 ^ 149) := by
    rw [valueOf_eq, f32Sign_packBits s (by omega), magnitudeOf_packBits s hm (hQ.imp_right And.left) h]
    push_cast; ring
  have hfrac : f32Frac w % 2 = mant % 2 := by rw [f32Frac_packBits s _]; omega
  have hu : (0 : ℝ) < 2 ^ Q / 2 ^ 149 := by positivity
  have habs : |signFactor s| = 1 := by cases s <;> simp [signFactor]
  have hxw : |x - (valueOf w : ℝ)| = 2 ^ Q / 2 ^ 149 * |y - mant| := by
    rw [hw, show x - signFactor s * ((mant : ℝ) * 2 ^ Q / 2 ^ 149) = signFactor s * (2 ^ Q / 2 ^ 149 * (y - mant)) by
      simp only [x]; ring, abs_mul, habs, one_mul, abs_mul, abs_of_pos hu]
  -- the other pattern in the same units, its sign taken relative to `s`
  obtain ⟨z, hz⟩ : ∃ z : ℝ, z = (magnitudeOf v : ℝ) / 2 ^ Q := ⟨_, rfl⟩
  have hz0 : 0 ≤ z := by rw [hz]; positivity
  have hvz : ∃ σ : ℝ, (σ = 1 ∨ σ = -1) ∧ (valueOf v : ℝ) = signFactor s * (σ * z * 2 ^ Q / 2 ^ 149) := by
    refine ⟨signFactor s * signFactor (f32Sign v), ?_, ?_⟩
    · cases s <;> cases f32Sign v <;> simp [signFactor]
    · rw [valueOf_eq, hz]
      have : signFactor s * signFactor s = 1 := by cases s <;> simp [signFactor]
      field_simp
      linear_combination -(signFactor (f32Sign v) * (magnitudeOf v : ℝ)) * this
  obtain ⟨σ, hσ, hvv⟩ := hvz
  have hxv : |x - (valueOf v : ℝ)| = 2 ^ Q / 2 ^ 149 * |y - σ * z| := by
    rw [hvv, show x - signFactor s * (σ * z * 2 ^ Q / 2 ^ 149) = signFactor s * (2 ^ Q / 2 ^ 149 * (y - σ * z)) by
      simp only [x]; ring, abs_mul, habs, one_mul, abs_mul, abs_of_pos hu]
  have hσz : |y - z| ≤ |y - σ * z| := by
    rcases hσ with rfl | rfl
    · rw [one_mul]
    · rw [show y - -1 * z = y + z by ring, abs_of_nonneg (by linarith : 0 ≤ y + z), abs_le]
      constructor <;> linarith
  have hnear : |y - mant| ≤ |y - z| ∧ (|y - mant| = |y - z| → z ≠ mant → mant % 2 = 0) := by
    rcases magnitudeOf_multiple hv Q with ⟨n, hnv⟩ | ⟨hQ0, hlt⟩
    · have : z = n := by rw [hz, hnv]; push_cast; field_simp
      rw [this]
      refine ⟨(hn.le_abs n).1, fun he hne => (hn.le_abs n).2 he fun hc => hne (by rw [hc])⟩
    · have hy23 : (2 : ℝ) ^ 23 ≤ y := by rcases hQ with h | h; · omega
                                         · exact h.2
      have hzlt : z < 2 ^ 23 := by
        rw [hz, div_lt_iff₀ (by positivity), ← pow_add, Nat.add_comm]
        exact_mod_cast hlt
      have hle : |y - mant| ≤ |y - 2 ^ 23| := by exact_mod_cast (hn.le_abs (2 ^ 23)).1
      have hstrict : |y - mant| < |y - z| := by
        rw [abs_of_nonneg (by linarith : 0 ≤ y - 2 ^ 23)] at hle
        rw [abs_of_nonneg (by linarith : 0 ≤ y - z)]
        linarith
      exact ⟨hstrict.le, fun he => absurd he hstrict.ne⟩
  rw [hxw, hxv, hfrac]
  refine ⟨mul_le_mul_of_nonneg_left (hnear.1.trans hσz) hu.le, fun he hne => ?_⟩
  have he' : |y - mant| = |y - σ * z| := mul_left_cancel₀ hu.ne' he
  by_cases hzm : z = mant
  · -- the same magnitude with the other sign: only zero is then equally near
    rcases hσ with rfl | rfl
    · refine absurd ?_ hne
      have : (valueOf v : ℝ) = valueOf w := by rw [hvv, hw, hzm, one_mul]
      exact_mod_cast this
    · rcases Nat.eq_zero_or_pos mant with h0 | h0
      · omega
      · have h1 : (1 : ℝ) ≤ mant := by exact_mod_cast h0
        rw [hzm, show y - -1 * (mant : ℝ) = y + mant by ring, abs_of_nonneg (by linarith : 0 ≤ y + (mant : ℝ))] at he'
        have := hn.1
        linarith
  · exact hnear.2 (le_antisymm hnear.1 (hσz.trans he'.ge)) hzm

/-- What `roundPack` does. `X` is an exact magnitude; in units of 2^−400 it is m · 2^e, or it lies strictly between
(m − 1) · 2^e and (m + 1) · 2^e for an odd `m` of at least 27 bits. -/
theorem roundPack_roundsTo (s : Bool) (m e : Nat) {X : ℝ} (hX : 0 ≤ X)
    (H : X * 2 ^ 400 = m * 2 ^ e ∨
      (m % 2 = 1 ∧ 2 ^ 26 ≤ m ∧ ((m : ℝ) - 1) * 2 ^ e < X * 2 ^ 400 ∧ X * 2 ^ 400 < ((m : ℝ) + 1) * 2 ^ e)) :
    RoundsTo s (signFactor s * X) (roundPack s m e) := by
  have habsX : |signFactor s * X| = X := by
    rw [abs_mul, abs_of_nonneg hX]; cases s <;> simp [signFactor]
  -- the exponent of the last place, the exact value in such places, and the significand
  obtain ⟨Q, mant, y, hQy, hn, hm, hQ, hr⟩ : ∃ (Q mant : Nat) (y : ℝ), X * 2 ^ 149 = y * 2 ^ Q ∧ NearestEven y mant ∧
      mant ≤ 2 ^ 24 ∧ (Q = 0 ∨ (2 ^ 23 ≤ mant ∧ (2 : ℝ) ^ 23 ≤ y)) ∧ roundPack s m e =
        (if 0x7F800000 ≤ Q * 2 ^ 23 + mant then infOf s else packBits s (Q * 2 ^ 23 + mant)) := by
    by_cases hm0 : m = 0
    · subst hm0
      have hX0 : X = 0 := by
        rcases H with H | ⟨h, _⟩
        · have : X * 2 ^ 400 = 0 := by rw [H]; push_cast; ring
          exact (mul_eq_zero.1 this).resolve_right (by positivity)
        · omega
      exact ⟨0, 0, 0, by rw [hX0]; ring, by simpa using nearestEven_natCast 0, by omega, .inl rfl, by simp [roundPack, zeroOf]⟩
    have hlo : 2 ^ m.log2 ≤ m := Nat.log2_self_le hm0
    have hhi : m < 2 ^ (m.log2 + 1) := Nat.lt_log2_self
    generalize hq : max (m.log2 + 1 + e - 24) 251 = q
    have hT : X * 2 ^ 149 = X * 2 ^ 400 / 2 ^ q * 2 ^ (q - 251) := by
      have : (2 : ℝ) ^ q = 2 ^ (q - 251) * 2 ^ 251 := by rw [← pow_add]; congr 1; omega
      rw [this]; field_simp
    -- bounds of the exact value
    have hTlo : (2 : ℝ) ^ (m.log2 + e) ≤ X * 2 ^ 400 := by
      have hl : (2 : ℝ) ^ m.log2 ≤ m := by exact_mod_cast hlo
      rw [pow_add]
      rcases H with H | ⟨hodd, hbig, h1, _⟩
      · rw [H]; exact mul_le_mul_of_nonneg_right hl (by positivity)
      · refine le_trans (mul_le_mul_of_nonneg_right ?_ (by positivity)) h1.le
        have hl2 : 2 ^ m.log2 + 1 ≤ m := by
          rcases Nat.eq_or_lt_of_le hlo with h | h
          · have : m.log2 ≠ 0 := by intro hc; rw [hc] at h; omega
            obtain ⟨k, hk⟩ := Nat.exists_eq_succ_of_ne_zero this
            rw [hk, Nat.succ_eq_add_one, pow_succ] at h; omega
          · exact h
        have : (2 : ℝ) ^ m.log2 + 1 ≤ m := by exact_mod_cast hl2
        linarith
    have hThi : X * 2 ^ 400 < (2 : ℝ) ^ (m.log2 + 1 + e) := by
      rw [pow_add]
      rcases H with H | ⟨_, _, _, h2⟩
      · rw [H]
        exact mul_lt_mul_of_pos_right (by exact_mod_cast hhi) (by positivity)
      · refine h2.trans_le (mul_le_mul_of_nonneg_right ?_ (by positivity))
        exact_mod_cast hhi
    have hy24 : X * 2 ^ 400 / 2 ^ q < 2 ^ 24 := by
      rw [div_lt_iff₀ (by positivity), ← pow_add]
      exact hThi.trans_le (pow_le_pow_right₀ (by norm_num) (by omega))
    have hy23 : q = 251 ∨ (2 : ℝ) ^ 23 ≤ X * 2 ^ 400 / 2 ^ q := by
      by_cases hq251 : q = 251
      · exact .inl hq251
      · right
        rw [le_div_iff₀ (by positivity), ← pow_add]
        exact le_trans (pow_le_pow_right₀ (by norm_num) (by omega)) hTlo
    have hn : NearestEven (X * 2 ^ 400 / 2 ^ q) (if q ≤ e then m * 2 ^ (e - q) else roundShift m (q - e)) := by
      split
      · rename_i hqe
        rcases H with H | ⟨_, hbig, _, _⟩
        · have : X * 2 ^ 400 / 2 ^ q = ((m * 2 ^ (e - q) : Nat) : ℝ) := by
            have : (2 : ℝ) ^ e = 2 ^ (e - q) * 2 ^ q := by rw [← pow_add]; congr 1; omega
            rw [H, this]; push_cast; field_simp
          rw [this]; exact nearestEven_natCast _
        · have : 26 ≤ m.log2 := (Nat.le_log2 hm0).2 hbig
          omega
      · rename_i hqe
        have hsplit : X * 2 ^ 400 / 2 ^ q = X * 2 ^ 400 / 2 ^ e / 2 ^ (q - e) := by
          rw [div_div, ← pow_add]; congr 2; omega
        rw [hsplit]
        rcases H with H | ⟨hodd, hbig, h1, h2⟩
        · have : X * 2 ^ 400 / 2 ^ e = m := by rw [H]; field_simp
          rw [this]; exact nearestEven_roundShift _ _
        · have : 26 ≤ m.log2 := (Nat.le_log2 hm0).2 hbig
          refine nearestEven_roundShift_of_bracket hodd (by omega) ?_ ?_
          · rwa [lt_div_iff₀ (by positivity)]
          · rwa [div_lt_iff₀ (by positivity)]
    refine ⟨q - 251, _, _, hT, hn, ?_, ?_, ?_⟩
    · by_contra hc
      have h1 := hn.1
      have : (2 : ℝ) ^ 24 + 1 ≤ ((if q ≤ e then m * 2 ^ (e - q) else roundShift m (q - e) : Nat) : ℝ) := by
        exact_mod_cast (by omega : 2 ^ 24 + 1 ≤ (if q ≤ e then m * 2 ^ (e - q) else roundShift m (q - e)))
      rw [abs_le] at h1
      linarith [h1.1]
    · rcases hy23 with h | h
      · exact .inl (by omega)
      · refine .inr ⟨?_, h⟩
        by_contra hc
        have h1 := hn.1
        have : ((if q ≤ e then m * 2 ^ (e - q) else roundShift m (q - e) : Nat) : ℝ) + 1 ≤ 2 ^ 23 := by
          exact_mod_cast (by omega : (if q ≤ e then m * 2 ^ (e - q) else roundShift m (q - e)) + 1 ≤ 2 ^ 23)
        rw [abs_le] at h1
        linarith [h1.2]
    · rw [roundPack, if_neg hm0]; dsimp only; rw [hq]
  have hy0 : 0 ≤ y := by
    by_contra hc
    have : y * 2 ^ Q < 0 := mul_neg_of_neg_of_pos (by linarith) (by positivity)
    have : 0 ≤ X * 2 ^ 149 := by positivity
    linarith
  have hXy : X = y * 2 ^ Q / 2 ^ 149 := by rw [← hQy]; field_simp
  -- overflow: the packed bits pass the largest finite ones exactly from the threshold on
  have hover : 0x7F800000 ≤ Q * 2 ^ 23 + mant ↔ (2 ^ 25 - 1) * 2 ^ 103 ≤ X := by
    have hab := abs_le.1 hn.1
    have hmr : (mant : ℝ) ≤ 2 ^ 24 := by exact_mod_cast hm
    have hscale : (2 ^ 25 - 1) * 2 ^ 103 ≤ X ↔ (2 ^ 25 - 1) * (2 : ℝ) ^ 252 ≤ y * 2 ^ Q := by
      rw [← hQy]
      constructor <;> intro h
      · nlinarith
      · nlinarith
    rw [hscale]
    rcases Nat.lt_trichotomy Q 253 with h | h | h
    · refine ⟨fun hc => by omega, fun hc => ?_⟩
      exfalso
      have h1 : (2 : ℝ) ^ Q ≤ 2 ^ 252 := pow_le_pow_right₀ (by norm_num) (by omega)
      have h2 : y * 2 ^ Q ≤ (2 ^ 24 + 1 / 2) * 2 ^ 252 :=
        mul_le_mul (by linarith [hab.2]) h1 (by positivity) (by positivity)
      have : (0 : ℝ) < 2 ^ 252 := by positivity
      nlinarith
    · subst h
      have hp : (0 : ℝ) < 2 ^ 252 := by positivity
      have h253 : (2 : ℝ) ^ 253 = 2 * 2 ^ 252 := by ring
      have hiff : (2 ^ 25 - 1) * (2 : ℝ) ^ 252 ≤ y * 2 ^ 253 ↔ 2 ^ 24 - 1 / 2 ≤ y := by
        rw [h253]
        constructor <;> intro h
        · by_contra hc
          have : y * 2 ^ 252 < (2 ^ 24 - 1 / 2) * 2 ^ 252 := mul_lt_mul_of_pos_right (by linarith) hp
          linarith
        · have : (2 ^ 24 - 1 / 2) * 2 ^ 252 ≤ y * 2 ^ 252 := mul_le_mul_of_nonneg_right h hp.le
          linarith
      rw [hiff]
      constructor
      · intro h
        have : mant = 2 ^ 24 := by omega
        rw [this] at hab; push_cast at hab; linarith [hab.1]
      · intro h
        by_contra hc
        have hlt : mant + 1 ≤ 2 ^ 24 := by omega
        have hltr : (mant : ℝ) + 1 ≤ 2 ^ 24 := by exact_mod_cast hlt
        have hmr' : (mant : ℝ) = 2 ^ 24 - 1 := by
          have : (2 : ℝ) ^ 24 - 1 ≤ mant := by linarith [hab.2]
          linarith
        have htie : |y - mant| = 1 / 2 := by
          apply le_antisymm hn.1
          rw [hmr']
          exact le_trans (by linarith) (le_abs_self _)
        have h2 := hn.2 htie
        have : mant + 1 = 2 ^ 24 := by
          have : (mant : ℝ) + 1 = 2 ^ 24 := by linarith
          exact_mod_cast this
        omega
    · rcases hQ with h0 | ⟨hm23, hy23⟩
      · omega
      · refine ⟨fun _ => ?_, fun _ => by omega⟩
        have h1 : (2 : ℝ) ^ 254 ≤ 2 ^ Q := pow_le_pow_right₀ (by norm_num) (by omega)
        have h2 : (2 : ℝ) ^ 23 * 2 ^ 254 ≤ y * 2 ^ Q := mul_le_mul hy23 h1 (by positivity) hy0
        have hp : (0 : ℝ) < 2 ^ 252 := by positivity
        have h3 : (2 : ℝ) ^ 254 = 4 * 2 ^ 252 := by ring
        rw [h3] at h2
        linarith
  refine ⟨?_, ?_, ?_⟩
  · rw [hr]
    split
    · exact f32Sign_packBits s (by omega)
    · exact f32Sign_packBits s (by omega)
  · rw [habsX]
    intro hlt
    have hb : ¬ 0x7F800000 ≤ Q * 2 ^ 23 + mant := fun hc => absurd (hover.1 hc) (not_le.2 hlt)
    rw [hr, if_neg hb]
    refine ⟨isFinite_packBits s (by omega), fun v hv => ?_⟩
    rw [hXy]
    exact packBits_nearest hy0 hn hm hQ (by omega) v hv
  · rw [habsX]
    intro hge
    rw [hr, if_pos (hover.2 hge)]
    cases s <;> rfl

end Sys2Proof.Machine
end

