-- ==== Sys2Proof/Tests/Slice0.lean ====
section
/-! SUPPORT. The model's own tests: single steps on small states, expected results from spec/ (95_test_vectors.md unless another
file is named), and for every statement with hypotheses a concrete state that meets them all. -/

namespace Sys2Proof.Tests

open Sys2Proof Sys2Proof.Machine

-- One theorem after another: checked all at once they ask for more threads than the memory limit has stacks for.
set_option Elab.async false

/-! ### Helpers -/

/-- The state after a step, if there is one. -/
def after (r : Result) : Option State :=
  match r with
  | .next t => some t
  | _ => none

/-- The fault of a step, if there is one. -/
def faultOf (r : Result) : Option Fault :=
  match r with
  | .fault f => some f
  | _ => none

/-- A one-channel item holding the value `n`. -/
def item (n : Nat) : Item := BitVec.ofNat 2048 (i2f n).toNat

/-- REF-A on port P. -/
def resetP : State := { State.reset with port := .P }

/-- REF-A after `WRITE 10`, its beats and no synchroniser step (program 1, line 2). -/
def written : State :=
  { State.reset with tail := 10, ring := (List.range 10).map fun k => (k, item (k + 1)) }

/-- `written` after two steps of ST (program 1, line 8). -/
def settled : State := { written with tailv := [15, 15], cDatReady := true }

/-- REF-A with the 3-point linear axis 0..24000 and items 1..8 in the ring, settled (program 3, line 10). -/
def loaded : State :=
  { State.reset with
    tail := 8
    tailv := [12, 12]
    ring := (List.range 8).map fun k => (k, item (k + 1))
    res := 3
    fmax := 0x46BB8000
    srate := 0x473B8000
    aRes := 3
    aFmax := 0x46BB8000
    aSrate := 0x473B8000
    axis := [(0, 0x00000000), (1, 0x463B8000), (2, 0x46BB8000)]
    axisValid := true }

/-- `loaded` before the compute step of its UPDATE (program 3, line 11). -/
def computing : State :=
  { loaded with
    head := 4
    cPhase := .compute
    cDst := .analyzer
    cOff := 8
    inBuf := (List.range 8).map fun k => (k, i2f (k + 1)) }

/-- `loaded` inside the block pull of its UPDATE. -/
def pulling : State :=
  { loaded with cPhase := .beats, cDst := .analyzer, cRem := 8, cRel := 4, turns := [.agentC] }

/-- `settled` inside the beats of `READ 10, 10`. -/
def reading : State :=
  { settled with cPhase := .beats, cRem := 10, cRel := 10, turns := [.agentC] }

/-- REF-A with a WRITE of 3 under way and a beat on offer. -/
def writing : State := { State.reset with pPhase := .busy, pRem := 3, pDat := [item 7], turns := [.agentP] }

/-! ### Well-formedness: one ill-formed term per check -/

theorem test_wf_refuses_wide_operands :
    [Instr.write (2 ^ 24), .read (2 ^ 24) 0, .read 0 (2 ^ 24), .setsize (2 ^ 24), .getinfo (2 ^ 24), .getbin (2 ^ 24)].map
      Instr.wf = [false, false, false, false, false, false] := by decide

theorem test_wf_accepts_widest_operands :
    [Instr.write (2 ^ 24 - 1), .read (2 ^ 24 - 1) (2 ^ 24 - 1), .setsize (2 ^ 24 - 1), .getinfo (2 ^ 24 - 1),
      .getbin (2 ^ 24 - 1), .nready, .freesp, .reset, .rdcsr 0xFFF, .wrcsr 0xFFF 0xFFFFFFFF, .axbuild, .update].all
      Instr.wf = true := by decide

/-- 00_scope.md R6: REF-A is well formed, and a record that breaks one constraint is not (U2). -/
theorem test_configuration_checks :
    Config.refA.wf = true ∧
    [ { Config.refA with nCh := 0 }, { Config.refA with nCh := 65 }, { Config.refA with depth := 17 },
      { Config.refA with depth := 0, capReset := 0 }, { Config.refA with depth := 2 ^ 24 },
      { Config.refA with capReset := 15 }, { Config.refA with capReset := 0 }, { Config.refA with capReset := 18 },
      { Config.refA with syncStages := 1 },
      { Config.refA with fftSize := 6, win := List.replicate 6 0 },
      { Config.refA with fftSize := 1, win := [0] }, { Config.refA with fftSize := 2 ^ 24 },
      { Config.refA with k := 1 }, { Config.refA with resMax := 1 }, { Config.refA with resMax := 2 ^ 24 + 1 },
      { Config.refA with win := List.replicate 7 0 }, { Config.refA with win := List.replicate 8 0x7F800000 } ].all
      (fun p => State.start p == none) = true := by decide +kernel

/-! ### Decoding: words written out from 30_encoding.md R93, R94, R97, R104 and from section 2.3 -/

theorem test_decode_ring_family :
    [0x010000000000000A, 0x0200000400000008, 0x0300000000000000, 0x0400000000000000, 0x0500000000000000,
      0x0600000000000008].map (decodeTableWord 64) =
    [some (.write 10), some (.read 8 4), some .nready, some .freesp, some .reset, some (.setsize 8)] := by decide

theorem test_decode_config_family :
    [0x1000000100000000, 0x1100001142C80000, 0x1200000000000000].map (decodeTableWord 64) =
    [some (.rdcsr 0x001), some (.wrcsr 0x011 0x42C80000), some .axbuild] := by decide

theorem test_decode_analyzer_family :
    [0x2000000000000000, 0x2100000000000003, 0x2200000000000000].map (decodeTableWord 64) =
    [some .update, some (.getinfo 3), some (.getbin 0)] := by decide

theorem test_decode_rejects_by_name :
    decode 0x0000000000000000 = .error (.reservedOpcode 0x00) ∧
    decode 0x0100000100000003 = .error (.mustBeZero 0x01) ∧
    decode 0x0100000001000000 = .error (.mustBeZero 0x01) ∧
    decode 0x0200000301000002 = .error (.mustBeZero 0x02) ∧
    decode 0x0300000000000001 = .error (.mustBeZero 0x03) ∧
    decode 0x0700000000000000 = .error (.reservedOpcode 0x07) ∧
    decode 0x1000100000000000 = .error (.mustBeZero 0x10) ∧
    decode 0x1000000000000001 = .error (.mustBeZero 0x10) ∧
    decode 0xFFFFFFFFFFFFFFFF = .error (.reservedOpcode 0xFF) := by
  refine ⟨rfl, rfl, rfl, rfl, rfl, rfl, rfl, rfl, rfl⟩

/-- The first step after reset runs the word placed for it, one word per row; the responses are those of section 2.2 to 2.4
and programs 1 and 3. -/
theorem test_first_step_runs_each_row :
    [0x0100000000000003, 0x0200000400000008, 0x0300000000000000, 0x0400000000000000, 0x0500000000000000,
      0x0600000000000008, 0x1000000000000000, 0x1100001000000005, 0x1200000000000000, 0x2000000000000000,
      0x2100000000FFFFFF, 0x2200000000000000].map
      (fun w => (after (step (State.reset.withFetchWord 64 w))).map fun t => t.pRsp ++ t.cRsp) =
    [some [respWord .ok 0 0], some [respWord .fail 0 0], some [respWord .ok 0 0], some [respWord .ok 0 15],
      some [respWord .ok 0 0], some [respWord .ok 0 0], some [respWord .ok 0 16], some [respWord .ok 0 0],
      some [respWord .errCfg 0 0], some [respWord .errState 0 0], some [respWord .errState 0 0],
      some [respWord .ok 0 0]] := by decide +kernel

/-! ### Pointer code and views (10_state.md R24; section 2.1) -/

theorem test_pointer_code_tables :
    (List.range 16).map (ptrCode 4 16) = [0, 1, 3, 2, 6, 7, 5, 4, 12, 13, 15, 14, 10, 11, 9, 8] ∧
    (List.range 10).map (ptrCode 4 10) = [2, 6, 7, 5, 4, 12, 13, 15, 14, 10] ∧
    (List.range 8).map (ptrCode 4 8) = [6, 7, 5, 4, 12, 13, 15, 14] ∧
    (List.range 2).map (ptrCode 4 2) = [4, 12] ∧
    (List.range 6).map (ptrCode 3 6) = [1, 3, 2, 6, 7, 5] ∧
    (List.range 2).map (ptrCode 1 2) = [0, 1] := by decide +kernel

theorem test_pointer_decode :
    ptrDecode 4 8 6 = 0 ∧ ptrDecode 4 8 14 = 7 ∧ ptrDecode 4 16 15 = 10 ∧ ptrDecode 4 16 8 = 15 := by decide +kernel

theorem test_sync_tail_shifts :
    (syncTail written).tailv = [15, 0] ∧ (syncTail (syncTail written)).tailv = [15, 15] := by decide +kernel

/-! ### Ring buffer (section 2.2, programs 1, 2 and 4) -/

theorem test_write_admits_free_space :
    (after (exec (.write 15) resetP)).map (fun t => (t.pPhase, t.pRem, t.pRsp)) = some (.busy, 15, [respWord .ok 0 0]) := by
  decide +kernel

theorem test_write_overrun_fails :
    (after (exec (.write 16) resetP)) = some { resetP with pRsp := [respWord .fail 0 0] } := by decide +kernel

theorem test_write_beat_wraps :
    (after (step { writing with tail := 15, pRem := 1 })).map (fun t => (t.tail, t.pPhase, Memory.read none t.ring 15)) =
      some (0, .idle, some (item 7)) := by decide +kernel

theorem test_read_needs_settled_tail :
    (after (exec (.read 10 10) written)).map (fun t => t.cRsp) = some [respWord .fail 0 0] ∧
    (after (exec (.read 10 10) settled)).map (fun t => (t.cPhase, t.cRem, t.cRel, t.cRsp)) =
      some (.beats, 10, 10, [respWord .ok 0 0]) := by decide +kernel

/-- Section 2.7: ERR_OPERAND before FAIL. -/
theorem test_read_operand_before_fail :
    (after (exec (.read 12 13) settled)).map (fun t => t.cRsp) = some [respWord .errOperand 0 0] := by decide +kernel

theorem test_nready_on_both_ports :
    (after (exec .nready { written with port := .P })).map (fun t => t.pRsp) = some [respWord .ok 0 10] ∧
    (after (exec .nready written)).map (fun t => t.cRsp) = some [respWord .ok 0 0] := by decide +kernel

/-- Program 4, line 8: the four counts after `READ 3, 1` with the head not yet crossed. -/
theorem test_counts_with_lagging_head :
    let s : State := { State.reset with tail := 3, head := 1, tailv := [2, 2] }
    (freeP s, freeC s, occP s, readyC s) = (12, 13, 3, 2) := by decide +kernel

/-- 40_ring_buffer.md R140, worked example. -/
theorem test_reset_clears :
    (after (exec .reset { settled with head := 4 })).map (fun t => (t.head, t.tail, t.tailv, t.headv, t.ring.length)) =
      some (0, 0, [0, 0], [0, 0], 10) := by decide +kernel

theorem test_reset_with_busy_producer_faults :
    faultOf (exec .reset { State.reset with pPhase := .busy }) = some .resetWhileProducerActive := by decide +kernel

/-- 40_ring_buffer.md R141, worked example. -/
theorem test_setsize_resizes :
    (after (exec (.setsize 8) settled)).map (fun t => (t.capacity, t.head, t.tail, t.tailv, t.headv)) =
      some (8, 0, 0, [6, 6], [6, 6]) := by decide +kernel

/-- Section 2.2 and 2.7: illegal capacities, tested before the idle precondition. -/
theorem test_setsize_refuses :
    [0, 1, 7, 15, 17, 18, 0xFFFFFF].map
      (fun cap => (after (exec (.setsize cap) { State.reset with pPhase := .busy })).map fun t => t.cRsp) =
    List.replicate 7 (some [respWord .errCfg 0 0]) := by decide +kernel

theorem test_wrong_port_is_illegal :
    (after (exec (.write 3) State.reset)) = some { State.reset with cRsp := [respWord .errIllegal 0 0] } ∧
    (after (exec .reset resetP)) = some { resetP with pRsp := [respWord .errIllegal 0 0] } := by decide +kernel

theorem test_host_offer_in_window_faults :
    faultOf (step { State.reset with turns := [.offerP 0x0300000000000000], cCmd := [0x0500000000000000] }) =
      some .producerNotQuiescent ∧
    faultOf (step { State.reset with turns := [.offerP 0x0300000000000000], quiet := 1 }) =
      some .producerNotQuiescent ∧
    faultOf (step { State.reset with turns := [.offerC 0x0500000000000000], pPhase := .busy }) =
      some .producerNotQuiescent ∧
    (after (step { State.reset with turns := [.offerC 0x0500000000000000] })).map (fun t => t.cCmd) =
      some [0x0500000000000000] := by decide +kernel

/-! ### Control registers and axis (section 2.4) -/

theorem test_rdcsr_reset_values :
    [0x000#12, 0x001#12, 0x002#12, 0x003#12, 0x004#12, 0x005#12, 0x006#12, 0x007#12, 0x010#12, 0x022#12, 0x023#12].map
      (fun a => (after (exec (.rdcsr a) State.reset)).map fun t => t.cRsp) =
    [16, 0, 16, 8, 1, 5, 8, 1, 0, 1, 0].map (fun v => some [respWord .ok 0 v]) := by decide +kernel

theorem test_rdcsr_unpopulated :
    [0x008#12, 0x00F#12, 0x016#12, 0x01F#12, 0x024#12, 0xFFF#12].map
      (fun a => (after (exec (.rdcsr a) State.reset)).map fun t => t.cRsp) =
    List.replicate 6 (some [respWord .errOperand 0 0]) := by decide +kernel

theorem test_wrcsr_stores :
    (after (exec (.wrcsr 0x010 5) State.reset)) = some { State.reset with res := 5, cRsp := [respWord .ok 0 0] } := by
  decide +kernel

/-- Sections 2.3 and 2.7. -/
theorem test_wrcsr_refuses :
    [(0x000#12, 8#32), (0x001#12, 7#32), (0x015#12, 2#32), (0x013#12, 2#32), (0x016#12, 0xFFFFFFFF#32)].map
      (fun a => (after (exec (.wrcsr a.1 a.2) State.reset)).map fun t => t.cRsp) =
    [some [respWord .errOperand 0 0], some [respWord .errOperand 0 0], some [respWord .errCfg 0 0],
      some [respWord .errCfg 0 0], some [respWord .errOperand 0 0]] := by decide +kernel

/-- The validation table of section 2.4: (RES, FMIN, FMAX, DIST, SRATE). -/
theorem test_axbuild_validation_table :
    ([(0, 0, 0, 0, 0), (1, 0, 0x447A0000, 0, 0x473B8000), (9, 0, 0x447A0000, 0, 0x473B8000),
      (8, 0, 0x447A0000, 0, 0x473B8000), (5, 0x42C80000, 0x42C80000, 0, 0x473B8000),
      (5, 0x43480000, 0x42C80000, 0, 0x473B8000), (5, 0, 0x447A0000, 1, 0x473B8000),
      (5, 0x80000000, 0x447A0000, 1, 0x473B8000), (5, 0x80000000, 0x447A0000, 0, 0x473B8000),
      (5, 0xBF800000, 0x447A0000, 0, 0x473B8000), (5, 0, 0x447A0000, 0, 0), (5, 0, 0x447A0000, 0, 0xC73B8000),
      (5, 0, 0x7F800000, 0, 0x473B8000), (5, 0x7FC00000, 0x447A0000, 0, 0x473B8000), (5, 0, 0x447A0000, 0, 0x7F800000),
      (5, 0x42C80000, 0x44C80000, 1, 0x473B8000), (5, 0, 0x46EA6000, 0, 0x473B8000)] :
      List (Word × Word × Word × Word × Word)).map
      (fun (r, lo, hi, d, sr) => axisAccepted 8 r lo hi d sr) =
    [false, false, false, true, false, false, false, false, true, false, false, false, false, false, false, true, true] := by
  decide +kernel

/-- 41_csr_and_config.md R165 and section 2.4: linear axes of 5 points 0..1000 and 8 points 0..24000. -/
theorem test_axbuild_linear :
    (after (exec .axbuild { State.reset with res := 5, fmax := 0x447A0000, srate := 0x473B8000 })).map
      (fun t => (t.axis.map Prod.snd, t.aRes, t.axisValid, t.cRsp)) =
      some ([0x00000000, 0x437A0000, 0x43FA0000, 0x443B8000, 0x447A0000], 5, true, [respWord .ok 0 5]) ∧
    (after (exec .axbuild { State.reset with res := 8, fmax := 0x46BB8000, srate := 0x473B8000 })).map
      (fun t => t.axis.map Prod.snd) =
      some [0x00000000, 0x45564925, 0x45D64925, 0x4620B6DC, 0x46564925, 0x4685EDB7, 0x46A0B6DC, 0x46BB8000] := by
  decide +kernel

/-! ### Analyzer (section 2.5) -/

/-- 42_spectral_analyzer.md R189. -/
theorem test_twiddle_rom :
    (List.range 4).map (Rom.twr 8) = [0x3F800000, 0x3F3504F3, 0x00000000, 0xBF3504F3] ∧
    (List.range 4).map (Rom.twi 8) = [0x00000000, 0xBF3504F3, 0xBF800000, 0xBF3504F3] ∧
    (List.range 2).map (Rom.twr 4) = [0x3F800000, 0x00000000] ∧ (List.range 2).map (Rom.twi 4) = [0x00000000, 0xBF800000] ∧
    Rom.twr 2 0 = 0x3F800000 ∧ Rom.twi 2 0 = 0x00000000 := by decide +kernel

theorem test_hann_rom :
    Rom.hannWindow 8 = [0x00000000, 0x3E40C5F2, 0x3F1C7B91, 0x3F7352F3, 0x3F7352F3, 0x3F1C7B91, 0x3E40C5F2, 0x00000000] := by
  decide +kernel

/-- A NaN draw for tests, which no finite computation uses. -/
def noNaN : Config.DrawSite → BitVec 24 := fun _ => 0

theorem test_channel_sum :
    channelSum noNaN 2 0x3F0000003F800000 = 0x3FC00000 ∧ channelSum noNaN 1 0x3F0000003F800000 = 0x3F800000 := by
  decide +kernel

/-- The row before the ramps, where rounding shows, and the ramp 1..8. -/
theorem test_fft_magnitudes :
    magnitudes noNaN 4 (fft noNaN 8 3 [0x3F800000, 0x3F3504F3, 0, 0xBF3504F3, 0xBF800000, 0xBF3504F3, 0, 0x3F3504F3]) =
      [0, 0x40800000, 0, 0x34000000] ∧
    magnitudes noNaN 4 (fft noNaN 8 3 ((List.range 8).map fun j => i2f (j + 1))) =
      [0x42100000, 0x41273D75, 0x40B504F3, 0x408A8BD4] := by decide +kernel

theorem test_fft_other_sizes :
    magnitudes noNaN 2 (fft noNaN 4 2 [0x3F800000, 0x40000000, 0x40400000, 0x40800000]) = [0x41200000, 0x403504F3] ∧
    magnitudes noNaN 1 (fft noNaN 2 1 [0x40400000, 0xC0A00000]) = [0x40000000] := by decide +kernel

theorem test_update_check_starts_pull :
    (after (exec .update loaded)).map (fun t => (t.cPhase, t.cDst, t.cRem, t.cRel, t.cRsp)) =
      some (.beats, .analyzer, 8, 4, []) := by decide +kernel

theorem test_update_state_before_fail :
    (after (exec .update State.reset)).map (fun t => t.cRsp) = some [respWord .errState 0 0] ∧
    (after (exec .update { loaded with tailv := [12, 0] })).map (fun t => t.cRsp) = some [respWord .fail 0 0] := by
  decide +kernel

/-- Program 3, line 11: the compute step of the first tick. -/
theorem test_compute_first_tick :
    (after (step { computing with turns := [.agentC] })).map
      (fun t => (t.avg.map Prod.snd, t.rngMin, t.rngMax, t.out.map Prod.snd)) =
    some ([0x41100000, 0x40273D75, 0x3FB504F3, 0x3F8A8BD4, 0x41100000, 0x40273D75, 0x3FB504F3, 0x3F8A8BD4],
      0x3F8A8BD4, 0x41100000, [0x41100000, 0x40273D75, 0x3FB504F3]) := by decide +kernel

theorem test_compute_answers :
    (after (step { computing with turns := [.agentC] })).map (fun t => (t.avgPtr, t.sticky, t.dataValid, t.cRsp)) =
    some (2, true, true, [respWord .ok 0 0]) := by decide +kernel

/-- The table of section 2.5: after four frames of weighted 2.0, a silent frame takes the oldest out. -/
theorem test_average_is_boxcar :
    let avg : Memory Word := [(0, 0x41000000), (1, 0x40000000), (2, 0x40000000), (3, 0x40000000), (4, 0x40000000)]
    average noNaN 1 2 0x3E800000 [0] avg = [(0, 0x40C00000), (1, 0x40000000), (3, 0x40000000), (4, 0x40000000)] ∧
    nextAvgPtr 5 4 = 1 ∧ nextAvgPtr 5 1 = 2 := by decide +kernel

/-! ### Interpolator and read-out (section 2.6) -/

/-- The spectrum of section 2.6. -/
def spectrumOf26 : List Word := [0x41100000, 0x40273D75, 0x3FB504F3, 0x3F8A8BD4]

theorem test_interpolate_five_points :
    let fs : List Word := [0x00000000, 0x45BB8000, 0x463B8000, 0x468CA000, 0x46BB8000]
    (interpPass noNaN 4 0 0x473B8000 spectrumOf26 fs).out = [0x41100000, 0x40273D75, 0x3FB504F3, 0x3FB504F3, 0x3F8A8BD4] ∧
    (interpPass noNaN 4 1 0x473B8000 spectrumOf26 fs).out = [0x41100000, 0x4086B70C, 0x4000DFF7, 0x3FAA66AB, 0x3F8A8BD4] := by
  decide +kernel

/-- The row 4 pts 0..36000: above Nyquist the interval is empty and the last bin is taken. -/
theorem test_interpolate_above_nyquist :
    (interpPass noNaN 4 1 0x473B8000 spectrumOf26 [0x00000000, 0x463B8000, 0x46BB8000, 0x470CA000]).out =
      [0x41100000, 0x40273D75, 0x3FB504F3, 0x3F8A8BD4] := by decide +kernel

theorem test_getinfo_reads_frame :
    let s : State := { loaded with out := [(0, 0x41100000), (1, 0x40273D75), (2, 0x3FB504F3)] }
    (after (exec (.getinfo 1) s)).map (fun t => t.cRsp) = some [0x00463B800040273D75] ∧
    (after (exec (.getinfo 3) s)).map (fun t => t.cRsp) = some [0x030000000000000000] := by decide +kernel

theorem test_getbin_bounds :
    (after (exec (.getbin 4) State.reset)).map (fun t => t.cRsp) = some [respWord .errOperand 0 0] ∧
    (after (exec (.getbin 0) { State.reset with avg := [(0, 0x41100000)] })).map (fun t => t.cRsp) =
      some [respWord .ok 0 0x41100000] := by decide +kernel

/-! ### Binary32 corners (00_scope.md R9, IEEE-754) -/

/-- Halfway cases go to even, the largest finite value overflows, the smallest subnormal underflows to zero. -/
theorem test_rounding_corners :
    fadd 0 0x4B800000 0x3F800000 = 0x4B800000 ∧ fadd 0 0x4B800001 0x3F800000 = 0x4B800002 ∧
    fadd 0 0x7F7FFFFF 0x7F7FFFFF = 0x7F800000 ∧ fmul 0 0x00000001 0x3F000000 = 0x00000000 ∧
    fdiv 0 0x3F800000 0x40400000 = 0x3EAAAAAB ∧ fsqrt 0 0x40000000 = 0x3FB504F3 := by decide +kernel

theorem test_special_values :
    fadd 0 0x80000000 0x00000000 = 0x00000000 ∧ fadd 0 0x80000000 0x80000000 = 0x80000000 ∧
    fdiv 0 0x3F800000 0x80000000 = 0xFF800000 ∧ fsqrt 0 0x80000000 = 0x80000000 ∧
    isNaN (fsub 0 0x7F800000 0x7F800000) = true ∧ isNaN (fmul 0 0x7F800000 0) = true ∧
    isNaN (nanOf 0) = true ∧ flt 0x7FC00000 0 = false ∧ flt 0x80000000 0x00000000 = false := by decide +kernel

/-! ### States that meet the hypotheses of the statements -/

theorem computing_inv : Inv computing :=
  ⟨by constructor <;> decide +kernel, by constructor <;> decide +kernel, by constructor <;> decide +kernel,
    by constructor <;> decide +kernel⟩

theorem settled_inv : Inv settled :=
  ⟨by constructor <;> decide +kernel, by constructor <;> decide +kernel, by constructor <;> decide +kernel,
    by constructor <;> decide +kernel⟩

theorem loaded_inv : Inv loaded :=
  ⟨by constructor <;> decide +kernel, by constructor <;> decide +kernel, by constructor <;> decide +kernel,
    by constructor <;> decide +kernel⟩

theorem witness_DecodeOfEncode : (Instr.read (2 ^ 24 - 1) (2 ^ 24 - 1)).wf = true ∧ (Instr.write 0).wf = true := by decide

theorem witness_EncodeOfDecode : decode 0x02FFFFFF00FFFFFF = .ok (.read 0xFFFFFF 0xFFFFFF) := rfl

/-- Clauses 2 to 5: a word of a row, and a word that is no command and one on the wrong port. -/
theorem witness_DecoderFollowsOpcodeMap :
    (0x0100000000FFFFFF#64 &&& (rowOf (.write 5)).mask = (rowOf (.write 5)).pattern) ∧
    decode 0x0100000000000003 = .ok (.write 3) ∧ (Instr.write 3).legalOn State.reset.port = false ∧
    decode 0x0000000000000000 = .error (.reservedOpcode 0) := ⟨by decide, rfl, by decide, rfl⟩

theorem witness_StepRunsDecodedCommandOnP :
    let s : State := { State.reset with turns := [.agentP], pCmd := [0x0100000000000003] }
    s.turns = [.agentP] ∧ s.pPhase = .idle ∧ s.pCmd = [0x0100000000000003] ∧
      decode 0x0100000000000003 = .ok (.write 3) := ⟨rfl, rfl, rfl, rfl⟩

/-- Both clauses: a READ, and a RESET that is executed and one that faults. -/
theorem witness_StepRunsDecodedCommandOnC :
    (decode 0x0200000400000008 = .ok (.read 8 4)) ∧ (decode 0x0500000000000000 = .ok .reset) ∧
    (let s : State := { State.reset with turns := [.agentC], cCmd := [0x0500000000000000] }
     s.cPhase = .idle ∧ (after (exec .reset { s with turns := [], port := .C, cCmd := [] })).isSome = true ∧
       (faultOf (exec .reset { s with turns := [], port := .C, cCmd := [], pPhase := .busy })).isSome = true) := by
  refine ⟨rfl, rfl, ?_⟩; decide +kernel

theorem witness_NoCommandAnswersIllegal :
    decode 0x0700000000000000 = .error (.reservedOpcode 7) ∧
    (let s : State := { State.reset with turns := [.agentC], cCmd := [0x0700000000000000] }
     s.cPhase = .idle) ∧
    (let s : State := { State.reset with turns := [.agentP], pCmd := [0x0700000000000000] }
     s.pPhase = .idle) := ⟨rfl, rfl, rfl⟩

/-- P in BUSY, and C in BEATS, in RELEASE and in COMPUTE, each with a command waiting. -/
theorem witness_BusyPortTakesNoCommand :
    (after (step { writing with pCmd := [0x0300000000000000] })).isSome = true ∧ writing.pPhase = .busy ∧
    (after (step { reading with cCmd := [0x0300000000000000] })).isSome = true ∧ reading.cPhase = .beats ∧
    (let s : State := { settled with turns := [.agentC], cPhase := .release, cRel := 1, cCmd := [0x0300000000000000] }
     (after (step s)).isSome = true ∧ s.cPhase = .release) ∧
    (let s : State := { computing with turns := [.agentC], cCmd := [0x0300000000000000] }
     (after (step s)).isSome = true ∧ s.cPhase = .compute) := by
  decide +kernel

/-- On port P, on port C, and an admitted UPDATE. -/
theorem witness_OneResponsePerCommand :
    (after (exec (.write 3) resetP)).isSome = true ∧ (after (exec (.read 1 1) settled)).isSome = true ∧
    (after (exec .update loaded)).isSome = true := by decide +kernel

theorem witness_NonOkStatusChangesNothing :
    (after (exec (.write 16) resetP)).map (fun t => t.pRsp) = some (resetP.pRsp ++ [respWord .fail 0 0]) ∧
    (respWord .fail 0 0).extractLsb' 64 8 ≠ Status.ok.code := by decide +kernel

theorem witness_StatusesOfEachCommand :
    (after (exec (.getinfo 99) State.reset)).map (fun t => t.cRsp) = some (State.reset.cRsp ++ [respWord .errState 0 0]) := by
  decide +kernel

/-- The step clause; and n at, above and below the free space, and n = 0. -/
theorem witness_WriteCheckStep :
    (let s : State := { State.reset with turns := [.agentP], pCmd := [encode (.write 15)] }
     s.pPhase = .idle ∧ s.turns = [.agentP] ∧ 15 < 2 ^ 24) ∧
    resetP.port = .P ∧ resetP.capacity - modC ((resetP.tail : Int) - headView resetP) resetP.capacity - 1 = 15 := by
  decide +kernel

theorem witness_WriteBeatStep :
    writing.turns = [.agentP] ∧ writing.pPhase = .busy ∧ writing.pDat = [item 7] ∧ writing.tail < writing.cfg.depth ∧
      Memory.wf none writing.ring = true := by decide +kernel

/-- The step clause; and ready = 10, so that n = 10 is admitted, 11 fails, 0 does nothing and c = n + 1 is refused. -/
theorem witness_ReadCheckStep :
    (let s : State := { settled with turns := [.agentC], cCmd := [encode (.read 10 10)] }
     s.cPhase = .idle ∧ s.turns = [.agentC]) ∧
    settled.port = .C ∧ modC (tailView settled - (settled.head : Int)) settled.capacity = 10 := by decide +kernel

/-- Accepted and not accepted. -/
theorem witness_BeatToPort :
    reading.turns = [.agentC] ∧ reading.cPhase = .beats ∧ reading.cDst = .port ∧ reading.cDatReady = true ∧
      Memory.read none reading.ring ((reading.head + reading.cOff) % reading.capacity) = some (item 1) ∧
      ({ reading with cDatReady := false } : State).cDatReady = false := by decide +kernel

/-- With one channel, and with two. -/
theorem witness_BeatToAnalyzer :
    pulling.turns = [.agentC] ∧ pulling.cPhase = .beats ∧ pulling.cDst = .analyzer ∧ pulling.cOff < pulling.cfg.fftSize ∧
      Memory.read none pulling.ring ((pulling.head + pulling.cOff) % pulling.capacity) = some (item 1) ∧
      Memory.wf none pulling.inBuf = true ∧ pulling.cfg.nCh = 1 ∧
      ({ pulling with cfg := { Config.refA with nCh := 2 } } : State).cfg.nCh = 2 := by decide +kernel

theorem witness_ReleaseMovesHead :
    let s : State := { settled with turns := [.agentC], cPhase := .release, cRel := 1 }
    s.turns = [.agentC] ∧ s.cPhase = .release := by decide

theorem witness_NreadyAnswersCount : resetP.port = .P ∧ State.reset.port = .C := by decide

theorem witness_FreespAnswersSpace : resetP.port = .P ∧ State.reset.port = .C := by decide

theorem witness_CountsReserveOneSlot : 0 < State.reset.capacity := by decide

/-- `settled` on port P. -/
def settledP : State := { settled with port := .P }

theorem settledP_inv : Inv settledP where
  ring := by constructor <;> decide +kernel
  transfer := by constructor <;> decide +kernel
  store := by constructor <;> decide +kernel
  window := by constructor <;> decide +kernel

theorem witness_FreespDecidesNextWrite : Inv settledP ∧ settledP.port = .P ∧ freeP settledP = 5 :=
  ⟨settledP_inv, rfl, by decide +kernel⟩

theorem witness_ResetClearsPointers :
    settled.port = .C ∧ settled.pPhase = .idle ∧ ({ settled with pPhase := .busy } : State).pPhase = .busy := by decide

/-- 2 and DEPTH are accepted, 1, 7 and DEPTH + 2 are not. -/
theorem witness_SetsizeResizes :
    State.reset.port = .C ∧ State.reset.pPhase = .idle ∧ State.reset.cfg.depth = 16 ∧ writing.port = .C ∧
      writing.pPhase = .busy := by decide

theorem witness_SyncTailStep :
    let s : State := { written with turns := [.agentST] }
    s.turns = [.agentST] ∧ s.tailv.length = s.cfg.syncStages ∧ 1 ≤ s.cfg.syncStages := by decide +kernel

theorem witness_SyncHeadStep :
    let s : State := { written with turns := [.agentSH] }
    s.turns = [.agentSH] ∧ s.headv.length = s.cfg.syncStages ∧ 1 ≤ s.cfg.syncStages := by decide +kernel

theorem witness_PointerCodeDecodes : 10 % 2 = 0 ∧ 2 ≤ 10 ∧ 10 ≤ 2 ^ 4 ∧ 9 < 10 := by decide

theorem witness_PointerCodeChangesOneBit : 2 % 2 = 0 ∧ 2 ≤ 2 ∧ 2 ≤ 2 ^ 1 ∧ 1 < 2 := by decide

theorem witness_ViewsSettle : RingInv settled ∧ settled.cfg.syncStages ≤ 2 := ⟨settled_inv.ring, by decide⟩

theorem witness_RstRestoresResetValues : ({ computing with turns := [.rst] } : State).turns = [.rst] := rfl

theorem witness_ResetMeetsInvariant : ({ Config.refA with nCh := 2, k := 2 } : Config.Params).wf = true := by decide +kernel

theorem witness_StepKeepsInvariant : Inv computing ∧ (after (step computing)).isSome = true :=
  ⟨computing_inv, by decide +kernel⟩

theorem witness_PointersStayOrdered : Inv settled := settled_inv

theorem witness_OnlyTheHostCausesFaults : Inv computing := computing_inv

/-- A tail moved by P, a head moved by C, a capacity changed by SETSIZE. -/
theorem witness_PointerOwnership :
    (after (step writing)).map (fun t => t.tail) = some 1 ∧
    (after (step { settled with turns := [.agentC], cPhase := .release, cRel := 1 })).map (fun t => t.head) = some 1 ∧
    (after (step { State.reset with turns := [.agentC], cCmd := [0x0600000000000008] })).map (fun t => t.capacity) =
      some 8 := by decide +kernel

theorem settled_turn_inv : Inv { settled with turns := [.agentST] } :=
  ⟨by constructor <;> decide +kernel, by constructor <;> decide +kernel, by constructor <;> decide +kernel,
    by constructor <;> decide +kernel⟩

theorem witness_RingIsQueue :
    Inv { settled with turns := [.agentST] } ∧ (after (step { settled with turns := [.agentST] })).isSome = true :=
  ⟨settled_turn_inv, by decide +kernel⟩

/-- A WRITE of 5, exactly the free space, with its beats and one more on offer. -/
def writeFive : State :=
  { settled with
    pCmd := [encode (.write 5)], pDat := List.replicate 6 (item 7), turns := List.replicate (1 + 5) .agentP ++ [] }

theorem witness_WriteRunsToCompletion :
    Inv writeFive ∧ writeFive.pPhase = .idle ∧ writeFive.pCmd = [encode (.write 5)] ∧ 5 ≤ writeFive.pDat.length ∧
      5 ≤ freeP writeFive ∧ writeFive.turns = List.replicate (1 + 5) .agentP ++ [] :=
  ⟨⟨by constructor <;> decide +kernel, by constructor <;> decide +kernel, by constructor <;> decide +kernel,
    by constructor <;> decide +kernel⟩, by decide +kernel⟩

/-- A READ of all ten items that keeps four. -/
def readTen : State :=
  { settled with cCmd := [encode (.read 10 6)], turns := List.replicate (1 + 10 + 6) .agentC ++ [] }

theorem witness_ReadRunsToCompletion :
    Inv readTen ∧ readTen.cPhase = .idle ∧ readTen.cCmd = [encode (.read 10 6)] ∧ readTen.cDatReady = true ∧
      10 ≤ readyC readTen ∧ readTen.turns = List.replicate (1 + 10 + 6) .agentC ++ [] :=
  ⟨⟨by constructor <;> decide +kernel, by constructor <;> decide +kernel, by constructor <;> decide +kernel,
    by constructor <;> decide +kernel⟩, by decide +kernel⟩

/-- An UPDATE on exactly one block. -/
def updateOne : State := { loaded with cCmd := [encode .update], turns := List.replicate (1 + 8 + 4 + 1) .agentC ++ [] }

theorem witness_UpdateRunsToCompletion :
    Inv updateOne ∧ updateOne.cPhase = .idle ∧ updateOne.cCmd = [encode .update] ∧ updateOne.axisValid = true ∧
      updateOne.cfg.fftSize ≤ readyC updateOne ∧
      updateOne.turns =
        List.replicate (1 + updateOne.cfg.fftSize + (updateOne.cfg.fftSize - updateOne.cfg.keep) + 1) .agentC ++ [] :=
  ⟨⟨by constructor <;> decide +kernel, by constructor <;> decide +kernel, by constructor <;> decide +kernel,
    by constructor <;> decide +kernel⟩, by decide +kernel⟩

/-- Two states that differ in HEAD, the TAILV stages and the analyzer look alike to P. -/
theorem witness_ProducerSeesOnlyItsDomain :
    let s1 : State := { written with turns := [.agentP], pCmd := [encode .freesp] }
    let s2 : State := { s1 with head := 3, tailv := [15, 15], avgPtr := 4, rngMax := 7 }
    s1.turns = [.agentP] ∧ s2.turns = [.agentP] ∧ producerView s1 = producerView s2 ∧ s1 ≠ s2 ∧
      (after (step s1)).isSome = true := by decide +kernel

theorem witness_AverageChangesOnlyInCompute : (after (step { loaded with turns := [.agentC] })).isSome = true := by
  decide +kernel

theorem witness_RdcsrReadsRegisterMap : State.reset.port = .C := rfl

/-- Both ranges of a mode value at their boundary. -/
theorem witness_WrcsrStoresOrRefuses : State.reset.port = .C ∧ (1#32).toNat ≤ 1 ∧ 1 < (2#32).toNat := by decide

theorem witness_AxbuildRefusesBadConfiguration : State.reset.port = .C ∧ State.reset.res.toNat < 2 := by decide

/-- A linear configuration, and a logarithmic one. -/
theorem witness_AxbuildCommitsConfiguration :
    let s : State := { State.reset with res := 8, fmax := 0x46BB8000, srate := 0x473B8000 }
    let u : State := { s with dist := 1, fmin := 0x42C80000 }
    [s, u].all (fun s => decide (s.port = .C) && Memory.wf none s.axis && decide (2 ≤ s.res.toNat) &&
      decide (s.res.toNat ≤ s.cfg.resMax) && isFinite s.fmin && isFinite s.fmax && isFinite s.srate &&
      fgt s.srate 0 && flt s.fmin s.fmax && (decide (s.dist ≠ 1) || fgt s.fmin 0) &&
      (decide (s.dist ≠ 0) || !flt s.fmin 0)) = true := by decide +kernel

/-- A positive minimum, and −0.0. -/
theorem witness_LinearAxisEndpoints :
    2 ≤ 5 ∧ 5 ≤ 2 ^ 24 ∧ isFinite 0x42C80000 = true ∧ isFinite 0x44C80000 = true ∧ flt 0x42C80000 0x44C80000 = true ∧
      flt 0x42C80000 0 = false ∧ isFinite 0x80000000 = true ∧ flt 0x80000000 0x44C80000 = true ∧
      flt 0x80000000 0 = false := by decide +kernel

/-- The three clauses: no axis, too few items, exactly FFT_SIZE items. -/
theorem witness_UpdateCheckStep :
    State.reset.port = .C ∧ State.reset.axisValid = false ∧ loaded.port = .C ∧ loaded.axisValid = true ∧
      modC (tailView loaded - (loaded.head : Int)) loaded.capacity = loaded.cfg.fftSize ∧
      modC (tailView { loaded with head := 1 } - 1) loaded.capacity < loaded.cfg.fftSize := by decide +kernel

theorem witness_ComputeStepRecordsTick :
    Inv { computing with turns := [.agentC] } ∧ computing.cPhase = .compute :=
  ⟨⟨by constructor <;> decide +kernel, by constructor <;> decide +kernel, by constructor <;> decide +kernel,
    by constructor <;> decide +kernel⟩, rfl⟩

theorem witness_AveragingStep : 1 ≤ 4 ∧ Memory.wf zeroed [(0, 0x41000000#32), (5, 0x40000000#32)] = true := by decide +kernel

theorem witness_NanStaysInRunningSum :
    1 ≤ 1 ∧ Memory.wf zeroed [(0, 0x7FC00000#32)] = true ∧ 0 < 4 ∧
      isNaN (Memory.readZ [(0, 0x7FC00000#32)] 0) = true := by decide +kernel

/-- Four different indexes; and in stage 2 the two butterflies of one group, and two of different groups. -/
theorem witness_ButterfliesOfAStageCommute :
    (0 ≠ 2 ∧ 1 ≠ 3 ∧ 0 ≠ 1 ∧ 0 ≠ 3 ∧ 2 ≠ 1 ∧ 2 ≠ 3) ∧
    (0 < 2 ^ 2 / 2 ∧ 1 < 2 ^ 2 / 2 ∧ (0, 0) ≠ (0, 1)) ∧ ((0, 1) ≠ (1, 1)) := by decide

/-- The last index of a load, the last butterfly of the last stage of 8 samples, and the last pair of the last group of stage
2. -/
theorem witness_StageButterflyGivesFourValues :
    7 < 2 ^ 3 ∧ 1 ≤ 3 ∧ 0 + 3 + 2 ^ 3 / 2 < (List.replicate 8 (0#32)).length ∧
    (List.replicate 8 (0#32)).length = 8 ∧ 1 < 8 / 2 ^ 2 ∧ 1 < 2 ^ 2 / 2 := by decide

theorem witness_SilenceHasZeroSpectrum :
    Config.refA.wf = true ∧ ({ Config.refA with fftSize := 2, win := [0xBF800000, 0x3F800000] } : Config.Params).wf = true := by
  decide +kernel

theorem spectrumOf26_no_nan : ∀ x ∈ spectrumOf26, isNaN x = false := fun x hx => by
  simpa using List.all_eq_true.mp (show spectrumOf26.all (fun y => !isNaN y) = true by decide +kernel) x hx

theorem witness_RangeBoundsTheFrame : spectrumOf26 ≠ [] ∧ ∀ x ∈ spectrumOf26, isNaN x = false :=
  ⟨by decide, spectrumOf26_no_nan⟩

/-- The three cases of 4 bins, at −0.0 and a NaN, at 3.0 and +infinity, and between: 0.75, and 2.25. -/
theorem witness_BinIndexInRange :
    1 ≤ 4 ∧ 4 ≤ 2 ^ 22 ∧ fgt 0x80000000 0 = false ∧ fgt 0x7FC00000 0 = false ∧
    (fgt 0x40400000 0 && fge 0x40400000 (i2f 3) && fgt 0x7F800000 0 && fge 0x7F800000 (i2f 3)) = true ∧
    (fgt 0x3F400000 0 && !fge 0x3F400000 (i2f 3) && fgt 0x40100000 0 && !fge 0x40100000 (i2f 3)) = true ∧
    binIdx 4 0x3F400000 = 0 ∧ binIdx 4 0x40100000 = 2 := by decide +kernel

/-- Both clauses: an interval whose first bin is a number, and one whose first bin is a NaN; decimation over bins 2..3, over
the single bin of an empty interval, and with a NaN first. -/
theorem witness_PeakIsTheMaximum :
    1 ≤ 3 ∧ isNaN (spectrumOf26.getD 1 0) = false ∧ isNaN (([0x7FC00000#32, 0] : List Word).getD 0 0) = true ∧
    (binIdx 4 0x3FC00000 + 1 = 2 ∧ binIdx 4 0x40400000 = 3 ∧ isNaN (spectrumOf26.getD 2 0) = false) ∧
    (binIdx 4 0x40400000 < binIdx 4 0x40400000 + 1 ∧ isNaN (spectrumOf26.getD 3 0) = false) ∧
    (binIdx 2 0 + 1 = binIdx 2 0x3F800000 ∧ isNaN (([0, 0x7FC00000#32] : List Word).getD 1 0) = true) := by decide +kernel

/-- Local axis widths of the axes of section 2.6 in bins: three points 0..24000 switch at index 1, five points never do; index
1 of the five is blended, index 4 is the last bin. -/
theorem witness_RegimeSwitchIsOneWay :
    let b (f : Word) (x : Nat) : Word := coordinate noNaN 4 (nyquist noNaN 0x473B8000) f x
    let fs : List Word := [0x00000000, 0x45BB8000, 0x463B8000, 0x468CA000, 0x46BB8000]
    fgt (fsub 0 (b 0x463B8000 1) (b 0 0)) f32One = true ∧
    (∀ y, y < 5 → 1 ≤ y → fgt (fsub 0 (b (fs.getD y 0) y) (b (fs.getD (y - 1) 0) (y - 1))) f32One = false) ∧
    (fgt (b (fs.getD 1 0) 1) 0 = true ∧ binIdx 4 (b (fs.getD 1 0) 1) ≠ 3) ∧ binIdx 4 (b (fs.getD 4 0) 4) = 3 ∧
    fgt (b (fs.getD 0 0) 0) 0 = false := by decide +kernel

/-- The three clauses, the last at the last index of the axis. -/
theorem witness_GetinfoReadsFrame :
    State.reset.port = .C ∧ State.reset.axisValid = false ∧ loaded.port = .C ∧ loaded.axisValid = true ∧
      loaded.aRes.toNat ≤ 3 ∧ 2 < loaded.aRes.toNat ∧ Memory.read none loaded.axis 2 = some 0x46BB8000 := by decide +kernel

/-- The last bin and the first index beyond. -/
theorem witness_GetbinReadsAverage :
    State.reset.port = .C ∧ 3 < State.reset.cfg.fftSize / 2 ∧ State.reset.cfg.fftSize / 2 ≤ 4 := by decide

theorem witness_ReadsHaveNoSideEffect : (after (exec (.getinfo 0) loaded)).isSome = true := by decide +kernel

/-- A tie that is rounded, the two sides of the overflow threshold, and operands: 3.0 and 2.0, −0.0, and a NaN. -/
theorem witness_RoundingIsToNearestEven :
    isFinite 0x4B800001 = true ∧ f32Sign 0x4B800001 = false ∧ roundPack false 0x1000001 400 = 0x4B800000 ∧
    ((2 ^ 25 - 1) * 2 ^ 103 - 1) * 2 ^ 400 < (2 ^ 25 - 1) * 2 ^ 503 ∧
    roundPack true ((2 ^ 25 - 1) * 2 ^ 103 - 1) 400 = 0xFF7FFFFF ∧
    roundPack true ((2 ^ 25 - 1) * 2 ^ 103) 400 = 0xFF800000 ∧
    (isFinite 0x40400000 && isFinite 0x40000000 && isFinite 0x80000000 && isNaN 0x7FC00000) = true ∧
    valueOf 0x40400000 = 3 ∧ valueOf 0x40000000 = 2 ∧ valueOf 0x80000000 = 0 := by decide +kernel

end Sys2Proof.Tests
end

namespace Sys2Proof.Machine

/-! ### What agent P sees -/

/-- Two outcomes look alike to the producer: where the first answers a next state, so does the second, with the same
producer's view. -/
def SameToProducer (r1 r2 : Result) : Prop :=
  ∀ t1 : State, r1 = .next t1 → ∃ t2 : State, r2 = .next t2 ∧ producerView t1 = producerView t2

theorem sameToProducer_next {t1 t2 : State} (h : producerView t1 = producerView t2) :
    SameToProducer (.next t1) (.next t2) := by
  intro t ht
  cases ht
  exact ⟨t2, rfl, h⟩

/-! ### The branches of a step of agent P -/

theorem stepP_idle_nil {s : State} (hp : s.pPhase = .idle) (hc : s.pCmd = []) : stepP s = .next s := by
  rw [stepP, hp, hc]

theorem stepP_idle_cons {s : State} {cw : CmdWord} {rest : List CmdWord} (hp : s.pPhase = .idle)
    (hc : s.pCmd = cw :: rest) : stepP s = runWord cw { s with port := .P, pCmd := rest } := by
  cases s; cases hp; cases hc; rfl

theorem stepP_busy_nil {s : State} (hp : s.pPhase = .busy) (hd : s.pDat = []) : stepP s = .next s := by
  rw [stepP, hp, hd]

theorem stepP_busy_cons {s : State} {item : Item} {rest : List Item} (hp : s.pPhase = .busy)
    (hd : s.pDat = item :: rest) : stepP s = writeBeat item { s with pDat := rest } := by
  cases s; cases hp; cases hd; rfl

theorem step_of_agentP_turn {s : State} {ts : List Turn} (ht : s.turns = .agentP :: ts) :
    step s = stepP { s with turns := ts } := by
  cases s; cases ht; rfl

/-! ### States alike to the producer -/

theorem producerView_eq_iff {s1 s2 : State} :
    producerView s1 = producerView s2 ↔
      s1.tail = s2.tail ∧ s1.headv = s2.headv ∧ s1.capacity = s2.capacity ∧ s1.pPhase = s2.pPhase ∧ s1.pRem = s2.pRem ∧
      s1.pCmd = s2.pCmd ∧ s1.pDat = s2.pDat ∧ s1.pRsp = s2.pRsp ∧ s1.ring = s2.ring ∧ s1.cfg = s2.cfg := by
  rw [producerView, producerView, ProducerView.mk.injEq]

section SameView

variable {s1 s2 : State} (h : producerView s1 = producerView s2)
include h

theorem headView_congr : headView s1 = headView s2 := by
  rw [producerView_eq_iff] at h
  simp [headView, decodeOf, h]

theorem occP_congr : occP s1 = occP s2 := by
  have hv := headView_congr h
  rw [producerView_eq_iff] at h
  simp [occP, hv, h]

theorem freeP_congr : freeP s1 = freeP s2 := by
  have ho := occP_congr h
  rw [producerView_eq_iff] at h
  simp [freeP, ho, h]

theorem producerView_startWrite_congr (n : Nat) : producerView (startWrite n s1) = producerView (startWrite n s2) := by
  rw [producerView_eq_iff] at h
  by_cases hn : n = 0 <;> simp [startWrite, producerView_eq_iff, hn, h]

theorem producerView_takeWord_congr (rest : List CmdWord) :
    producerView { s1 with port := .P, pCmd := rest } = producerView { s2 with port := .P, pCmd := rest } := by
  rw [producerView_eq_iff] at h ⊢
  simp [h]

theorem producerView_takeBeat_congr (rest : List Item) :
    producerView { s1 with pDat := rest } = producerView { s2 with pDat := rest } := by
  rw [producerView_eq_iff] at h ⊢
  simp [h]

/-- The beat step of R127 reads and writes nothing beyond the producer's side. -/
theorem writeBeat_sameToProducer (item : Item) : SameToProducer (writeBeat item s1) (writeBeat item s2) := by
  intro t1 ht1
  obtain ⟨hlt, rfl⟩ := writeBeat_next ht1
  rw [producerView_eq_iff] at h
  refine ⟨_, if_pos (by simpa [h] using hlt), ?_⟩
  simp [producerView_eq_iff, h]

section OnPortP

variable (hp1 : s1.port = .P) (hp2 : s2.port = .P)
include hp1 hp2

theorem producerView_respond_congr (st : Status) (d1 d0 : Word) :
    producerView (respond st d1 d0 s1) = producerView (respond st d1 d0 s2) := by
  rw [producerView_eq_iff] at h
  simp [producerView_eq_iff, hp1, hp2, h]

theorem raise_sameToProducer (e : Status) : SameToProducer (raise e s1) (raise e s2) :=
  sameToProducer_next (producerView_respond_congr h hp1 hp2 e 0 0)

/-- A command of port C alone answers ERR_ILLEGAL on port P, whatever it would have done there (R98). -/
theorem onlyOnC_sameToProducer (r1 r2 : Result) : SameToProducer (onlyOn .C s1 r1) (onlyOn .C s2 r2) := by
  rw [onlyOn_other (by simp [hp1]), onlyOn_other (by simp [hp2])]
  exact raise_sameToProducer h hp1 hp2 .errIllegal

theorem execWrite_sameToProducer (n : Nat) : SameToProducer (execWrite n s1) (execWrite n s2) := by
  rw [execWrite, execWrite, onlyOn_self hp1, onlyOn_self hp2, freeP_congr h]
  split
  · exact raise_sameToProducer h hp1 hp2 .fail
  · exact sameToProducer_next (producerView_startWrite_congr (producerView_respond_congr h hp1 hp2 .ok 0 0) n)

theorem execNready_sameToProducer : SameToProducer (execNready s1) (execNready s2) := by
  simp only [execNready, hp1, hp2, occP_congr h]
  exact sameToProducer_next (producerView_respond_congr h hp1 hp2 _ _ _)

theorem execFreesp_sameToProducer : SameToProducer (execFreesp s1) (execFreesp s2) := by
  simp only [execFreesp, hp1, hp2, freeP_congr h]
  exact sameToProducer_next (producerView_respond_congr h hp1 hp2 _ _ _)

theorem exec_sameToProducer (i : Instr) : SameToProducer (exec i s1) (exec i s2) := by
  cases i with
  | write n => exact execWrite_sameToProducer h hp1 hp2 n
  | nready => exact execNready_sameToProducer h hp1 hp2
  | freesp => exact execFreesp_sameToProducer h hp1 hp2
  | _ => exact onlyOnC_sameToProducer h hp1 hp2 _ _

theorem runWord_sameToProducer (cw : CmdWord) : SameToProducer (runWord cw s1) (runWord cw s2) := by
  unfold runWord
  split
  · exact exec_sameToProducer h hp1 hp2 _
  · exact raise_sameToProducer h hp1 hp2 .errIllegal

end OnPortP

/-- The branch of `stepP` is chosen by fields the producer sees, so both states take the same one. -/
theorem stepP_sameToProducer : SameToProducer (stepP s1) (stepP s2) := by
  have hphase : s2.pPhase = s1.pPhase := congrArg ProducerView.pPhase h.symm
  have hcmd : s2.pCmd = s1.pCmd := congrArg ProducerView.pCmd h.symm
  have hdat : s2.pDat = s1.pDat := congrArg ProducerView.pDat h.symm
  intro t1 ht1
  rcases stepP_next ht1 with ⟨hp, hc, rfl⟩ | ⟨hp, cw, rest, hc, hr⟩ | ⟨hp, hd, rfl⟩ | ⟨hp, item, rest, hd, hr⟩
  · exact ⟨s2, stepP_idle_nil (hphase.trans hp) (hcmd.trans hc), h⟩
  · rw [stepP_idle_cons (hphase.trans hp) (hcmd.trans hc)]
    exact runWord_sameToProducer (producerView_takeWord_congr h rest) rfl rfl cw t1 hr
  · exact ⟨s2, stepP_busy_nil (hphase.trans hp) (hdat.trans hd), h⟩
  · rw [stepP_busy_cons (hphase.trans hp) (hdat.trans hd)]
    exact writeBeat_sameToProducer (producerView_takeBeat_congr h rest) item t1 hr

end SameView

/-- Settles O39: a step of agent P is a step on the producer's view, branch by branch (R20, R25, R70). -/
theorem producerSeesOnlyItsDomain : Obligations.ProducerSeesOnlyItsDomain := by
  intro s1 s2 ts1 ts2 ht1 ht2 h
  rw [step_of_agentP_turn ht1, step_of_agentP_turn ht2]
  exact stepP_sameToProducer (s1 := { s1 with turns := ts1 }) (s2 := { s2 with turns := ts2 }) h

end Sys2Proof.Machine

namespace Sys2Proof.Machine

/-! ### Finite patterns -/

theorem signed_cast (s : Bool) (m : Nat) : ((signed s m : ℤ) : ℝ) = signFactor s * m := by
  cases s <;> simp [signed, signFactor]

theorem signFactor_xor (s t : Bool) : signFactor (s ^^ t) = signFactor s * signFactor t := by
  cases s <;> cases t <;> simp [signFactor]

theorem abs_signFactor (s : Bool) : |signFactor s| = 1 := by
  cases s <;> simp [signFactor]

theorem inv_signFactor (s : Bool) : (signFactor s)⁻¹ = signFactor s := by
  cases s <;> norm_num [signFactor]

/-- A finite pattern unpacks to its sign and a significand and exponent within the format's bounds. -/
theorem unpack_of_isFinite {w : Word} (h : isFinite w = true) :
    ∃ m e, unpack w = .fin (f32Sign w) m e ∧ magnitudeOf w = m * 2 ^ e ∧ m < 2 ^ 24 ∧ e ≤ 253 := by
  have hexp : f32Exp w < 2 ^ 8 := (w.extractLsb' 23 8).isLt
  have hfrac : f32Frac w < 2 ^ 23 := (w.extractLsb' 0 23).isLt
  have hne : f32Exp w ≠ 255 := by simpa [isFinite] using h
  by_cases h0 : f32Exp w = 0
  · exact ⟨f32Frac w, 0, by simp [unpack, h0], by simp [magnitudeOf_eq h, h0], by omega, by omega⟩
  · exact ⟨f32Frac w + 2 ^ 23, f32Exp w - 1, by simp [unpack, h0, hne], by simp [magnitudeOf_eq h, h0], by omega,
      by omega⟩

theorem valueOf_of_magnitude {w : Word} {m e : Nat} (h : magnitudeOf w = m * 2 ^ e) :
    (valueOf w : ℝ) = signFactor (f32Sign w) * (m * 2 ^ e) / 2 ^ 149 := by
  rw [valueOf_eq, h]
  push_cast
  rfl

theorem isNaN_of_isFinite {w : Word} (h : isFinite w = true) : isNaN w = false := by
  obtain ⟨m, e, hu, -⟩ := unpack_of_isFinite h
  simp [isNaN, hu]

theorem toNat_eq_fields (w : Word) :
    w.toNat = (if f32Sign w then 2 ^ 31 else 0) + (f32Exp w * 2 ^ 23 + f32Frac w) := by
  have hw := w.isLt
  rw [f32Sign, f32Exp, f32Frac, BitVec.getLsbD, Nat.testBit_eq_decide_div_mod_eq, BitVec.extractLsb'_toNat,
    BitVec.extractLsb'_toNat, Nat.shiftRight_eq_div_pow, Nat.shiftRight_eq_div_pow]
  split
  · rename_i hs
    have := of_decide_eq_true hs
    omega
  · rename_i hs
    have := of_decide_eq_false (Bool.eq_false_of_not_eq_true hs)
    omega

/-! ### The order of finite patterns -/

/-- The magnitude, in units of 2^−149, of the exponent and fraction bits read as one number. -/
def magnitudeOfBits (k : Nat) : Nat := if k < 2 ^ 23 then k else (k % 2 ^ 23 + 2 ^ 23) * 2 ^ (k / 2 ^ 23 - 1)

theorem magnitudeOf_eq_magnitudeOfBits {w : Word} (h : isFinite w = true) :
    magnitudeOf w = magnitudeOfBits (f32Exp w * 2 ^ 23 + f32Frac w) := by
  have hfrac : f32Frac w < 2 ^ 23 := (w.extractLsb' 0 23).isLt
  rw [magnitudeOf_eq h, magnitudeOfBits]
  by_cases h0 : f32Exp w = 0
  · rw [if_pos h0, if_pos (by omega)]; omega
  · rw [if_neg h0, if_neg (by omega), show (f32Exp w * 2 ^ 23 + f32Frac w) % 2 ^ 23 = f32Frac w by omega,
      show (f32Exp w * 2 ^ 23 + f32Frac w) / 2 ^ 23 = f32Exp w by omega]

/-- The next pattern of the same sign is larger, across the subnormal boundary and across a carry into the exponent too. -/
theorem magnitudeOfBits_strictMono : StrictMono magnitudeOfBits := by
  refine strictMono_nat_of_lt_succ fun k => ?_
  unfold magnitudeOfBits
  rcases Nat.lt_trichotomy (k + 1) (2 ^ 23) with h | h | h
  · rw [if_pos (by omega), if_pos h]; omega
  · rw [if_pos (by omega), if_neg (by omega), h]; norm_num; omega
  · rw [if_neg (by omega), if_neg (by omega)]
    by_cases hc : (k + 1) % 2 ^ 23 = 0
    · rw [hc, Nat.zero_add, show (k + 1) / 2 ^ 23 - 1 = k / 2 ^ 23 - 1 + 1 by omega, pow_succ]
      calc (k % 2 ^ 23 + 2 ^ 23) * 2 ^ (k / 2 ^ 23 - 1) < 2 * 2 ^ 23 * 2 ^ (k / 2 ^ 23 - 1) :=
            Nat.mul_lt_mul_of_pos_right (by omega) (by positivity)
        _ = 2 ^ 23 * (2 ^ (k / 2 ^ 23 - 1) * 2) := by rw [Nat.mul_comm 2, Nat.mul_assoc, Nat.mul_comm 2]
    · rw [show (k + 1) / 2 ^ 23 = k / 2 ^ 23 by omega, show (k + 1) % 2 ^ 23 = k % 2 ^ 23 + 1 by omega]
      exact Nat.mul_lt_mul_of_pos_right (by omega) (by positivity)

/-- Finite patterns of one sign and one value are the same pattern. -/
theorem eq_of_valueOf_eq {v w : Word} (hv : isFinite v = true) (hw : isFinite w = true)
    (hs : f32Sign v = f32Sign w) (h : valueOf v = valueOf w) : v = w := by
  have hm : magnitudeOf v = magnitudeOf w := by
    have hval : signFactor (f32Sign w) * (magnitudeOf v : ℝ) / 2 ^ 149 =
        signFactor (f32Sign w) * magnitudeOf w / 2 ^ 149 := by
      rw [← valueOf_eq w, ← hs, ← valueOf_eq v, h]
    have hne : signFactor (f32Sign w) ≠ 0 := abs_pos.1 (by rw [abs_signFactor]; exact one_pos)
    exact_mod_cast mul_left_cancel₀ hne ((div_left_inj' (by positivity)).1 hval)
  rw [magnitudeOf_eq_magnitudeOfBits hv, magnitudeOf_eq_magnitudeOfBits hw] at hm
  apply BitVec.eq_of_toNat_eq
  rw [toNat_eq_fields v, toNat_eq_fields w, hs, magnitudeOfBits_strictMono.injective hm]

/-- A strictly increasing function of the magnitudes that keeps zero keeps the order of signed magnitudes. -/
theorem signed_lt_signed_iff {f : Nat → Nat} (hf : StrictMono f) (h0 : f 0 = 0) (s t : Bool) (j k : Nat) :
    signed s (f j) < signed t (f k) ↔ signed s j < signed t k := by
  have hlt := hf.lt_iff_lt (a := j) (b := k)
  have hgt := hf.lt_iff_lt (a := k) (b := j)
  have hj := hf.lt_iff_lt (a := 0) (b := j)
  have hk := hf.lt_iff_lt (a := 0) (b := k)
  rw [h0] at hj hk
  cases s <;> cases t <;> simp only [signed, if_true, if_false, Bool.false_eq_true] <;> omega

theorem orderKey_lt_iff {a b : Word} (ha : isFinite a = true) (hb : isFinite b = true) :
    orderKey a < orderKey b ↔ (valueOf a : ℝ) < valueOf b := by
  have key := signed_lt_signed_iff magnitudeOfBits_strictMono rfl (f32Sign a) (f32Sign b)
    (f32Exp a * 2 ^ 23 + f32Frac a) (f32Exp b * 2 ^ 23 + f32Frac b)
  rw [← magnitudeOf_eq_magnitudeOfBits ha, ← magnitudeOf_eq_magnitudeOfBits hb] at key
  rw [orderKey, orderKey, ← key, valueOf_eq, valueOf_eq, div_lt_div_iff_of_pos_right (by positivity), ← signed_cast,
    ← signed_cast, Int.cast_lt]

theorem flt_iff {a b : Word} (ha : isFinite a = true) (hb : isFinite b = true) :
    flt a b = true ↔ (valueOf a : ℝ) < valueOf b := by
  simp [flt, isNaN_of_isFinite ha, isNaN_of_isFinite hb, orderKey_lt_iff ha hb]

theorem fge_iff {a b : Word} (ha : isFinite a = true) (hb : isFinite b = true) :
    fge a b = true ↔ (valueOf b : ℝ) ≤ valueOf a := by
  rw [← not_lt, ← orderKey_lt_iff ha hb, not_lt]
  simp [fge, isNaN_of_isFinite ha, isNaN_of_isFinite hb]

/-- A comparison with a NaN is false (R9). -/
theorem comparisons_false_of_isNaN {a b : Word} (h : isNaN a = true ∨ isNaN b = true) :
    flt a b = false ∧ fgt a b = false ∧ fge a b = false := by
  rcases h with h | h <;> simp [flt, fgt, fge, h]

/-! ### `roundPack` against exact values -/

/-- `roundPack` rounds an exact value, given in units of 2^−400. -/
theorem roundPack_roundsTo_exact (s : Bool) (m e : Nat) {x : ℝ} (hx : x * 2 ^ 400 = signFactor s * (m * 2 ^ e)) :
    RoundsTo s x (roundPack s m e) := by
  obtain rfl : x = signFactor s * (m * 2 ^ e / 2 ^ 400) := by
    rw [← mul_div_assoc, ← hx, mul_div_cancel_right₀ _ (by positivity)]
  exact roundPack_roundsTo s m e (by positivity) (.inl (div_mul_cancel₀ _ (by positivity)))

theorem zeroOf_roundsTo (s : Bool) : RoundsTo s 0 (zeroOf s) :=
  roundPack_roundsTo_exact s 0 0 (by simp)

/-- A value `y` cut to its integer part `n` keeps its rounding if one more bit says whether anything was cut off: `y` is
exact, or twice `y` lies strictly between the neighbours of that odd number. -/
theorem roundPack_roundsTo_sticky (s : Bool) {n : Nat} {y X : ℝ} (e : Nat) {c : Prop} [Decidable c] (hX : 0 ≤ X)
    (hXy : X * 2 ^ 400 = 2 * y * 2 ^ e) (hl : n ≤ y) (hu : y < n + 1) (hc : c ↔ y = n) (hbig : c ∨ 2 ^ 25 ≤ n) :
    RoundsTo s (signFactor s * X) (roundPack s (2 * n + if c then 0 else 1) e) := by
  refine roundPack_roundsTo s _ e hX ?_
  rw [hXy]
  by_cases h : c
  · left
    rw [if_pos h, hc.1 h]
    push_cast
    ring
  · right
    have hlt : (n : ℝ) < y := lt_of_le_of_ne hl fun he => h (hc.2 he.symm)
    have hn : 2 ^ 25 ≤ n := hbig.resolve_left h
    rw [if_neg h]
    push_cast
    refine ⟨by omega, by omega, ?_, ?_⟩
    · exact mul_lt_mul_of_pos_right (by linarith) (by positivity)
    · exact mul_lt_mul_of_pos_right (by linarith) (by positivity)

/-! ### Nearest among the patterns of one sign, in natural numbers -/

theorem distance_cast (a b : Nat) : (distance a b : ℝ) = |(a : ℝ) - b| := by
  rcases Nat.le_total a b with h | h
  · have hr : (a : ℝ) ≤ b := by exact_mod_cast h
    rw [distance, Nat.sub_eq_zero_of_le h, Nat.zero_add, Nat.cast_sub h, abs_sub_comm, abs_of_nonneg (by linarith)]
  · have hr : (b : ℝ) ≤ a := by exact_mod_cast h
    rw [distance, Nat.sub_eq_zero_of_le h, Nat.add_zero, Nat.cast_sub h, abs_of_nonneg (by linarith)]

/-- `roundPack` counts in units of 2^−400, a magnitude in units of 2^−149. -/
theorem two_pow_400 : (2 : ℝ) ^ 400 = 2 ^ 251 * 2 ^ 149 := by rw [← pow_add]

/-- The distance of two values of one sign, counted in units of 2^−400. -/
theorem abs_sub_valueOf (s : Bool) (n : Nat) {w : Word} (hs : f32Sign w = s) :
    |signFactor s * (n / 2 ^ 400) - (valueOf w : ℝ)| = (distance n (magnitudeOf w * 2 ^ 251) : ℝ) / 2 ^ 400 := by
  have hsub : signFactor s * (n / 2 ^ 400) - (valueOf w : ℝ) =
      signFactor s * ((n - (magnitudeOf w * 2 ^ 251 : Nat)) / 2 ^ 400) := by
    rw [valueOf_eq, hs, two_pow_400, Nat.cast_mul, Nat.cast_pow, Nat.cast_ofNat, sub_div, mul_comm (2 ^ 251 : ℝ),
      mul_div_mul_right _ _ (by positivity), mul_sub, mul_div_assoc]
  rw [hsub, abs_mul, abs_signFactor, one_mul, abs_div, abs_of_pos (by positivity : (0 : ℝ) < 2 ^ 400), distance_cast]

/-- The overflow threshold in units of 2^−400. -/
theorem threshold_le_iff (n : Nat) :
    (2 ^ 25 - 1) * 2 ^ 503 ≤ n ↔ (2 ^ 25 - 1) * 2 ^ 103 ≤ (n : ℝ) / 2 ^ 400 := by
  rw [le_div_iff₀ (by positivity), mul_assoc, ← pow_add, ← Nat.cast_le (α := ℝ), Nat.cast_mul, Nat.cast_pow]
  norm_num only [Nat.cast_ofNat]

theorem roundPack_nearestEven (s : Bool) (m e : Nat) :
    ((2 ^ 25 - 1) * 2 ^ 503 ≤ m * 2 ^ e → roundPack s m e = if s then 0xFF800000#32 else 0x7F800000#32) ∧
    (m * 2 ^ e < (2 ^ 25 - 1) * 2 ^ 503 →
      isFinite (roundPack s m e) = true ∧ f32Sign (roundPack s m e) = s ∧
      ∀ w : Word, isFinite w = true → f32Sign w = s →
        distance (m * 2 ^ e) (magnitudeOf (roundPack s m e) * 2 ^ 251) ≤ distance (m * 2 ^ e) (magnitudeOf w * 2 ^ 251) ∧
        (distance (m * 2 ^ e) (magnitudeOf (roundPack s m e) * 2 ^ 251) =
            distance (m * 2 ^ e) (magnitudeOf w * 2 ^ 251) → w ≠ roundPack s m e →
          f32Frac (roundPack s m e) % 2 = 0)) := by
  obtain ⟨hsign, hfin, hover⟩ : RoundsTo s (signFactor s * ((m * 2 ^ e : Nat) / 2 ^ 400)) (roundPack s m e) :=
    roundPack_roundsTo_exact s m e (by push_cast; rw [mul_assoc, div_mul_cancel₀ _ (by positivity)])
  have habs : |signFactor s * (((m * 2 ^ e : Nat) : ℝ) / 2 ^ 400)| = ((m * 2 ^ e : Nat) : ℝ) / 2 ^ 400 := by
    rw [abs_mul, abs_signFactor, one_mul, abs_of_nonneg (by positivity)]
  rw [habs] at hfin hover
  refine ⟨fun h => hover ((threshold_le_iff _).1 h), fun h => ?_⟩
  obtain ⟨hf, hnear⟩ := hfin (not_le.1 fun hc => absurd ((threshold_le_iff _).2 hc) (not_le.2 h))
  refine ⟨hf, hsign, fun w hw hws => ?_⟩
  obtain ⟨hle, htie⟩ := hnear w hw
  rw [abs_sub_valueOf s _ hsign, abs_sub_valueOf s _ hws] at hle htie
  refine ⟨?_, fun heq hne => htie (by rw [heq]) fun hv => hne ?_⟩
  · exact_mod_cast (div_le_div_iff_of_pos_right (by positivity)).1 hle
  · exact eq_of_valueOf_eq hw hf (hws.trans hsign.symm) hv

/-! ### Sum and difference -/

/-- The value of a finite pattern as a signed significand. -/
theorem valueOf_eq_signed {w : Word} {m e : Nat} (h : magnitudeOf w = m * 2 ^ e) :
    (valueOf w : ℝ) = (signed (f32Sign w) m : ℤ) * 2 ^ e / 2 ^ 149 := by
  rw [valueOf_of_magnitude h, signed_cast, mul_assoc]

theorem signFactor_mul_natAbs (t : ℤ) : signFactor (decide (t < 0)) * (t.natAbs : ℝ) = t := by
  rw [Nat.cast_natAbs, Int.cast_abs]
  by_cases h : t < 0
  · simp [h, signFactor, abs_of_neg (Int.cast_lt_zero.2 h : (t : ℝ) < 0)]
  · simp [h, signFactor, abs_of_nonneg (Int.cast_nonneg (not_lt.1 h) : (0 : ℝ) ≤ t)]

/-- A significand moved to a smaller exponent keeps its value. -/
theorem signed_shift (s : Bool) (m : Nat) {e e' : Nat} (h : e' ≤ e) :
    ((signed s (m * 2 ^ (e - e')) : ℤ) : ℝ) * 2 ^ e' = (signed s m : ℤ) * 2 ^ e := by
  rw [signed_cast, signed_cast, Nat.cast_mul, Nat.cast_pow, Nat.cast_ofNat, mul_assoc, mul_assoc, ← pow_add,
    Nat.sub_add_cancel h, mul_assoc]

/-- The exact sum is `t` places of the smaller exponent, and `t` has its sign. -/
theorem fadd_roundsTo (q : BitVec 24) {a b : Word} (ha : isFinite a = true) (hb : isFinite b = true) :
    RoundsTo (if valueOf a + valueOf b = 0 then f32Sign a && f32Sign b else decide (valueOf a + valueOf b < 0))
      ((valueOf a : ℝ) + valueOf b) (fadd q a b) := by
  obtain ⟨m1, e1, hu1, hv1, -⟩ := unpack_of_isFinite ha
  obtain ⟨m2, e2, hu2, hv2, -⟩ := unpack_of_isFinite hb
  simp only [fadd, hu1, hu2, addFinite]
  generalize ht : signed (f32Sign a) (m1 * 2 ^ (e1 - min e1 e2)) + signed (f32Sign b) (m2 * 2 ^ (e2 - min e1 e2)) = t
  have hsum : (valueOf a : ℝ) + valueOf b = t * 2 ^ min e1 e2 / 2 ^ 149 := by
    rw [valueOf_eq_signed hv1, valueOf_eq_signed hv2, ← ht, Int.cast_add, add_mul, signed_shift _ _ (min_le_left ..),
      signed_shift _ _ (min_le_right ..), add_div]
  have hp : (0 : ℝ) < 2 ^ min e1 e2 / 2 ^ 149 := by positivity
  have hsumQ : ((valueOf a + valueOf b : ℚ) : ℝ) = t * (2 ^ min e1 e2 / 2 ^ 149) := by
    rw [Rat.cast_add, hsum, mul_div_assoc]
  have hzero : valueOf a + valueOf b = 0 ↔ t = 0 := by
    rw [← Rat.cast_eq_zero (α := ℝ), hsumQ, mul_eq_zero_iff_right hp.ne', Int.cast_eq_zero]
  have hneg : valueOf a + valueOf b < 0 ↔ t < 0 := by
    rw [← Rat.cast_lt_zero (K := ℝ), hsumQ, ← zero_mul (2 ^ min e1 e2 / 2 ^ 149 : ℝ), mul_lt_mul_iff_of_pos_right hp,
      Int.cast_lt_zero]
  simp only [hzero, hneg]
  by_cases h0 : t = 0
  · rw [if_pos h0, if_pos h0, hsum, h0, Int.cast_zero, zero_mul, zero_div]
    exact zeroOf_roundsTo _
  · rw [if_neg h0, if_neg h0]
    refine roundPack_roundsTo_exact _ _ _ ?_
    rw [hsum, pow_add, ← mul_assoc, ← mul_assoc, signFactor_mul_natAbs, two_pow_400, mul_comm ((2 : ℝ) ^ 251),
      ← mul_assoc, div_mul_cancel₀ _ (by positivity)]

theorem f32Exp_fneg (w : Word) : f32Exp (fneg w) = f32Exp w := by
  rw [f32Exp, fneg, BitVec.extractLsb'_xor, show BitVec.extractLsb' 23 8 0x80000000#32 = 0#8 by decide, BitVec.xor_zero,
    f32Exp]

theorem f32Frac_fneg (w : Word) : f32Frac (fneg w) = f32Frac w := by
  rw [f32Frac, fneg, BitVec.extractLsb'_xor, show BitVec.extractLsb' 0 23 0x80000000#32 = 0#23 by decide, BitVec.xor_zero,
    f32Frac]

theorem f32Sign_fneg (w : Word) : f32Sign (fneg w) = !f32Sign w := by
  rw [f32Sign, fneg, BitVec.getLsbD_xor, show (0x80000000#32).getLsbD 31 = true by decide, Bool.xor_true, f32Sign]

theorem isFinite_fneg (w : Word) : isFinite (fneg w) = isFinite w := by
  rw [isFinite, f32Exp_fneg, isFinite]

theorem valueOf_fneg {w : Word} (h : isFinite w = true) : valueOf (fneg w) = -valueOf w := by
  have hm : magnitudeOf (fneg w) = magnitudeOf w := by
    rw [magnitudeOf_eq ((isFinite_fneg w).trans h), f32Exp_fneg, f32Frac_fneg, magnitudeOf_eq h]
  rw [valueOf, valueOf, hm, f32Sign_fneg]
  cases f32Sign w <;> simp [neg_div]

theorem fsub_roundsTo (q : BitVec 24) {a b : Word} (ha : isFinite a = true) (hb : isFinite b = true) :
    RoundsTo (if valueOf a - valueOf b = 0 then f32Sign a && !f32Sign b else decide (valueOf a - valueOf b < 0))
      ((valueOf a : ℝ) - valueOf b) (fsub q a b) := by
  have h := fadd_roundsTo q ha ((isFinite_fneg b).trans hb)
  rwa [valueOf_fneg hb, f32Sign_fneg, Rat.cast_neg, ← sub_eq_add_neg, ← sub_eq_add_neg] at h

/-! ### Product and quotient -/

theorem fmul_roundsTo (q : BitVec 24) {a b : Word} (ha : isFinite a = true) (hb : isFinite b = true) :
    RoundsTo (f32Sign a ^^ f32Sign b) ((valueOf a : ℝ) * valueOf b) (fmul q a b) := by
  obtain ⟨m1, e1, hu1, hv1, -⟩ := unpack_of_isFinite ha
  obtain ⟨m2, e2, hu2, hv2, -⟩ := unpack_of_isFinite hb
  simp only [fmul, hu1, hu2]
  refine roundPack_roundsTo_exact _ _ _ ?_
  have h400 : (2 : ℝ) ^ 400 = 2 ^ 149 * 2 ^ 149 * 2 ^ 102 := by rw [← pow_add, ← pow_add]
  rw [valueOf_of_magnitude hv1, valueOf_of_magnitude hv2, signFactor_xor, h400, pow_add, pow_add, Nat.cast_mul]
  field_simp

/-- A quotient cut to an integer, with a last bit for the remainder, rounds as the quotient does. -/
theorem roundPack_stickyDiv_roundsTo (s : Bool) {n d : Nat} (e : Nat) {X : ℝ} (hd : 0 < d) (hbig : n = 0 ∨ 2 ^ 25 * d ≤ n)
    (hX : 0 ≤ X) (hXn : X * 2 ^ 400 = 2 * (n / d) * 2 ^ e) :
    RoundsTo s (signFactor s * X) (roundPack s (stickyDiv n d) e) := by
  have hd' : (0 : ℝ) < d := by exact_mod_cast hd
  have hdm : (n : ℝ) = d * (n / d : Nat) + (n % d : Nat) := by exact_mod_cast (Nat.div_add_mod n d).symm
  have hr : ((n % d : Nat) : ℝ) < d := by exact_mod_cast Nat.mod_lt n hd
  have hquot : (n : ℝ) / d = (n / d : Nat) + (n % d : Nat) / d := by
    conv_lhs => rw [hdm]
    rw [add_div, mul_div_cancel_left₀ _ hd'.ne']
  refine roundPack_roundsTo_sticky s e hX hXn ?_ ?_ ?_ ?_
  · rw [hquot]
    exact le_add_of_nonneg_right (by positivity)
  · rw [hquot, add_lt_add_iff_left, div_lt_one hd']
    exact hr
  · rw [hquot, add_eq_left, div_eq_zero_iff, or_iff_left hd'.ne', Nat.cast_eq_zero]
  · exact hbig.imp (fun h => by rw [h, Nat.zero_mod]) (fun h => (Nat.le_div_iff_mul_le hd).2 h)

theorem fdiv_roundsTo (q : BitVec 24) {a b : Word} (ha : isFinite a = true) (hb : isFinite b = true)
    (h0 : (valueOf b : ℝ) ≠ 0) :
    RoundsTo (f32Sign a ^^ f32Sign b) ((valueOf a : ℝ) / valueOf b) (fdiv q a b) := by
  obtain ⟨m1, e1, hu1, hv1, -⟩ := unpack_of_isFinite ha
  obtain ⟨m2, e2, hu2, hv2, hm2, he2⟩ := unpack_of_isFinite hb
  have hm0 : m2 ≠ 0 := by
    rintro rfl
    exact h0 (by rw [valueOf_of_magnitude hv2]; simp)
  have hquot : (valueOf a : ℝ) / valueOf b =
      signFactor (f32Sign a ^^ f32Sign b) * (m1 * 2 ^ e1 / (m2 * 2 ^ e2)) := by
    rw [valueOf_of_magnitude hv1, valueOf_of_magnitude hv2, div_div_div_cancel_right₀ (by positivity), mul_div_mul_comm,
      div_eq_mul_inv (signFactor _), inv_signFactor, signFactor_xor]
  have hpow : (2 : ℝ) ^ e1 * 2 ^ 400 = 2 * 2 ^ 64 * 2 ^ (e1 + 335 - e2) * 2 ^ e2 := by
    rw [← pow_succ', ← pow_add, ← pow_add, ← pow_add]
    congr 1
    omega
  simp only [fdiv, hu1, hu2, if_neg hm0]
  rw [hquot]
  refine roundPack_stickyDiv_roundsTo _ _ (Nat.pos_of_ne_zero hm0) (by omega) (by positivity) ?_
  rw [div_mul_eq_mul_div, mul_assoc, hpow, Nat.cast_mul, Nat.cast_pow, Nat.cast_ofNat]
  field_simp

/-! ### Root -/

/-- The bits found so far are never above the root, and the bits to come reach beyond it. -/
theorem isqrtFrom_spec (n k r : Nat) (hl : r * r ≤ n) (hu : n < (r + 2 ^ k) * (r + 2 ^ k)) :
    isqrtFrom n k r * isqrtFrom n k r ≤ n ∧ n < (isqrtFrom n k r + 1) * (isqrtFrom n k r + 1) := by
  induction k generalizing r with
  | zero => exact ⟨hl, hu⟩
  | succ k ih =>
    rw [isqrtFrom]
    split
    · rename_i h
      exact ih _ h (by rwa [Nat.add_assoc, ← Nat.two_mul, ← pow_succ'])
    · rename_i h
      exact ih r hl (not_le.1 h)

/-- The root of `N`, cut to an integer with a last bit for what was cut off, rounds as the root does. -/
theorem roundPack_stickySqrt_roundsTo {N : Nat} (e : Nat) {X : ℝ} (hN : 2 ^ 50 ≤ N) (hN' : N < 2 ^ 90) (hX : 0 ≤ X)
    (hXN : X * 2 ^ 400 = 2 * Real.sqrt N * 2 ^ e) : RoundsTo false X (roundPack false (stickySqrt N) e) := by
  obtain ⟨hl, hu⟩ : isqrt N * isqrt N ≤ N ∧ N < (isqrt N + 1) * (isqrt N + 1) :=
    isqrtFrom_spec N 45 0 (by omega) (by omega)
  have key := roundPack_roundsTo_sticky false (n := isqrt N) (c := isqrt N * isqrt N = N) (y := Real.sqrt N) e hX hXN
    ?_ ?_ ?_ ?_
  · simpa only [signFactor, Bool.false_eq_true, if_false, one_mul, stickySqrt] using key
  · exact Real.le_sqrt_of_sq_le (by rw [sq]; exact_mod_cast hl)
  · rw [Real.sqrt_lt' (by positivity), sq]
    exact_mod_cast hu
  · rw [Real.sqrt_eq_iff_mul_self_eq (by positivity) (by positivity)]
    exact_mod_cast eq_comm
  · right
    by_contra hc
    nlinarith

theorem sqrt_mul_two_pow {v N : ℝ} (j k : Nat) (hN : 0 ≤ N) (h : v * (2 ^ j) ^ 2 = N * (2 ^ k) ^ 2) :
    Real.sqrt v * 2 ^ j = Real.sqrt N * 2 ^ k := by
  rw [← Real.sqrt_sq (by positivity : (0 : ℝ) ≤ 2 ^ j), ← Real.sqrt_mul' v (by positivity), h, Real.sqrt_mul hN,
    Real.sqrt_sq (by positivity)]

/-- The root of m · 2^(e − 149) is `√(m · 2^i)` in units of 2^(k − 400) where the exponents agree. -/
theorem sqrt_significand (m : Nat) {e i k : Nat} (h : e + 651 = i + 2 * (k + 1)) :
    Real.sqrt (m * 2 ^ e / 2 ^ 149) * 2 ^ 400 = 2 * Real.sqrt (m * 2 ^ i : Nat) * 2 ^ k := by
  rw [mul_assoc, mul_left_comm, ← pow_succ']
  refine sqrt_mul_two_pow 400 (k + 1) (by positivity) ?_
  have hpow : (2 : ℝ) ^ e * (2 ^ 400) ^ 2 = 2 ^ i * (2 ^ (k + 1)) ^ 2 * 2 ^ 149 := by
    rw [← pow_mul, ← pow_mul, ← pow_add, ← pow_add, ← pow_add]
    congr 1
    omega
  rw [div_mul_eq_mul_div, div_eq_iff (by positivity), mul_assoc, hpow, Nat.cast_mul, Nat.cast_pow, Nat.cast_ofNat]
  ring

theorem fsqrt_roundsTo (q : BitVec 24) {a : Word} (ha : isFinite a = true) (h0 : 0 ≤ (valueOf a : ℝ)) :
    RoundsTo (f32Sign a) (Real.sqrt (valueOf a)) (fsqrt q a) := by
  obtain ⟨m, e, hu, hv, hm, -⟩ := unpack_of_isFinite ha
  simp only [fsqrt, hu]
  rw [valueOf_of_magnitude hv] at h0 ⊢
  by_cases hm0 : m = 0
  · subst hm0
    simpa using zeroOf_roundsTo (f32Sign a)
  have hs : f32Sign a = false := by
    by_contra hc
    have hpos : (0 : ℝ) < m * 2 ^ e / 2 ^ 149 := by positivity
    rw [Bool.not_eq_false] at hc
    simp only [hc, signFactor, if_true, neg_one_mul, neg_div] at h0
    linarith
  simp only [hs, if_neg hm0, Bool.false_eq_true, if_false, signFactor, one_mul]
  split
  · exact roundPack_stickySqrt_roundsTo _ (by omega) (by omega) (Real.sqrt_nonneg _) (sqrt_significand m (by omega))
  · exact roundPack_stickySqrt_roundsTo _ (by omega) (by omega) (Real.sqrt_nonneg _) (sqrt_significand m (by omega))

/-! ### Conversion -/

/-- Up to 2^24 the significand of an integer needs no rounding; 2^24 itself is the one that carries into the exponent. -/
theorem i2f_exact {i : Nat} (hi : i ≤ 2 ^ 24) :
    isFinite (i2f i) = true ∧ f32Sign (i2f i) = false ∧ valueOf (i2f i) = i := by
  rcases Nat.eq_zero_or_pos i with rfl | h0
  · decide +kernel
  rcases Nat.eq_or_lt_of_le hi with rfl | hlt
  · decide +kernel
  have hlo : 2 ^ i.log2 ≤ i := Nat.log2_self_le (by omega)
  have hhi : i < 2 ^ (i.log2 + 1) := Nat.lt_log2_self
  have hlog : i.log2 < 24 := (Nat.log2_lt (by omega)).2 hlt
  generalize hmant : i * 2 ^ (23 - i.log2) = mant
  have hm1 : 2 ^ 23 ≤ mant := by
    calc 2 ^ 23 = 2 ^ i.log2 * 2 ^ (23 - i.log2) := by rw [← pow_add]; congr 1; omega
      _ ≤ mant := hmant ▸ Nat.mul_le_mul_right _ hlo
  have hm2 : mant < 2 ^ 24 := by
    calc mant < 2 ^ (i.log2 + 1) * 2 ^ (23 - i.log2) := hmant ▸ Nat.mul_lt_mul_of_pos_right hhi (by positivity)
      _ = 2 ^ 24 := by rw [← pow_add]; congr 1; omega
  have hbits : (i.log2 + 126) * 2 ^ 23 + mant < 0x7F800000 := by omega
  have hpack : i2f i = packBits false ((i.log2 + 126) * 2 ^ 23 + mant) := by
    rw [i2f, roundPack, if_neg (by omega), show max (i.log2 + 1 + 400 - 24) 251 = i.log2 + 377 by omega]
    dsimp only
    rw [if_pos (show i.log2 + 377 ≤ 400 by omega), show 400 - (i.log2 + 377) = 23 - i.log2 by omega, hmant,
      show i.log2 + 377 - 251 = i.log2 + 126 by omega, if_neg (by omega)]
  have hmag : magnitudeOf (i2f i) = i * 2 ^ 149 := by
    rw [hpack, magnitudeOf_packBits false hm2.le (.inr hm1) hbits, ← hmant, mul_assoc, ← pow_add]
    congr 2
    omega
  have hsign : f32Sign (i2f i) = false := by rw [hpack, f32Sign_packBits false (by omega)]
  refine ⟨hpack ▸ isFinite_packBits false hbits, hsign, ?_⟩
  rw [valueOf, hsign, hmag, if_neg Bool.false_ne_true, one_mul, Nat.cast_mul, Nat.cast_pow, Nat.cast_ofNat,
    mul_div_cancel_right₀ _ (by positivity)]

/-- Settles O60: `roundPack` rounds to nearest even, every operation hands it the exact result or a bracket of it, and the
order of the patterns is that of their values. -/
theorem roundingIsToNearestEven : Obligations.RoundingIsToNearestEven := by
  refine ⟨roundPack_nearestEven, fun q a b ha hb => ?_, fun a b => comparisons_false_of_isNaN, fun i => i2f_exact⟩
  exact ⟨fadd_roundsTo q ha hb, fsub_roundsTo q ha hb, fmul_roundsTo q ha hb, fdiv_roundsTo q ha hb, fsqrt_roundsTo q ha,
    flt_iff ha hb, flt_iff hb ha, fge_iff ha hb⟩

end Sys2Proof.Machine

namespace Sys2Proof.Machine

/-! ### The pointer code (10_state.md R24) -/

/-- The first `n` terms of the decoder telescope: all but the first and the last bits of the code cancel. -/
theorem foldl_gray_shiftRight (v n : Nat) :
    (List.range n).foldl (fun acc i => acc ^^^ (gray v >>> i)) 0 = v ^^^ (v >>> n) := by
  induction n with
  | zero => simp
  | succ n ih =>
    have hterm : gray v >>> n = v >>> n ^^^ v >>> (n + 1) := by
      rw [gray, Nat.shiftRight_xor_distrib, ← Nat.shiftRight_add, Nat.add_comm 1 n]
    rw [List.range_succ, List.foldl_append, ih, List.foldl_cons, List.foldl_nil, hterm, Nat.xor_assoc,
      ← Nat.xor_assoc (v >>> n), Nat.xor_self, Nat.zero_xor]

theorem ungray_gray {W v : Nat} (h : v < 2 ^ W) : ungray W (gray v) = v := by
  rw [ungray, foldl_gray_shiftRight, Nat.shiftRight_eq_div_pow, Nat.div_eq_of_lt h, Nat.xor_zero]

theorem gray_lt {W v : Nat} (h : v < 2 ^ W) : gray v < 2 ^ W :=
  Nat.xor_lt_two_pow h ((Nat.shiftRight_le v 1).trans_lt h)

theorem gray_xor (a b : Nat) : gray a ^^^ gray b = gray (a ^^^ b) := by
  rw [gray, gray, gray, Nat.shiftRight_xor_distrib]
  ac_rfl

/-- The code of a number whose low `b + 1` bits are ones. -/
theorem gray_ones (b : Nat) : gray (2 ^ (b + 1) - 1) = 2 ^ b := by
  refine Nat.eq_of_testBit_eq fun i => ?_
  rw [gray, Nat.testBit_xor, Nat.testBit_shiftRight, Nat.testBit_two_pow_sub_one, Nat.testBit_two_pow_sub_one,
    Nat.testBit_two_pow]
  rw [Bool.eq_iff_iff]
  simp only [bne_iff_ne, ne_eq, decide_eq_decide, decide_eq_true_eq]
  omega

/-- Counting up by one turns over the trailing ones and the zero above them. -/
theorem xor_succ_eq_ones (v : Nat) : ∃ b, v ^^^ (v + 1) = 2 ^ (b + 1) - 1 := by
  induction v using Nat.strong_induction_on with
  | _ v ih =>
    have hlow : (v ^^^ (v + 1)) % 2 = 1 := by rw [Nat.xor_mod_two_eq]; omega
    have hhigh : (v ^^^ (v + 1)) / 2 = v / 2 ^^^ (v + 1) / 2 := Nat.xor_div_two
    by_cases hv : v % 2 = 0
    · rw [show (v + 1) / 2 = v / 2 by omega, Nat.xor_self] at hhigh
      exact ⟨0, by omega⟩
    · obtain ⟨b, hb⟩ := ih (v / 2) (by omega)
      rw [show (v + 1) / 2 = v / 2 + 1 by omega, hb] at hhigh
      have hpos := Nat.two_pow_pos (b + 1)
      exact ⟨b + 1, by rw [pow_succ]; omega⟩

/-- Two numbers that add up to all ones have no bit in common and miss none. -/
theorem xor_eq_ones {W x y : Nat} (h : x + y = 2 ^ W - 1) : x ^^^ y = 2 ^ W - 1 := by
  have hW : 0 < 2 ^ W := by positivity
  refine Nat.eq_of_testBit_eq fun i => ?_
  rw [Nat.testBit_xor, show x = 2 ^ W - (y + 1) by omega, Nat.testBit_two_pow_sub_succ (by omega),
    Nat.testBit_two_pow_sub_one]
  by_cases hi : i < W
  · simp [hi]
  · simp [hi, Nat.testBit_lt_two_pow (show y < 2 ^ i from
      lt_of_lt_of_le (by omega) (Nat.pow_le_pow_right (by omega) (not_lt.1 hi)))]

/-- The codes of one capacity are centred in the window of 2^W codes. -/
theorem add_codeOff_lt {W Cp i : Nat} (hle : Cp ≤ 2 ^ W) (hi : i < Cp) : i + codeOff W Cp < 2 ^ W := by
  rw [codeOff]
  omega

theorem ptrCode_lt {W Cp i : Nat} (hle : Cp ≤ 2 ^ W) (hi : i < Cp) : ptrCode W Cp i < 2 ^ W :=
  gray_lt (add_codeOff_lt hle hi)

theorem ptrDecode_ptrCode {W Cp i : Nat} (hle : Cp ≤ 2 ^ W) (hi : i < Cp) : ptrDecode W Cp (ptrCode W Cp i) = i := by
  rw [ptrDecode, ptrCode, ungray_gray (add_codeOff_lt hle hi)]
  omega

/-- The first and the last code are mirror images, so they differ in the top bit alone. -/
theorem ptrCode_last_xor_first {W Cp : Nat} (heven : Cp % 2 = 0) (h2 : 2 ≤ Cp) (hle : Cp ≤ 2 ^ W) :
    ptrCode W Cp (Cp - 1) ^^^ ptrCode W Cp 0 = 2 ^ (W - 1) := by
  obtain ⟨n, rfl⟩ : ∃ n, W = n + 1 := Nat.exists_eq_succ_of_ne_zero (by rintro rfl; omega)
  rw [ptrCode, ptrCode, gray_xor, xor_eq_ones (W := n + 1) (by rw [codeOff]; omega), gray_ones, Nat.add_sub_cancel]

theorem ptrCode_xor_succ {W Cp i : Nat} (hle : Cp ≤ 2 ^ W) (hi : i + 1 < Cp) :
    ∃ b, b < W ∧ ptrCode W Cp i ^^^ ptrCode W Cp (i + 1) = 2 ^ b := by
  obtain ⟨b, hb⟩ := xor_succ_eq_ones (i + codeOff W Cp)
  have hxor : ptrCode W Cp i ^^^ ptrCode W Cp (i + 1) = 2 ^ b := by
    rw [ptrCode, ptrCode, gray_xor, Nat.add_right_comm i 1, hb, gray_ones]
  refine ⟨b, (Nat.pow_lt_pow_iff_right (show 1 < 2 by omega)).1 ?_, hxor⟩
  rw [← hxor]
  exact Nat.xor_lt_two_pow (ptrCode_lt hle (by omega)) (ptrCode_lt hle hi)

/-- Settles O26: the decoder's sum telescopes to the coded number, and the window of codes fits W bits. -/
theorem pointerCodeDecodes : Obligations.PointerCodeDecodes :=
  fun _ _ _ _ _ hle hi => ⟨ptrCode_lt hle hi, ptrDecode_ptrCode hle hi⟩

/-- Settles O27: between neighbours the code of a run of ones is left, and at the wrap the code of all ones. -/
theorem pointerCodeChangesOneBit : Obligations.PointerCodeChangesOneBit := by
  intro W Cp i heven h2 hle hi
  refine ⟨?_, ptrCode_last_xor_first heven h2 hle⟩
  rcases Nat.lt_or_ge (i + 1) Cp with hlt | hge
  · rw [Nat.mod_eq_of_lt hlt]
    exact ptrCode_xor_succ hle hlt
  · have hW : W ≠ 0 := by rintro rfl; omega
    obtain rfl : i = Cp - 1 := by omega
    rw [Nat.sub_add_cancel (by omega), Nat.mod_self]
    exact ⟨W - 1, by omega, ptrCode_last_xor_first heven h2 hle⟩

end Sys2Proof.Machine

namespace Sys2Proof.Machine

/-! ### Forward distances (00_scope.md R12, 20_memory.md R72) -/

theorem cast_modC {C : Nat} (hC : 0 < C) (x : Int) : (modC x C : Int) = x % C :=
  Int.toNat_of_nonneg (Int.emod_nonneg _ (by omega))

theorem modC_zero (C : Nat) : modC 0 C = 0 := by simp [modC]

theorem modC_lt {C : Nat} (hC : 0 < C) (x : Int) : modC x C < C := by
  have h := Int.emod_lt_of_pos x (b := C) (by omega)
  rw [← cast_modC hC] at h
  omega

theorem modC_add {C : Nat} (hC : 0 < C) (x y : Int) : modC (x + y) C = (modC x C + modC y C) % C := by
  have h : ((modC (x + y) C : Nat) : Int) = ((modC x C + modC y C) % C : Nat) := by
    rw [cast_modC hC, Int.natCast_mod, Nat.cast_add, cast_modC hC, cast_modC hC, ← Int.add_emod]
  exact_mod_cast h

/-- A way by `b` goes round the ring a whole number of times more than the direct one. -/
theorem modC_sub_via {C : Nat} (hC : 0 < C) (a b c : Int) : modC (c - a) C = (modC (b - a) C + modC (c - b) C) % C := by
  rw [← modC_add hC, show b - a + (c - b) = c - a by omega]

theorem modC_succ_sub {C : Nat} (hC : 2 ≤ C) (n : Nat) : modC ((((n + 1) % C : Nat) : Int) - n) C = 1 := by
  have h : ((modC ((((n + 1) % C : Nat) : Int) - n) C : Nat) : Int) = 1 := by
    rw [cast_modC (by omega), Int.natCast_mod, Int.emod_sub_emod, Nat.cast_add, add_sub_cancel_left, Nat.cast_one,
      Int.emod_eq_of_lt (by omega) (by omega)]
  exact_mod_cast h

/-- A pointer that steps on comes one place closer to what lies before it. -/
theorem modC_sub_succ {C : Nat} (hC : 2 ≤ C) (x : Int) (n : Nat) (h : 1 ≤ modC (x - n) C) :
    modC (x - ((n + 1) % C : Nat)) C = modC (x - n) C - 1 := by
  have hvia := modC_sub_via (show 0 < C by omega) n ((n + 1) % C : Nat) x
  have hlt := modC_lt (show 0 < C by omega) (x - ((n + 1) % C : Nat))
  rw [modC_succ_sub hC] at hvia
  rcases Nat.lt_or_ge (1 + modC (x - ((n + 1) % C : Nat)) C) C with hl | hg
  · rw [Nat.mod_eq_of_lt hl] at hvia
    omega
  · rw [show 1 + modC (x - ((n + 1) % C : Nat)) C = C by omega, Nat.mod_self] at hvia
    omega

/-- A pointer that steps on is one place farther from what lies behind it, but for the wrap. -/
theorem modC_succ_sub_of_lt {C : Nat} (n : Nat) (x : Int) (h : modC (n - x) C + 1 < C) :
    modC ((((n + 1) % C : Nat) : Int) - x) C = modC (n - x) C + 1 := by
  rw [modC_sub_via (by omega) x n, modC_succ_sub (by omega), Nat.mod_eq_of_lt h]

theorem add_modC_sub {C t : Nat} (ht : t < C) (h : Nat) : (h + modC ((t : Int) - h) C) % C = t := by
  have hcast : (((h + modC ((t : Int) - h) C) % C : Nat) : Int) = t := by
    rw [Int.natCast_mod, Nat.cast_add, cast_modC (by omega), Int.add_emod_emod, add_sub_cancel,
      Int.emod_eq_of_lt (by omega) (by omega)]
  exact_mod_cast hcast

theorem forward_cons_cons (C : Nat) (a b : Int) (l : List Int) :
    forward C (a :: b :: l) = modC (b - a) C + forward C (b :: l) := rfl

theorem forward_append_cons (C : Nat) (l : List Int) (a : Int) (r : List Int) :
    forward C (l ++ a :: r) = forward C (l ++ [a]) + forward C (a :: r) := by
  induction l with
  | nil => exact (Nat.zero_add _).symm
  | cons x l ih =>
    cases l with
    | nil => rfl
    | cons y l =>
      rw [List.cons_append] at ih
      simp only [List.cons_append, forward_cons_cons, Nat.add_assoc, ih]

theorem forward_append_dup (C : Nat) (l : List Int) (a : Int) (r : List Int) :
    forward C (l ++ a :: a :: r) = forward C (l ++ a :: r) := by
  rw [forward_append_cons, forward_cons_cons, sub_self, modC_zero, Nat.zero_add, ← forward_append_cons]

theorem forward_le_cons (C : Nat) (a : Int) (l : List Int) : forward C l ≤ forward C (a :: l) := by
  cases l with
  | nil => exact Nat.zero_le _
  | cons b l => exact Nat.le_add_left _ _

/-- Leaving out a stop does not make the way longer. -/
theorem forward_cons_le_insert {C : Nat} (hC : 0 < C) (a b : Int) (l : List Int) :
    forward C (a :: l) ≤ forward C (a :: b :: l) := by
  cases l with
  | nil => exact Nat.zero_le _
  | cons c l =>
    have h := (modC_sub_via hC a b c).trans_le (Nat.mod_le _ _)
    simp only [forward_cons_cons]
    omega

theorem forward_cons_le_of_sublist {C : Nat} (hC : 0 < C) {l₁ l₂ : List Int} (h : l₁.Sublist l₂) (a : Int) :
    forward C (a :: l₁) ≤ forward C (a :: l₂) := by
  induction h generalizing a with
  | slnil => exact le_rfl
  | cons b _ ih => exact (ih a).trans (forward_cons_le_insert hC a b _)
  | cons_cons b _ ih => exact Nat.add_le_add_left (ih b) _

theorem forward_le_of_sublist {C : Nat} (hC : 0 < C) {l₁ l₂ : List Int} (h : l₁.Sublist l₂) :
    forward C l₁ ≤ forward C l₂ := by
  induction h with
  | slnil => exact le_rfl
  | cons b _ ih => exact ih.trans (forward_le_cons C b _)
  | cons_cons b h _ => exact forward_cons_le_of_sublist hC h b

/-- A way shorter than a round is as long as the distance of its ends. -/
theorem modC_ends_eq_forward {C : Nat} (a : Int) (l : List Int) (b : Int) (h : forward C (a :: (l ++ [b])) < C) :
    modC (b - a) C = forward C (a :: (l ++ [b])) := by
  induction l generalizing a with
  | nil => rfl
  | cons x l ih =>
    rw [List.cons_append, forward_cons_cons] at h ⊢
    have hrest := ih x (by omega)
    rw [← hrest] at h ⊢
    rw [modC_sub_via (by omega) a x b, Nat.mod_eq_of_lt h]

theorem forward_eq_zero_of_const {C : Nat} (a : Int) {l : List Int} (h : ∀ x ∈ l, x = a) : forward C l = 0 := by
  induction l with
  | nil => rfl
  | cons x l ih =>
    cases l with
    | nil => rfl
    | cons y l =>
      rw [forward_cons_cons, ih fun z hz => h z (List.mem_cons_of_mem x hz), h x (by simp), h y (by simp), sub_self,
        modC_zero]

/-! ### The constraints on a configuration (00_scope.md R6) -/

theorem wf_bounds {p : Config.Params} (h : p.wf = true) :
    p.capReset % 2 = 0 ∧ 2 ≤ p.capReset ∧ p.capReset ≤ p.depth ∧ 2 ≤ p.syncStages ∧ 2 ≤ p.fftSize ∧ 2 ≤ p.k := by
  simp only [Config.Params.wf, Bool.and_eq_true, decide_eq_true_eq] at h
  omega

/-- PTR_W bits have a code for every slot. -/
theorem depth_le_two_pow_ptrW (p : Config.Params) : p.depth ≤ 2 ^ p.ptrW := by
  have hclog : p.depth ≤ 2 ^ Config.Params.clog2 p.depth := by
    rw [Config.Params.clog2]
    split
    · rename_i h
      simpa using h
    · have := Nat.lt_log2_self (n := p.depth - 1)
      omega
  exact hclog.trans (Nat.pow_le_pow_right (by omega) (le_max_right ..))

/-! ### The stages of a synchroniser -/

/-- Oldest first, the stages begin with the one the other side sees. -/
theorem map_reverse_stages {l : List Nat} (h : l ≠ []) (f : Nat → Int) :
    l.reverse.map f = f (l.getLastD 0) :: l.dropLast.reverse.map f := by
  obtain ⟨init, x, rfl⟩ := (List.eq_nil_or_concat' l).resolve_left h
  simp

/-- A new value at the first stage pushes out the last. -/
theorem take_cons_stages {l : List Nat} {n : Nat} (hl : l.length = n) (hn : 1 ≤ n) (g : Nat) :
    (g :: l).take n = g :: l.dropLast := by
  obtain ⟨m, rfl⟩ : ∃ m, n = m + 1 := ⟨n - 1, by omega⟩
  rw [List.take_succ_cons, List.dropLast_eq_take, hl, Nat.add_sub_cancel]

/-- The stages of the head synchroniser behind the one the producer sees, decoded, oldest first. -/
def hiddenHeads (s : State) : List Int := s.headv.dropLast.reverse.map (decodeOf s)

/-- The stages of the tail synchroniser behind the one the consumer sees, decoded, oldest first. -/
def hiddenTails (s : State) : List Int := s.tailv.dropLast.reverse.map (decodeOf s)

/-! ### Pointers and views in order -/

namespace RingInv

variable {s : State} (h : RingInv s)
include h

theorem capacity_pos : 0 < s.capacity := Nat.lt_of_lt_of_le Nat.two_pos h.cap_ge_two

theorem syncStages_pos : 1 ≤ s.cfg.syncStages := by
  obtain ⟨-, -, -, hstages, -⟩ := wf_bounds h.cfg_wf
  omega

theorem decodeOf_codeOf {i : Nat} (hi : i < s.capacity) : decodeOf s (codeOf s i) = i :=
  ptrDecode_ptrCode (h.cap_le_depth.trans (depth_le_two_pow_ptrW s.cfg)) hi

theorem headv_eq : s.headv.reverse.map (decodeOf s) = headView s :: hiddenHeads s :=
  map_reverse_stages (List.ne_nil_of_length_pos (h.headv_length ▸ h.syncStages_pos)) _

theorem tailv_eq : s.tailv.reverse.map (decodeOf s) = tailView s :: hiddenTails s :=
  map_reverse_stages (List.ne_nil_of_length_pos (h.tailv_length ▸ h.syncStages_pos)) _

/-- The sequence of R72 with the two views named. -/
theorem chain_eq : chain s =
    headView s :: (hiddenHeads s ++ (s.head : Int) :: tailView s :: (hiddenTails s ++ [(s.tail : Int)])) := by
  simp [chain, h.headv_eq, h.tailv_eq]

theorem spread_lt : spread s < s.capacity := by
  have := h.spread_le
  have := h.capacity_pos
  omega

/-- What the producer counts as used is the whole way from its view of the head to the tail. -/
theorem occP_eq_spread : occP s = spread s := by
  have hlt := h.spread_lt
  have hends := modC_ends_eq_forward (C := s.capacity) (headView s)
    (hiddenHeads s ++ (s.head : Int) :: tailView s :: hiddenTails s) s.tail
  simp only [spread, h.chain_eq, List.append_assoc, List.cons_append] at hlt hends ⊢
  exact hends hlt

/-- Beyond the consumer's view of the tail the distances from HEAD add up. -/
theorem modC_sub_head_of_mem {x : Int} (hx : x ∈ hiddenTails s ++ [(s.tail : Int)]) :
    modC (x - s.head) s.capacity = readyC s + modC (x - tailView s) s.capacity := by
  have hsub : List.Sublist [(s.head : Int), tailView s, x] (chain s) := by
    rw [h.chain_eq]
    exact (List.sublist_append_of_sublist_right
      (((List.singleton_sublist.2 hx).cons_cons _).cons_cons _)).cons _
  have hlt := (forward_le_of_sublist h.capacity_pos hsub).trans_lt h.spread_lt
  exact modC_ends_eq_forward _ [tailView s] x hlt

theorem occ_eq : occ s = readyC s + modC (s.tail - tailView s) s.capacity :=
  h.modC_sub_head_of_mem (by simp)

theorem occ_le_spread : occ s ≤ spread s := by
  have hsub : List.Sublist [(s.head : Int), (s.tail : Int)] (chain s) := by
    simp only [chain, List.append_assoc, List.cons_append, List.nil_append]
    exact List.sublist_append_of_sublist_right ((List.sublist_append_right ..).cons_cons _)
  exact forward_le_of_sublist h.capacity_pos hsub

/-! ### The steps of the synchronisers (20_memory.md R66, R67) -/

theorem tailv_syncTail : (syncTail s).tailv = codeOf s s.tail :: s.tailv.dropLast :=
  take_cons_stages h.tailv_length h.syncStages_pos _

theorem headv_syncHead : (syncHead s).headv = codeOf s s.head :: s.headv.dropLast :=
  take_cons_stages h.headv_length h.syncStages_pos _

theorem tailv_eq_syncTail : (syncTail s).tailv.reverse.map (decodeOf s) = hiddenTails s ++ [(s.tail : Int)] := by
  rw [h.tailv_syncTail, List.reverse_cons, List.map_append, List.map_singleton, h.decodeOf_codeOf h.tail_lt, hiddenTails]

theorem headv_eq_syncHead : (syncHead s).headv.reverse.map (decodeOf s) = hiddenHeads s ++ [(s.head : Int)] := by
  rw [h.headv_syncHead, List.reverse_cons, List.map_append, List.map_singleton, h.decodeOf_codeOf h.head_lt, hiddenHeads]

/-- The stage that is pushed out leaves the sequence, and the pointer stands in it twice. -/
theorem spread_syncTail_le : spread (syncTail s) ≤ spread s := by
  have hchain : chain (syncTail s) =
      headView s :: (hiddenHeads s ++ (s.head : Int) :: hiddenTails s) ++ [(s.tail : Int), (s.tail : Int)] := by
    rw [show chain (syncTail s) = s.headv.reverse.map (decodeOf s) ++ [(s.head : Int)] ++
      (syncTail s).tailv.reverse.map (decodeOf s) ++ [(s.tail : Int)] from rfl, h.tailv_eq_syncTail, h.headv_eq]
    simp
  rw [spread, hchain, forward_append_dup, spread, h.chain_eq]
  refine forward_le_of_sublist h.capacity_pos ?_
  simp only [List.cons_append, List.append_assoc]
  exact (((List.sublist_cons_self _ _).cons_cons _).append_left _).cons_cons _

theorem spread_syncHead_le : spread (syncHead s) ≤ spread s := by
  have hchain : chain (syncHead s) =
      hiddenHeads s ++ (s.head : Int) :: (s.head : Int) :: (tailView s :: (hiddenTails s ++ [(s.tail : Int)])) := by
    rw [show chain (syncHead s) = (syncHead s).headv.reverse.map (decodeOf s) ++ [(s.head : Int)] ++
      s.tailv.reverse.map (decodeOf s) ++ [(s.tail : Int)] from rfl, h.headv_eq_syncHead, h.tailv_eq]
    simp
  rw [spread, hchain, forward_append_dup, spread, h.chain_eq]
  exact forward_le_cons _ _ _

theorem syncTail : RingInv (syncTail s) :=
  { h with
    tailv_length := by rw [h.tailv_syncTail, List.length_cons, List.length_dropLast, h.tailv_length]
                       exact Nat.sub_add_cancel h.syncStages_pos
    tailv_codes := by
      rw [h.tailv_syncTail]
      intro g hg
      rcases List.mem_cons.1 hg with rfl | hg
      · exact ⟨s.tail, h.tail_lt, rfl⟩
      · exact h.tailv_codes g (List.mem_of_mem_dropLast hg)
    spread_le := (Nat.add_le_add_right h.spread_syncTail_le _).trans h.spread_le }

theorem syncHead : RingInv (syncHead s) :=
  { h with
    headv_length := by rw [h.headv_syncHead, List.length_cons, List.length_dropLast, h.headv_length]
                       exact Nat.sub_add_cancel h.syncStages_pos
    headv_codes := by
      rw [h.headv_syncHead]
      intro g hg
      rcases List.mem_cons.1 hg with rfl | hg
      · exact ⟨s.head, h.head_lt, rfl⟩
      · exact h.headv_codes g (List.mem_of_mem_dropLast hg)
    spread_le := (Nat.add_le_add_right h.spread_syncHead_le _).trans h.spread_le }

/-- The consumer's view of the tail only moves toward the tail. -/
theorem readyC_le_syncTail : readyC s ≤ readyC (Machine.syncTail s) := by
  have hmem : tailView (Machine.syncTail s) ∈ hiddenTails s ++ [(s.tail : Int)] := by
    rw [← h.tailv_eq_syncTail]
    exact List.mem_of_mem_head? (by rw [show decodeOf s = decodeOf (Machine.syncTail s) from rfl, h.syncTail.tailv_eq]; rfl)
  exact (Nat.le_add_right _ _).trans_eq (h.modC_sub_head_of_mem hmem).symm

end RingInv

end Sys2Proof.Machine

namespace Sys2Proof.Machine

/-! ### The pointers step on (40_ring_buffer.md R127, R133) -/

/-- The state after a beat of port P (R127). -/
def afterBeat (item : Item) (s : State) : State :=
  { s with
    ring := Memory.write none s.ring s.tail (onWires s.cfg.nCh item)
    tail := (s.tail + 1) % s.capacity
    pRem := s.pRem - 1
    pPhase := if s.pRem - 1 = 0 then .idle else s.pPhase }

theorem writeBeat_eq_afterBeat {item : Item} {s t : State} (h : writeBeat item s = .next t) : t = afterBeat item s :=
  (writeBeat_next h).2

namespace RingInv

variable {s : State} (h : RingInv s)
include h

theorem pRem_pos (hp : s.pPhase = .busy) : 0 < s.pRem :=
  Nat.pos_of_ne_zero fun h0 => by simp [h.idle_iff.2 h0] at hp

/-- While port P is BUSY a slot is free, so a beat adds one item. -/
theorem occ_afterBeat (hp : s.pPhase = .busy) (item : Item) : occ (afterBeat item s) = occ s + 1 := by
  have hrem := h.pRem_pos hp
  have hspread := h.spread_le
  have hocc := h.occ_le_spread
  exact modC_succ_sub_of_lt s.tail s.head (by rw [occ, occupied] at hocc; omega)

theorem spread_afterBeat_le (item : Item) : spread (afterBeat item s) ≤ spread s + 1 := by
  generalize hl : headView s :: (hiddenHeads s ++ (s.head : Int) :: tailView s :: hiddenTails s) = l
  have hold : chain s = l ++ [(s.tail : Int)] := by rw [h.chain_eq, ← hl]; simp
  have hnew : chain (afterBeat item s) = l ++ [(((s.tail + 1) % s.capacity : Nat) : Int)] := by
    rw [show chain (afterBeat item s) = s.headv.reverse.map (decodeOf s) ++ [(s.head : Int)] ++
      s.tailv.reverse.map (decodeOf s) ++ [(((s.tail + 1) % s.capacity : Nat) : Int)] from rfl, h.headv_eq, h.tailv_eq, ← hl]
    simp
  calc spread (afterBeat item s)
      ≤ forward s.capacity (l ++ [(s.tail : Int), (((s.tail + 1) % s.capacity : Nat) : Int)]) := by
        rw [spread, hnew]
        exact forward_le_of_sublist h.capacity_pos ((List.sublist_cons_self ..).append_left l)
    _ = spread s + 1 := by
        rw [spread, hold, forward_append_cons, forward_cons_cons, modC_succ_sub h.cap_ge_two]; rfl

theorem afterBeat (hp : s.pPhase = .busy) (item : Item) : RingInv (afterBeat item s) :=
  { h with
    tail_lt := Nat.mod_lt _ h.capacity_pos
    spread_le := by
      have hspread := h.spread_afterBeat_le item
      have hle := h.spread_le
      have hrem := h.pRem_pos hp
      simp only [Machine.afterBeat] at hspread ⊢
      omega
    idle_iff := by simp [Machine.afterBeat, hp] }

/-- The release moves HEAD toward what the consumer sees as ready, so the way round stays as long. -/
theorem spread_releaseStep_le (hr : 1 ≤ readyC s) : spread (releaseStep s) ≤ spread s := by
  generalize hl : headView s :: hiddenHeads s = l
  generalize hr' : hiddenTails s ++ [(s.tail : Int)] = r
  have hold : chain s = l ++ (s.head : Int) :: tailView s :: r := by rw [h.chain_eq, ← hl, ← hr']; simp
  have hnew : chain (releaseStep s) = l ++ (((s.head + 1) % s.capacity : Nat) : Int) :: tailView s :: r := by
    rw [show chain (releaseStep s) = s.headv.reverse.map (decodeOf s) ++ [(((s.head + 1) % s.capacity : Nat) : Int)] ++
      s.tailv.reverse.map (decodeOf s) ++ [(s.tail : Int)] from rfl, h.headv_eq, h.tailv_eq, ← hl, ← hr']
    simp
  calc spread (releaseStep s)
      ≤ forward s.capacity (l ++ (s.head : Int) :: (((s.head + 1) % s.capacity : Nat) : Int) :: tailView s :: r) := by
        rw [spread, hnew]
        exact forward_le_of_sublist h.capacity_pos ((List.sublist_cons_self ..).append_left l)
    _ = spread s := by
        have hone := modC_sub_succ h.cap_ge_two (tailView s) s.head hr
        rw [readyC, occupied] at hr
        rw [spread, hold, forward_append_cons, forward_append_cons s.capacity l _ (tailView s :: r)]
        simp only [forward_cons_cons, modC_succ_sub h.cap_ge_two, hone]
        omega

theorem readyC_releaseStep (hr : 1 ≤ readyC s) : readyC (releaseStep s) = readyC s - 1 :=
  modC_sub_succ h.cap_ge_two (tailView s) s.head hr

theorem occ_releaseStep (hr : 1 ≤ readyC s) : occ (releaseStep s) = occ s - 1 :=
  modC_sub_succ h.cap_ge_two s.tail s.head (hr.trans ((Nat.le_add_right ..).trans_eq h.occ_eq.symm))

theorem releaseStep (hr : 1 ≤ readyC s) : RingInv (releaseStep s) :=
  { h with
    head_lt := Nat.mod_lt _ h.capacity_pos
    spread_le := (Nat.add_le_add_right (h.spread_releaseStep_le hr) _).trans h.spread_le }

/-- An admitted WRITE asks for no more than the producer counts as free (R125). -/
theorem startWrite {n : Nat} (hn : n ≤ freeP s) : RingInv (startWrite n s) := by
  rw [Machine.startWrite]
  split
  · exact h
  · rename_i hn0
    refine { h with spread_le := ?_, idle_iff := by simp [hn0] }
    have hlt := h.spread_lt
    rw [freeP, h.occP_eq_spread] at hn
    show spread s + n ≤ s.capacity - 1
    omega

end RingInv

/-! ### Cleared pointers (40_ring_buffer.md R140, R141) -/

theorem spread_clearPointers {s : State} (h2 : 2 ≤ s.capacity) (hle : s.capacity ≤ s.cfg.depth) :
    spread (clearPointers s) = 0 := by
  have hzero : decodeOf (clearPointers s) (codeOf s 0) = 0 :=
    ptrDecode_ptrCode (hle.trans (depth_le_two_pow_ptrW s.cfg)) (Nat.lt_of_lt_of_le Nat.two_pos h2)
  refine forward_eq_zero_of_const 0 fun x hx => ?_
  simp only [chain, clearPointers_headv, clearPointers_tailv, clearPointers_head, clearPointers_tail,
    List.reverse_replicate, List.map_replicate, hzero, List.mem_append, List.mem_replicate, List.mem_singleton] at hx
  omega

theorem ringInv_clearPointers {s : State} (hcfg : s.cfg.wf = true) (heven : s.capacity % 2 = 0) (h2 : 2 ≤ s.capacity)
    (hle : s.capacity ≤ s.cfg.depth) (hp : s.pPhase = .idle) (hrem : s.pRem = 0) : RingInv (clearPointers s) where
  cfg_wf := hcfg
  cap_even := heven
  cap_ge_two := h2
  cap_le_depth := hle
  tail_lt := Nat.lt_of_lt_of_le Nat.two_pos h2
  head_lt := Nat.lt_of_lt_of_le Nat.two_pos h2
  tailv_length := List.length_replicate
  headv_length := List.length_replicate
  tailv_codes g hg := ⟨0, Nat.lt_of_lt_of_le Nat.two_pos h2, List.eq_of_mem_replicate hg⟩
  headv_codes g hg := ⟨0, Nat.lt_of_lt_of_le Nat.two_pos h2, List.eq_of_mem_replicate hg⟩
  spread_le := by rw [spread_clearPointers h2 hle, clearPointers_pRem, hrem]; exact Nat.zero_le _
  idle_iff := by simp [hp, hrem]

/-- The reset state has its pointers cleared. -/
theorem ringInv_resetWith {p : Config.Params} (h : p.wf = true) : RingInv (State.resetWith p) := by
  obtain ⟨heven, h2, hle, -⟩ := wf_bounds h
  exact ringInv_clearPointers (s := State.resetWith p) h heven h2 hle rfl rfl

theorem occ_clearPointers (s : State) : occ (clearPointers s) = 0 := modC_zero s.capacity

/-! ### The transfer of port C (40_ring_buffer.md R132, R133) -/

theorem readyC_deliver (item : Item) (s : State) : readyC (deliver item s) = readyC s := by
  simp [readyC, tailView, decodeOf]

theorem deliver_inBuf_analyzer {s : State} (h : s.cDst = .analyzer) (item : Item) :
    (deliver item s).inBuf =
      Memory.write none s.inBuf s.cOff (channelSum (Config.freeNaN s.draws) s.cfg.nCh item) := by
  rw [deliver, h]

/-- Which part of `TransferInv` each phase needs: nothing in IDLE. -/
theorem transferInv_of_idle {s : State} (h : s.cPhase = .idle) : TransferInv s := by
  constructor <;> simp [h]

section Phases

variable {s : State} (hax : s.cDst = .analyzer → s.axisValid = true)
include hax

theorem transferInv_of_beats (h : s.cPhase = .beats)
    (hcount : 0 < s.cRem ∧ s.cRel ≤ s.cOff + s.cRem ∧ s.cOff + s.cRem ≤ readyC s)
    (hblock : s.cDst = .analyzer → s.cOff + s.cRem = s.cfg.fftSize)
    (hin : s.cDst = .analyzer → ∀ j, j < s.cfg.fftSize → j < s.cOff → Memory.read none s.inBuf j ≠ none) :
    TransferInv s where
  beats _ := hcount
  release := by simp [h]
  compute := by simp [h]
  block _ := hblock
  axis_valid _ := hax
  input _ hd j hj hlt := hin hd j hj (hlt h)

variable (hin : s.cDst = .analyzer → ∀ j, j < s.cfg.fftSize → Memory.read none s.inBuf j ≠ none)
include hin

theorem transferInv_of_release (h : s.cPhase = .release) (hcount : 0 < s.cRel ∧ s.cRel ≤ readyC s) :
    TransferInv s where
  beats := by simp [h]
  release _ := hcount
  compute := by simp [h]
  block := by simp [h]
  axis_valid _ := hax
  input _ hd j hj _ := hin hd j hj

theorem transferInv_of_afterTransfer (h : s.cPhase = afterTransfer s.cDst) : TransferInv s := by
  cases hd : s.cDst with
  | port => exact transferInv_of_idle (by rw [h, hd]; rfl)
  | analyzer =>
    have hphase : s.cPhase = .compute := by rw [h, hd]; rfl
    exact {
      beats := by simp [hphase]
      release := by simp [hphase]
      compute := fun _ => hd
      block := by simp [hphase]
      axis_valid := fun _ => hax
      input := fun _ hd j hj _ => hin hd j hj }

end Phases

namespace TransferInv

variable {s : State} (h : TransferInv s)
include h

/-- More ready items do no harm. -/
theorem syncTail (hring : RingInv s) : TransferInv (syncTail s) :=
  { h with
    beats := fun hb => (h.beats hb).imp_right (And.imp_right fun hle => hle.trans hring.readyC_le_syncTail)
    release := fun hr => (h.release hr).imp_right fun hle => hle.trans hring.readyC_le_syncTail }

/-- The element the beat wrote, and those before it, have values. -/
theorem read_inBuf_deliver_ne_none (hwf : Memory.wf none s.inBuf = true) (hb : s.cPhase = .beats)
    (hd : s.cDst = .analyzer) (item : Item) {j : Nat} (hj : j < s.cfg.fftSize) (hle : j ≤ s.cOff) :
    Memory.read none (deliver item s).inBuf j ≠ none := by
  rw [deliver_inBuf_analyzer hd]
  rcases Nat.eq_or_lt_of_le hle with rfl | hlt
  · rw [Memory.read_write_same _ _ hwf]
    exact Option.some_ne_none _
  · rw [Memory.read_write_other _ _ _ (by omega)]
    exact h.input (by simp [hb]) hd j hj fun _ => hlt

/-- After a beat the phase is BEATS as long as items remain, then RELEASE if any are to be released. -/
theorem beat (hwf : Memory.wf none s.inBuf = true) (hb : s.cPhase = .beats) (item : Item) :
    TransferInv (advanceBeat (deliver item s)) := by
  obtain ⟨hrem, hrel, hready⟩ := h.beats hb
  have hready' : readyC (advanceBeat (deliver item s)) = readyC s := readyC_deliver item s
  have hax : (advanceBeat (deliver item s)).cDst = .analyzer → (advanceBeat (deliver item s)).axisValid = true := by
    simpa using h.axis_valid (by simp [hb])
  by_cases hlast : s.cRem = 1
  · have hin : (advanceBeat (deliver item s)).cDst = .analyzer → ∀ j, j < (advanceBeat (deliver item s)).cfg.fftSize →
        Memory.read none (advanceBeat (deliver item s)).inBuf j ≠ none := by
      simp only [advanceBeat_cDst, advanceBeat_cfg, advanceBeat_inBuf, deliver_cDst, deliver_cfg]
      intro hd j hj
      have := h.block hb hd
      exact h.read_inBuf_deliver_ne_none hwf hb hd item hj (by omega)
    by_cases hpos : 0 < s.cRel
    · exact transferInv_of_release hax hin (by simp [hlast, hpos])
        (by rw [hready']; simpa using ⟨hpos, hrel.trans hready⟩)
    · exact transferInv_of_afterTransfer hax hin (by simp [hlast, hpos])
  · refine transferInv_of_beats hax ?_ ?_ ?_ ?_
    · simpa [hb] using fun h0 : s.cRem - 1 = 0 => absurd h0 (by omega)
    · simp only [hready', advanceBeat_cRem, advanceBeat_cRel, advanceBeat_cOff, deliver_cRem, deliver_cRel, deliver_cOff]
      omega
    · intro hd
      have := h.block hb (by simpa using hd)
      simp only [advanceBeat_cOff, advanceBeat_cRem, advanceBeat_cfg, deliver_cOff, deliver_cRem, deliver_cfg]
      omega
    · simp only [advanceBeat_cDst, advanceBeat_cfg, advanceBeat_inBuf, advanceBeat_cOff, deliver_cDst, deliver_cfg,
        deliver_cOff]
      exact fun hd j hj hlt => h.read_inBuf_deliver_ne_none hwf hb hd item hj (by omega)

theorem releaseStep (hring : RingInv s) (hr : s.cPhase = .release) : TransferInv (releaseStep s) := by
  obtain ⟨hrel, hready⟩ := h.release hr
  have hready' := hring.readyC_releaseStep (hrel.trans_le hready)
  have hne : s.cPhase ≠ .idle := by simp [hr]
  have hin : s.cDst = .analyzer → ∀ j, j < s.cfg.fftSize → Memory.read none s.inBuf j ≠ none :=
    fun hd j hj => h.input hne hd j hj (by simp [hr])
  by_cases hlast : s.cRel = 1
  · exact transferInv_of_afterTransfer (h.axis_valid hne) hin (by simp [hlast])
  · refine transferInv_of_release (h.axis_valid hne) hin ?_ ?_
    · simpa [hr] using fun h0 : s.cRel - 1 = 0 => absurd h0 (by omega)
    · rw [hready', releaseStep_cRel]
      omega

end TransferInv

theorem transferInv_startTransfer {s : State} {dst : CDst} {n c : Nat} (hn : 0 < n) (hc : c ≤ n) (hready : n ≤ readyC s)
    (han : dst = .analyzer → n = s.cfg.fftSize ∧ s.axisValid = true) : TransferInv (startTransfer dst n c s) := by
  refine transferInv_of_beats (fun hd => (han hd).2) rfl ⟨hn, ?_, ?_⟩ (fun hd => ?_) (fun _ j _ hlt => ?_)
  · simpa using hc
  · exact (Nat.zero_add n).trans_le hready
  · simpa using (han hd).1
  · exact absurd hlt (Nat.not_lt_zero j)

end Sys2Proof.Machine

namespace Sys2Proof.Machine

/-! ### Spaces in canonical form within their size -/

namespace Memory

variable {α : Type} [DecidableEq α] {d : Option α} {n : Nat}

theorem canonical_nil : wf d ([] : Memory α) = true ∧ Below n ([] : Memory α) := ⟨wf_nil d, by simp [Below]⟩

theorem canonical_write {m : Memory α} {a : Nat} (v : α) (ha : a < n) (h : wf d m = true ∧ Below n m) :
    wf d (write d m a v) = true ∧ Below n (write d m a v) := by
  refine ⟨wf_write a v h.1, fun e he => ?_⟩
  rcases mem_write he with rfl | he
  · exact ha
  · exact h.2 e he

theorem canonical_writeFrom (vs : List α) {m : Memory α} (i : Nat) (hle : i + vs.length ≤ n)
    (h : wf d m = true ∧ Below n m) : wf d (writeFrom d m i vs) = true ∧ Below n (writeFrom d m i vs) := by
  induction vs generalizing m i with
  | nil => exact h
  | cons v vs ih =>
    rw [List.length_cons] at hle
    exact ih (i + 1) (by omega) (canonical_write v (by omega) h)

/-- A write takes no value away. -/
theorem read_write_ne_none {m : Memory α} (hm : wf d m = true) (a b : Nat) (v : α) (h : b = a ∨ read d m b ≠ none) :
    read d (write d m a v) b ≠ none := by
  by_cases hb : b = a
  · rw [hb, read_write_same a v hm]
    exact Option.some_ne_none v
  · rw [read_write_other a b v hb]
    exact h.resolve_left hb

end Memory

/-! ### The sizes of what a tick computes (42_spectral_analyzer.md, 43_interpolator.md R222) -/

theorem foldl_set_length (f : Nat → Nat) (g : Nat → Word) (xs : List Nat) (ys : List Word) :
    (xs.foldl (fun zs j => zs.set (f j) (g j)) ys).length = ys.length :=
  List.foldlRecOn (motive := fun zs : List Word => zs.length = ys.length) xs _ rfl fun _ hz _ _ => List.length_set.trans hz

/-- Both work arrays have `N` elements (10_state.md R32). -/
def Work.HasSize (N : Nat) (z : Work) : Prop := z.re.length = N ∧ z.im.length = N

theorem hasSize_fftStage (nan : Config.DrawSite → BitVec 24) (N s : Nat) {n : Nat} {z : Work} (hz : z.HasSize n) :
    (fftStage nan N s z).HasSize n :=
  List.foldlRecOn (motive := Work.HasSize n) _ _ hz fun _ hy _ _ =>
    List.foldlRecOn (motive := Work.HasSize n) _ _ hy fun _ hx _ _ => by simpa [Work.HasSize] using hx

theorem hasSize_fft (nan : Config.DrawSite → BitVec 24) (N L : Nat) (xs : List Word) : (fft nan N L xs).HasSize N :=
  List.foldlRecOn (motive := Work.HasSize N) _ _ (by simp [Work.HasSize, loadReversed, foldl_set_length])
    fun _ hz i _ => hasSize_fftStage nan N (i + 1) hz

theorem foldl_passIndex_length (nan : Config.DrawSite → BitVec 24) (bins : Nat) (interp nyq : Word) (S fs : List Word)
    (l : List Nat) (a : Pass) :
    (l.foldl (passIndex nan bins interp nyq S fs) a).out.length = a.out.length + l.length := by
  induction l generalizing a with
  | nil => rfl
  | cons x l ih =>
    simp only [List.foldl_cons, ih, passIndex, List.length_append, List.length_cons, List.length_nil]
    omega

theorem interpPass_length (nan : Config.DrawSite → BitVec 24) (bins : Nat) (interp aSrate : Word) (S fs : List Word) :
    (interpPass nan bins interp aSrate S fs).out.length = fs.length := by
  simp [interpPass, foldl_passIndex_length]

/-- Slot `p` of the averaging window lies within AVG (10_state.md R40). -/
theorem avgIx_lt {K bins p k : Nat} (hp : p < K) (hk : k < bins) : avgIx bins p k < K * bins :=
  calc p * bins + k < (p + 1) * bins := by rw [Nat.add_mul]; omega
    _ ≤ K * bins := Nat.mul_le_mul_right bins hp

theorem canonical_average (nan : Config.DrawSite → BitVec 24) {K bins p : Nat} (hp : p < K) (inv : Word)
    (mags : List Word) {avg : Memory Word} (h : Memory.wf zeroed avg = true ∧ Below (K * bins) avg) :
    Memory.wf zeroed (average nan bins p inv mags avg) = true ∧ Below (K * bins) (average nan bins p inv mags avg) := by
  refine List.foldlRecOn (motive := fun m => Memory.wf zeroed m = true ∧ Below (K * bins) m) _ _ h fun m hm k hk => ?_
  have h0 := avgIx_lt (Nat.zero_lt_of_lt hp) (List.mem_range.1 hk)
  have hp := avgIx_lt hp (List.mem_range.1 hk)
  exact Memory.canonical_write _ h0 (Memory.canonical_write _ hp (Memory.canonical_write _ h0 hm))

theorem nextAvgPtr_bounds {K p : Nat} (hK : 2 ≤ K) (hp : p < K) : 1 ≤ nextAvgPtr K p ∧ nextAvgPtr K p < K := by
  unfold nextAvgPtr
  split <;> omega

/-! ### The tables of port C -/

theorem axisAccepted_bounds {resMax : Nat} {r lo hi d sr : Word} (h : axisAccepted resMax r lo hi d sr = true) :
    2 ≤ r.toNat ∧ r.toNat ≤ resMax := by
  simp only [axisAccepted, Bool.and_eq_true, decide_eq_true_eq] at h
  omega

theorem storeInv_resetWith {p : Config.Params} (h : p.wf = true) : StoreInv (State.resetWith p) where
  ring_written j hj := by
    rw [show occ (State.resetWith p) = 0 from occ_clearPointers (State.resetWith p)] at hj
    omega
  axis_written hv := by simp [State.resetWith] at hv
  ares_le := Nat.zero_le _
  avgptr_ge := le_rfl
  avgptr_lt := by
    obtain ⟨-, -, -, -, -, hk⟩ := wf_bounds h
    exact hk
  dist_le := Nat.zero_le _
  adist_le := Nat.zero_le _
  interp_le := Nat.zero_le _
  ring_wf := Memory.canonical_nil
  in_wf := Memory.canonical_nil
  re_wf := Memory.canonical_nil
  im_wf := Memory.canonical_nil
  mag_wf := Memory.canonical_nil
  avg_wf := Memory.canonical_nil
  axis_wf := Memory.canonical_nil
  out_wf := Memory.canonical_nil

theorem slotAt_releaseStep (s : State) (j : Nat) : slotAt (releaseStep s) j = slotAt s (j + 1) := by
  simp [slotAt, Nat.add_assoc, Nat.add_comm 1 j]

namespace StoreInv

variable {s : State} (h : StoreInv s)
include h

/-- The beat writes the slot behind the last item held (20_memory.md R65, 40_ring_buffer.md R127). -/
theorem afterBeat (hring : RingInv s) (hp : s.pPhase = .busy) (item : Item) : StoreInv (afterBeat item s) :=
  { h with
    ring_written := by
      intro j hj
      rw [hring.occ_afterBeat hp] at hj
      refine Memory.read_write_ne_none h.ring_wf.1 _ _ _ ?_
      rcases Nat.lt_succ_iff_lt_or_eq.1 hj with hlt | rfl
      · exact .inr (h.ring_written j hlt)
      · exact .inl (add_modC_sub hring.tail_lt s.head)
    ring_wf := Memory.canonical_write _ (hring.tail_lt.trans_le hring.cap_le_depth) h.ring_wf }

theorem releaseStep (hring : RingInv s) (hr : 1 ≤ readyC s) : StoreInv (releaseStep s) :=
  { h with
    ring_written := by
      intro j hj
      rw [hring.occ_releaseStep hr] at hj
      rw [ringRead, slotAt_releaseStep]
      exact h.ring_written (j + 1) (by omega) }

theorem clearPointers (cap : Nat) : StoreInv (clearPointers { s with capacity := cap }) :=
  { h with
    ring_written := fun j hj => by
      rw [occ_clearPointers] at hj
      omega }

theorem deliver (hoff : s.cDst = .analyzer → s.cOff < s.cfg.fftSize) (item : Item) : StoreInv (deliver item s) := by
  cases hd : s.cDst with
  | port => rw [Machine.deliver, hd]; exact { h with }
  | analyzer => rw [Machine.deliver, hd]; exact { h with in_wf := Memory.canonical_write _ (hoff hd) h.in_wf }

/-- WRCSR refuses the reserved values (41_csr_and_config.md R161). -/
theorem csrWrite {r : Csr} {v : Word} (hv : r.reserved v = false) : StoreInv (csrWrite s v r) := by
  cases r
  case dist => exact { h with dist_le := by simpa [Csr.reserved, Machine.csrWrite] using hv }
  case interp => exact { h with interp_le := by simpa [Csr.reserved, Machine.csrWrite] using hv }
  all_goals exact { h with }

theorem buildAxis (ha : axisAccepted s.cfg.resMax s.res s.fmin s.fmax s.dist s.srate = true) :
    StoreInv (buildAxis s) := by
  obtain ⟨h2, hmax⟩ := axisAccepted_bounds ha
  exact { h with
    axis_written := fun _ => ⟨h2, fun i hi => by
      rw [buildAxis_axis, Memory.read_writeFrom _ 0 i h.axis_wf.1, if_pos (by simpa [axisEntries] using hi)]
      simpa [axisEntries] using hi⟩
    ares_le := hmax
    adist_le := h.dist_le
    axis_wf := Memory.canonical_writeFrom _ 0 (by simpa [axisEntries] using hmax) h.axis_wf
    out_wf := Memory.canonical_nil }

theorem applyTick (hcfg : s.cfg.wf = true) (xs : List Word) {fs : List Word} (hfs : fs.length = s.aRes.toNat) :
    StoreInv (applyTick (tick s xs fs) s) := by
  obtain ⟨-, -, -, -, -, hk⟩ := wf_bounds hcfg
  obtain ⟨hge, hlt⟩ := nextAvgPtr_bounds hk h.avgptr_lt
  obtain ⟨hre, him⟩ := hasSize_fft (Config.freeNaN s.draws) s.cfg.fftSize s.cfg.log2n (tick s xs fs).input
  exact { h with
    avgptr_ge := hge
    avgptr_lt := hlt
    in_wf := Memory.canonical_writeFrom _ 0 (by simp [tick, windowed]) h.in_wf
    re_wf := Memory.canonical_writeFrom _ 0 (by rw [Nat.zero_add]; exact hre.le) h.re_wf
    im_wf := Memory.canonical_writeFrom _ 0 (by rw [Nat.zero_add]; exact him.le) h.im_wf
    mag_wf := Memory.canonical_writeFrom _ 0 (by simp [tick, magnitudes]) h.mag_wf
    avg_wf := canonical_average _ h.avgptr_lt _ _ h.avg_wf
    out_wf := Memory.canonical_writeFrom _ 0
      (by rw [Nat.zero_add]; exact (interpPass_length ..).trans_le (hfs.trans_le h.ares_le)) h.out_wf }

end StoreInv

end Sys2Proof.Machine

namespace Sys2Proof.Machine

/-! ### What a command does beside its response -/

/-- The state a command leaves, its response left out: a non-OK status and a query leave the state as it is, and each other
case is the change its rule gives, with the tests passed before it. -/
inductive Effect (s : State) : Instr → State → Prop
  | unchanged (i : Instr) : Effect s i s
  | write {n : Nat} (hp : s.port = .P) (hn : n ≤ freeP s) : Effect s (.write n) (startWrite n s)
  | read {n c : Nat} (hp : s.port = .C) (hc : c ≤ n) (hn : 0 < n) (hr : n ≤ readyC s) :
      Effect s (.read n c) (startTransfer .port n c s)
  | reset (hp : s.port = .C) (hi : s.pPhase = .idle) : Effect s .reset (clearPointers s)
  | setsize {cap : Nat} (hp : s.port = .C) (hi : s.pPhase = .idle) (hl : legalCapacity s.cfg.depth cap = true) :
      Effect s (.setsize cap) (clearPointers { s with capacity := cap })
  | wrcsr {addr : BitVec 12} {v : Word} {r : Csr} (hv : r.reserved v = false) : Effect s (.wrcsr addr v) (csrWrite s v r)
  | axbuild (ha : axisAccepted s.cfg.resMax s.res s.fmin s.fmax s.dist s.srate = true) : Effect s .axbuild (buildAxis s)
  | update (hp : s.port = .C) (ha : s.axisValid = true) (hr : s.cfg.fftSize ≤ readyC s) :
      Effect s .update (startTransfer .analyzer s.cfg.fftSize (s.cfg.fftSize - s.cfg.keep) s)

/-- `t` is what a command leaves, with or without a response sent. -/
inductive Answered (s : State) (i : Instr) : State → Prop
  | silent {u : State} (h : Effect s i u) : Answered s i u
  | respond {u : State} (h : Effect s i u) (st : Status) (d1 d0 : Word) : Answered s i (respond st d1 d0 u)

theorem answered_unchanged (s : State) (i : Instr) (st : Status) (d1 d0 : Word) : Answered s i (respond st d1 d0 s) :=
  .respond (.unchanged i) st d1 d0

theorem startWrite_respond (n : Nat) (st : Status) (d1 d0 : Word) (s : State) :
    startWrite n (respond st d1 d0 s) = respond st d1 d0 (startWrite n s) := by
  unfold startWrite
  split <;> rfl

theorem exec_answered {i : Instr} {s t : State} (h : exec i s = .next t) : Answered s i t := by
  cases i with
  | write n =>
    rcases execWrite_next h with ⟨-, rfl⟩ | ⟨-, -, rfl⟩ | ⟨hp, hn, rfl⟩
    · exact answered_unchanged ..
    · exact answered_unchanged ..
    · rw [startWrite_respond]
      exact .respond (.write hp hn) ..
  | read n c =>
    rcases execRead_next h with ⟨-, rfl⟩ | ⟨-, -, rfl⟩ | ⟨-, -, -, rfl⟩ | ⟨-, -, -, rfl⟩ | ⟨hp, hc, hn, hr, rfl⟩
    · exact answered_unchanged ..
    · exact answered_unchanged ..
    · exact answered_unchanged ..
    · exact answered_unchanged ..
    · exact .respond (.read hp hc hn hr) .ok 0 0
  | nready => exact execNready_next h ▸ answered_unchanged ..
  | freesp => exact execFreesp_next h ▸ answered_unchanged ..
  | reset =>
    rcases execReset_next h with ⟨-, rfl⟩ | ⟨hp, hi, rfl⟩
    · exact answered_unchanged ..
    · exact .respond (.reset hp hi) ..
  | setsize cap =>
    rcases execSetsize_next h with ⟨-, rfl⟩ | ⟨-, -, rfl⟩ | ⟨hp, hl, hi, rfl⟩
    · exact answered_unchanged ..
    · exact answered_unchanged ..
    · exact .respond (.setsize hp hi hl) ..
  | rdcsr addr =>
    rcases execRdcsr_next h with ⟨-, rfl⟩ | ⟨-, -, rfl⟩ | ⟨-, r, -, rfl⟩ <;> exact answered_unchanged ..
  | wrcsr addr v =>
    rcases execWrcsr_next h with ⟨-, rfl⟩ | ⟨-, -, rfl⟩ | ⟨-, r, -, -, -, rfl⟩ | ⟨-, r, -, -, hv, rfl⟩
    · exact answered_unchanged ..
    · exact answered_unchanged ..
    · exact answered_unchanged ..
    · exact .respond (.wrcsr hv) ..
  | axbuild =>
    rcases execAxbuild_next h with ⟨-, rfl⟩ | ⟨-, -, rfl⟩ | ⟨-, ha, rfl⟩
    · exact answered_unchanged ..
    · exact answered_unchanged ..
    · exact .respond (.axbuild ha) ..
  | update =>
    rcases execUpdate_next h with ⟨-, rfl⟩ | ⟨-, -, rfl⟩ | ⟨-, -, -, rfl⟩ | ⟨hp, ha, hr, rfl⟩
    · exact answered_unchanged ..
    · exact answered_unchanged ..
    · exact answered_unchanged ..
    · exact .silent (.update hp ha hr)
  | getinfo idx =>
    rcases execGetinfo_next h with ⟨-, rfl⟩ | ⟨-, -, rfl⟩ | ⟨-, -, -, rfl⟩ | ⟨-, -, -, f, -, rfl⟩ <;>
      exact answered_unchanged ..
  | getbin k =>
    rcases execGetbin_next h with ⟨-, rfl⟩ | ⟨-, -, rfl⟩ | ⟨-, -, rfl⟩ <;> exact answered_unchanged ..

/-! ### The first turn, and the offers of the host -/

theorem step_of_turn {s : State} {u : Turn} {ts : List Turn} (ht : s.turns = u :: ts) :
    step s = runTurn u { s with turns := ts } := by
  cases s; cases ht; rfl

theorem hostOfferP_next {cw : CmdWord} {s t : State} (h : hostOfferP cw s = .next t) :
    windowOpen s = false ∧ t = { s with pCmd := s.pCmd ++ [cw] } := by
  unfold hostOfferP at h
  split at h
  · cases h
  · rename_i hw; injection h with h; exact ⟨by simpa using hw, h.symm⟩

theorem hostOfferC_next {cw : CmdWord} {s t : State} (h : hostOfferC cw s = .next t) :
    (isQuiesce cw = true → s.pCmd = [] ∧ s.pPhase = .idle) ∧ t = { s with cCmd := s.cCmd ++ [cw] } := by
  unfold hostOfferC at h
  split at h
  · cases h
  · rename_i hq; injection h with h; exact ⟨fun hcw => by simpa [hcw] using hq, h.symm⟩

/-! ### Who moves the pointers (10_state.md R21, R22) -/

/-- How taking a word may move the pointers: none of it on port P. -/
structure WordMoves (d : Except Reject Instr) (s t : State) : Prop where
  cfg : t.cfg = s.cfg
  tail : t.tail ≠ s.tail → s.port = .C ∧ (d = .ok .reset ∨ ∃ cap, d = .ok (.setsize cap))
  head : t.head ≠ s.head → s.port = .C
  capacity : t.capacity ≠ s.capacity → s.port = .C ∧ ∃ cap, d = .ok (.setsize cap)

theorem wordMoves_of_effect {i : Instr} {s u : State} (h : Effect s i u) : WordMoves (.ok i) s u := by
  cases h with
  | reset hp => constructor <;> simp [hp]
  | setsize hp => constructor <;> simp [hp]
  | _ => constructor <;> simp

theorem wordMoves_runWord {cw : CmdWord} {s t : State} (h : runWord cw s = .next t) : WordMoves (decode cw) s t := by
  rcases runWord_next h with ⟨i, hi, h⟩ | ⟨-, rfl⟩
  · rw [hi]
    cases exec_answered h with
    | silent he => exact wordMoves_of_effect he
    | respond he st d1 d0 => exact { wordMoves_of_effect he with }
  · constructor <;> simp

/-- Who may move the pointers in a turn: what `Obligations.PointerOwnership` says of it. -/
structure TurnMoves (u : Turn) (s t : State) : Prop where
  cfg : t.cfg = s.cfg
  tail : t.tail ≠ s.tail → u = .agentP ∨ u = .rst ∨ (u = .agentC ∧ s.cPhase = .idle ∧
    ∃ cw rest, s.cCmd = cw :: rest ∧ (decode cw = .ok .reset ∨ ∃ cap, decode cw = .ok (.setsize cap)))
  head : t.head ≠ s.head → u = .agentC ∨ u = .rst
  capacity : t.capacity ≠ s.capacity → u = .rst ∨ (u = .agentC ∧ s.cPhase = .idle ∧
    ∃ cw rest cap, s.cCmd = cw :: rest ∧ decode cw = .ok (.setsize cap))

theorem turnMoves_stepP {s t : State} (h : stepP s = .next t) : TurnMoves .agentP s t := by
  rcases stepP_next h with ⟨-, -, rfl⟩ | ⟨-, cw, rest, -, h⟩ | ⟨-, -, rfl⟩ | ⟨-, item, rest, -, h⟩
  · constructor <;> simp
  · obtain ⟨hcfg, -, hhead, hcap⟩ := wordMoves_runWord h
    exact ⟨hcfg, fun _ => .inl rfl, fun hne => (nomatch hhead hne), fun hne => (nomatch (hcap hne).1)⟩
  · constructor <;> simp
  · rw [writeBeat_eq_afterBeat h]
    constructor <;> simp [afterBeat]

theorem turnMoves_stepC {s t : State} (h : stepC s = .next t) : TurnMoves .agentC s t := by
  rcases stepC_next h with ⟨-, -, rfl⟩ | ⟨hp, cw, rest, hc, h⟩ | ⟨-, h⟩ | ⟨-, rfl⟩ | ⟨-, h⟩
  · constructor <;> simp
  · obtain ⟨u, hu, ht⟩ := noteWindow_next h
    obtain ⟨hcfg, htail, -, hcap⟩ := wordMoves_runWord hu
    have hmoves : TurnMoves .agentC s u :=
      ⟨hcfg, fun hne => .inr (.inr ⟨rfl, hp, cw, rest, hc, (htail hne).2⟩), fun _ => .inl rfl,
        fun hne => .inr ⟨rfl, hp, cw, rest, (hcap hne).2.imp fun _ h => ⟨hc, h⟩⟩⟩
    rw [ht]
    split
    · exact { hmoves with }
    · exact hmoves
  · rcases beatStep_next h with ⟨-, rfl⟩ | ⟨-, -, item, -, rfl⟩ <;> constructor <;> simp
  · constructor <;> simp
  · obtain ⟨-, -, xs, fs, -, -, rfl⟩ := computeStep_next h
    constructor <;> simp

theorem turnMoves_runTurn {u : Turn} {s t : State} (h : runTurn u s = .next t) : TurnMoves u s t := by
  cases u with
  | agentP => exact turnMoves_stepP h
  | agentC => exact turnMoves_stepC h
  | rst => cases h; constructor <;> simp [resetBlock, State.resetWith]
  | offerP cw =>
    rw [(hostOfferP_next h).2]
    constructor <;> simp
  | offerC cw =>
    rw [(hostOfferC_next h).2]
    constructor <;> simp
  | _ => cases h; constructor <;> simp

/-- Settles O34: of the commands only RESET and SETSIZE move a pointer themselves, of the later steps the beat moves TAIL and the
release HEAD. -/
theorem pointerOwnership : Obligations.PointerOwnership := by
  intro s t u ts ht h
  rw [step_of_turn ht] at h
  obtain ⟨hcfg, htail, hhead, hcap⟩ := turnMoves_runTurn h
  exact ⟨hcfg, htail, hhead, hcap⟩

end Sys2Proof.Machine

namespace Sys2Proof.Machine

/-! ### Reset (10_state.md R42, 70_reset_and_hazards.md R280) -/

/-- Settles O29: the turn is `resetBlock`, whose fields are those of the reset state. -/
theorem rstRestoresResetValues : Obligations.RstRestoresResetValues := by
  intro s ts ht
  refine ⟨resetBlock { s with turns := ts }, step_of_turn ht, ?_⟩
  simp [resetBlock, State.resetWith, Memory.readZ, Memory.read]

theorem inv_resetWith {p : Config.Params} (h : p.wf = true) : Inv (State.resetWith p) where
  ring := ringInv_resetWith h
  transfer := transferInv_of_idle rfl
  store := storeInv_resetWith h
  window := ⟨fun _ => ⟨rfl, rfl⟩, le_rfl⟩

/-- Settles O30: REF-A is one of the well-formed configurations. -/
theorem resetMeetsInvariant : Obligations.ResetMeetsInvariant :=
  ⟨inv_resetWith (p := Config.refA) (by decide +kernel), fun _ => inv_resetWith⟩

/-! ### The window of 70_reset_and_hazards.md R291 -/

theorem windowOpen_iff (s : State) : windowOpen s = true ↔ (∃ cw ∈ s.cCmd, isQuiesce cw = true) ∨ 0 < s.quiet := by
  simp [windowOpen]

namespace WindowInv

variable {s : State} (h : WindowInv s)
include h

theorem closed_of_offer {cw : CmdWord} {rest : List CmdWord} (hc : s.pCmd = cw :: rest) : windowOpen s = false := by
  by_contra hw
  simpa [hc] using (h.quiescent (by simpa using hw)).1

theorem closed_of_busy (hp : s.pPhase = .busy) : windowOpen s = false := by
  by_contra hw
  simpa [hp] using (h.quiescent (by simpa using hw)).2

end WindowInv

/-- While the window is closed nothing is asked of port P. -/
theorem windowInv_of_closed {s : State} (hw : windowOpen s = false) (hle : s.quiet ≤ s.cRsp.length) : WindowInv s :=
  ⟨by simp [hw], hle⟩

/-! ### The commands keep the invariant

A part of the invariant whose fields a step does not touch is rebuilt from the old one: `{ h.ring with }`. -/

theorem inv_respond {s : State} (h : Inv s) (st : Status) (d1 d0 : Word) : Inv (respond st d1 d0 s) where
  ring := { h.ring with }
  transfer := { h.transfer with }
  store := { h.store with }
  window := { h.window with
    quiet_le := h.window.quiet_le.trans (by rw [respond_cRsp]; split <;> simp) }

theorem inv_startTransfer {s : State} (h : Inv s) {dst : CDst} {n c : Nat} (hn : 0 < n) (hc : c ≤ n)
    (hr : n ≤ readyC s) (han : dst = .analyzer → n = s.cfg.fftSize ∧ s.axisValid = true) :
    Inv (startTransfer dst n c s) where
  ring := { h.ring with }
  transfer := transferInv_startTransfer hn hc hr han
  store := { h.store with }
  window := { h.window with }

theorem inv_clearPointers {s : State} (h : Inv s) {cap : Nat} (hp : s.pPhase = .idle) (hc : s.cPhase = .idle)
    (hcap : cap % 2 = 0 ∧ 2 ≤ cap ∧ cap ≤ s.cfg.depth) : Inv (clearPointers { s with capacity := cap }) where
  ring := ringInv_clearPointers h.ring.cfg_wf hcap.1 hcap.2.1 hcap.2.2 hp (h.ring.idle_iff.1 hp)
  transfer := transferInv_of_idle hc
  store := h.store.clearPointers cap
  window := { h.window with }

theorem legalCapacity_iff (depth cap : Nat) :
    legalCapacity depth cap = true ↔ cap % 2 = 0 ∧ 2 ≤ cap ∧ cap ≤ depth := by
  simp only [legalCapacity, Bool.and_eq_true, decide_eq_true_eq]
  omega

/-- A port takes a word only while it is IDLE, and port P only outside the window. -/
structure MayTake (s : State) : Prop where
  onP : s.port = .P → windowOpen s = false
  onC : s.port = .C → s.cPhase = .idle

theorem inv_of_effect {s u : State} {i : Instr} (h : Inv s) (hm : MayTake s) (he : Effect s i u) : Inv u := by
  have hcap := And.intro h.ring.cap_even (And.intro h.ring.cap_ge_two h.ring.cap_le_depth)
  obtain ⟨-, -, -, -, hfft, -⟩ := wf_bounds h.ring.cfg_wf
  cases he with
  | unchanged => exact h
  | @write n hp hn =>
    refine ⟨h.ring.startWrite hn, ?_, ?_, ?_⟩
    · rw [startWrite]; split <;> exact { h.transfer with }
    · rw [startWrite]; split <;> exact { h.store with }
    · exact windowInv_of_closed (by simpa [windowOpen] using hm.onP hp) (by simpa using h.window.quiet_le)
  | read hp hc hn hr => exact inv_startTransfer h hn hc hr (by simp)
  | reset hp hi => exact inv_clearPointers h hi (hm.onC hp) hcap
  | setsize hp hi hl => exact inv_clearPointers h hi (hm.onC hp) ((legalCapacity_iff ..).1 hl)
  | @wrcsr _ v r hv =>
    refine ⟨?_, ?_, h.store.csrWrite hv, ?_⟩
    · cases r <;> exact { h.ring with }
    · cases r <;> exact { h.transfer with }
    · cases r <;> exact { h.window with }
  | axbuild ha =>
    exact ⟨{ h.ring with }, { h.transfer with axis_valid := fun _ _ => rfl }, h.store.buildAxis ha, { h.window with }⟩
  | update hp ha hr => exact inv_startTransfer h (by omega) (Nat.sub_le ..) hr fun _ => ⟨rfl, ha⟩

theorem inv_runWord {cw : CmdWord} {s t : State} (hr : runWord cw s = .next t) (h : Inv s) (hm : MayTake s) : Inv t := by
  rcases runWord_next hr with ⟨i, -, hr⟩ | ⟨-, rfl⟩
  · cases exec_answered hr with
    | silent he => exact inv_of_effect h hm he
    | respond he st d1 d0 => exact inv_respond (inv_of_effect h hm he) st d1 d0
  · exact inv_respond h ..

/-- Only WRITE changes the phase of port P, and no command what is offered there. -/
theorem effect_producer {s u : State} {i : Instr} (hp : s.port = .C) (he : Effect s i u) :
    u.pCmd = s.pCmd ∧ u.pPhase = s.pPhase := by
  cases he with
  | write hP => rw [hp] at hP; cases hP
  | _ => simp

theorem runWord_producer {cw : CmdWord} {s t : State} (hp : s.port = .C) (hr : runWord cw s = .next t) :
    t.pCmd = s.pCmd ∧ t.pPhase = s.pPhase := by
  rcases runWord_next hr with ⟨i, -, hr⟩ | ⟨-, rfl⟩
  · cases exec_answered hr with
    | silent he => exact effect_producer hp he
    | respond he st d1 d0 => simpa using effect_producer hp he
  · simp

/-! ### The agents keep the invariant -/

theorem inv_stepP {s t : State} (h : Inv s) (hs : stepP s = .next t) : Inv t := by
  rcases stepP_next hs with ⟨-, -, rfl⟩ | ⟨hp, cw, rest, hc, hs⟩ | ⟨-, -, rfl⟩ | ⟨hp, item, rest, -, hs⟩
  · exact h
  · have hw : windowOpen { s with port := .P, pCmd := rest } = false := h.window.closed_of_offer hc
    exact inv_runWord hs
      ⟨{ h.ring with }, { h.transfer with }, { h.store with }, windowInv_of_closed hw h.window.quiet_le⟩
      ⟨fun _ => hw, nofun⟩
  · exact h
  · have hring : RingInv { s with pDat := rest } := { h.ring with }
    have hstore : StoreInv { s with pDat := rest } := { h.store with }
    rw [writeBeat_eq_afterBeat hs]
    exact ⟨hring.afterBeat hp item, { h.transfer with }, hstore.afterBeat hring hp item,
      windowInv_of_closed (h.window.closed_of_busy hp) h.window.quiet_le⟩

/-- Port C takes a word: the window stays open as long as another RESET or SETSIZE waits or a response is owed. -/
theorem windowInv_takeC {s : State} (h : WindowInv s) {cw : CmdWord} {rest : List CmdWord} (hc : s.cCmd = cw :: rest) :
    WindowInv { s with port := .C, cCmd := rest } :=
  { h with
    quiescent := fun hw => h.quiescent ((windowOpen_iff s).2 (((windowOpen_iff _).1 hw).imp_left fun ⟨w, hmem, hq⟩ =>
      ⟨w, hc ▸ List.mem_cons_of_mem cw hmem, hq⟩)) }

theorem inv_takeWordC {s t : State} (h : Inv s) (hp : s.cPhase = .idle) {cw : CmdWord} {rest : List CmdWord}
    (hc : s.cCmd = cw :: rest) (hs : noteWindow cw (runWord cw { s with port := .C, cCmd := rest }) = .next t) : Inv t := by
  obtain ⟨u, hu, ht⟩ := noteWindow_next hs
  have hinv : Inv u := inv_runWord hu
    ⟨{ h.ring with }, { h.transfer with }, { h.store with }, windowInv_takeC h.window hc⟩ ⟨nofun, fun _ => hp⟩
  rw [ht]
  split
  · rename_i hq
    obtain ⟨hcmd, hphase⟩ := runWord_producer rfl hu
    have hquiet := h.window.quiescent ((windowOpen_iff s).2 (.inl ⟨cw, by simp [hc], hq⟩))
    rw [← hcmd, ← hphase] at hquiet
    exact ⟨{ hinv.ring with }, { hinv.transfer with }, { hinv.store with }, ⟨fun _ => hquiet, le_rfl⟩⟩
  · exact hinv

theorem inv_beatStep {s t : State} (h : Inv s) (hp : s.cPhase = .beats) (hs : beatStep s = .next t) : Inv t := by
  rcases beatStep_next hs with ⟨-, rfl⟩ | ⟨-, hoff, item, -, rfl⟩
  · exact h
  · have hstore := h.store.deliver hoff item
    refine ⟨?_, h.transfer.beat h.store.in_wf.1 hp item, { hstore with }, ?_⟩
    · rw [deliver]; split <;> exact { h.ring with }
    · rw [deliver]; split <;> exact { h.window with }

theorem inv_releaseStep {s : State} (h : Inv s) (hp : s.cPhase = .release) : Inv (releaseStep s) := by
  obtain ⟨hpos, hle⟩ := h.transfer.release hp
  have hr : 1 ≤ readyC s := hpos.trans_le hle
  exact ⟨h.ring.releaseStep hr, h.transfer.releaseStep h.ring hp, h.store.releaseStep h.ring hr, { h.window with }⟩

theorem inv_computeStep {s t : State} (hs : computeStep s = .next t) (h : Inv s) : Inv t := by
  obtain ⟨-, -, xs, fs, -, hfs, rfl⟩ := computeStep_next hs
  refine inv_respond (s := applyTick (tick s xs fs) s) ?_ ..
  exact ⟨{ h.ring with }, transferInv_of_idle rfl,
    h.store.applyTick h.ring.cfg_wf xs (Memory.readFirst_eq_some hfs).1, { h.window with }⟩

theorem inv_stepC {s t : State} (h : Inv s) (hs : stepC s = .next t) : Inv t := by
  rcases stepC_next hs with ⟨-, -, rfl⟩ | ⟨hp, cw, rest, hc, hs⟩ | ⟨hp, hs⟩ | ⟨hp, rfl⟩ | ⟨-, hs⟩
  · exact h
  · exact inv_takeWordC h hp hc hs
  · exact inv_beatStep h hp hs
  · exact inv_releaseStep h hp
  · exact inv_computeStep hs ⟨{ h.ring with }, { h.transfer with }, { h.store with }, { h.window with }⟩

/-! ### The host keeps the invariant -/

/-- A word is offered on port P only outside the window. -/
theorem inv_hostOfferP {cw : CmdWord} {s t : State} (h : Inv s) (hs : hostOfferP cw s = .next t) : Inv t := by
  obtain ⟨hw, rfl⟩ := hostOfferP_next hs
  exact ⟨{ h.ring with }, { h.transfer with }, { h.store with }, windowInv_of_closed hw h.window.quiet_le⟩

/-- A RESET or SETSIZE, which opens the window, is offered only while port P is quiescent. -/
theorem inv_hostOfferC {cw : CmdWord} {s t : State} (h : Inv s) (hs : hostOfferC cw s = .next t) : Inv t := by
  obtain ⟨hq, rfl⟩ := hostOfferC_next hs
  refine ⟨{ h.ring with }, { h.transfer with }, { h.store with }, { h.window with quiescent := fun hw => ?_ }⟩
  rcases (windowOpen_iff _).1 hw with ⟨w, hmem, hw⟩ | hw
  · rcases List.mem_append.1 hmem with hmem | hmem
    · exact h.window.quiescent ((windowOpen_iff s).2 (.inl ⟨w, hmem, hw⟩))
    · exact hq (List.mem_singleton.1 hmem ▸ hw)
  · exact h.window.quiescent ((windowOpen_iff s).2 (.inr hw))

theorem inv_takeRspC {s : State} (h : Inv s) : Inv { s with cRsp := s.cRsp.tail, quiet := s.quiet - 1 } := by
  refine ⟨{ h.ring with }, { h.transfer with }, { h.store with }, fun hw => ?_, ?_⟩
  · exact h.window.quiescent ((windowOpen_iff s).2 (((windowOpen_iff _).1 hw).imp_right fun hpos => Nat.zero_lt_of_lt
      (hpos.trans_le (Nat.sub_le ..))))
  · rw [List.length_tail]
    exact Nat.sub_le_sub_right h.window.quiet_le 1

/-- What the host still offers is all that `rst` leaves of the window. -/
theorem inv_resetBlock {s : State} (h : Inv s) : Inv (resetBlock s) := by
  have hreset := inv_resetWith h.ring.cfg_wf
  refine ⟨{ hreset.ring with }, { hreset.transfer with }, { hreset.store with }, fun hw => ⟨?_, rfl⟩, le_rfl⟩
  refine (h.window.quiescent ((windowOpen_iff s).2 (.inl ?_))).1
  exact ((windowOpen_iff _).1 hw).resolve_right (lt_irrefl 0)

theorem inv_runTurn {u : Turn} {s t : State} (hs : runTurn u s = .next t) (h : Inv s) : Inv t := by
  cases u with
  | agentP => exact inv_stepP h hs
  | agentC => exact inv_stepC h hs
  | agentST => cases hs; exact ⟨h.ring.syncTail, h.transfer.syncTail h.ring, { h.store with }, { h.window with }⟩
  | agentSH => cases hs; exact ⟨h.ring.syncHead, { h.transfer with }, { h.store with }, { h.window with }⟩
  | offerP cw => exact inv_hostOfferP h hs
  | offerC cw => exact inv_hostOfferC h hs
  | beatP item => cases hs; exact ⟨{ h.ring with }, { h.transfer with }, { h.store with }, { h.window with }⟩
  | readyC b => cases hs; exact ⟨{ h.ring with }, { h.transfer with }, { h.store with }, { h.window with }⟩
  | takeP => cases hs; exact ⟨{ h.ring with }, { h.transfer with }, { h.store with }, { h.window with }⟩
  | takeC => cases hs; exact inv_takeRspC h
  | rst => cases hs; exact inv_resetBlock h

/-- Settles O31: every agent and every move of the host keeps each of the four parts. -/
theorem stepKeepsInvariant : Obligations.StepKeepsInvariant := by
  intro s t h hs
  rcases step_next hs with ⟨-, rfl⟩ | ⟨u, rest, -, hs⟩
  · exact h
  · exact inv_runTurn hs ⟨{ h.ring with }, { h.transfer with }, { h.store with }, { h.window with }⟩

end Sys2Proof.Machine

namespace Sys2Proof.Machine

/-! ### What the ring holds (10_state.md R23) -/

/-- The held items are told by the pointers, CAPACITY and RING alone. -/
theorem held_congr {s t : State} (htail : t.tail = s.tail) (hhead : t.head = s.head) (hcap : t.capacity = s.capacity)
    (hring : t.ring = s.ring) : held t = held s := by
  have hread : ringRead t = ringRead s := by
    funext j
    rw [ringRead, ringRead, slotAt, slotAt, hring, hhead, hcap]
  rw [held, held, occ, occ, htail, hhead, hcap, hread]

theorem held_respond (st : Status) (d1 d0 : Word) (s : State) : held (respond st d1 d0 s) = held s := rfl

/-- The slot `j` places behind HEAD is at distance `j`, so different places are different slots. -/
theorem modC_slotAt_sub_head {s : State} {j : Nat} (hj : j < s.capacity) :
    modC ((slotAt s j : Int) - s.head) s.capacity = j := by
  have hcast : ((modC ((slotAt s j : Int) - s.head) s.capacity : Nat) : Int) = j := by
    rw [cast_modC (by omega), slotAt, Int.natCast_mod, Int.emod_sub_emod, Nat.cast_add, add_sub_cancel_left,
      Int.emod_eq_of_lt (by omega) (by omega)]
  exact_mod_cast hcast

/-- TAIL is the slot behind the last item held (20_memory.md R65). -/
theorem slotAt_occ {s : State} (ht : s.tail < s.capacity) : slotAt s (occ s) = s.tail := add_modC_sub ht s.head

theorem slotAt_ne_tail {s : State} {j : Nat} (hj : j < occ s) (hocc : occ s < s.capacity) : slotAt s j ≠ s.tail := by
  intro heq
  have hdist := modC_slotAt_sub_head (hj.trans hocc)
  rw [heq] at hdist
  exact absurd hj (not_lt.2 hdist.le)

theorem RingInv.occ_lt {s : State} (h : RingInv s) : occ s < s.capacity := h.occ_le_spread.trans_lt h.spread_lt

theorem RingInv.readyC_le_occ {s : State} (h : RingInv s) : readyC s ≤ occ s :=
  (Nat.le_add_right ..).trans_eq h.occ_eq.symm

/-- A beat writes behind the last item and touches none of the others. -/
theorem held_afterBeat {s : State} (h : RingInv s) (hwf : Memory.wf none s.ring = true) (hp : s.pPhase = .busy)
    (item : Item) : held (afterBeat item s) = held s ++ [some (onWires s.cfg.nCh item)] := by
  have hold : ∀ j ∈ List.range (occ s), ringRead (afterBeat item s) j = ringRead s j := fun j hj =>
    Memory.read_write_other _ _ _ (slotAt_ne_tail (List.mem_range.1 hj) h.occ_lt)
  have hnew : ringRead (afterBeat item s) (occ s) = some (onWires s.cfg.nCh item) := by
    show Memory.read none (Memory.write none s.ring s.tail _) (slotAt s (occ s)) = _
    rw [slotAt_occ h.tail_lt, Memory.read_write_same _ _ hwf]
  rw [held, h.occ_afterBeat hp, List.range_succ, List.map_append, List.map_congr_left hold, List.map_singleton, hnew, held]

/-- A release moves every item one place toward HEAD. -/
theorem held_releaseStep {s : State} (h : RingInv s) (hr : 1 ≤ readyC s) : held (releaseStep s) = (held s).tail := by
  obtain ⟨m, hm⟩ : ∃ m, occ s = m + 1 := ⟨occ s - 1, by have := h.readyC_le_occ; omega⟩
  have hread : ringRead (releaseStep s) = ringRead s ∘ Nat.succ := by
    funext j
    rw [ringRead, slotAt_releaseStep]
    rfl
  rw [held, held, h.occ_releaseStep hr, hm, List.range_succ_eq_map, List.map_cons, List.tail_cons, List.map_map, hread,
    Nat.add_sub_cancel]

theorem held_clearPointers (s : State) : held (clearPointers s) = [] := by
  rw [held, occ_clearPointers, List.range_zero, List.map_nil]

/-! ### The ring as a queue, turn by turn (20_memory.md R73 (b)) -/

/-- No command but RESET and SETSIZE of port C changes what is held. -/
theorem held_of_effect {s u : State} {i : Instr} (he : Effect s i u)
    (hi : s.port = .P ∨ (i ≠ .reset ∧ ∀ cap, i ≠ .setsize cap)) : held u = held s := by
  cases he with
  | reset hp => simp [hp] at hi
  | setsize hp => simp [hp] at hi
  | _ => exact held_congr (by simp) (by simp) (by simp) (by simp)

theorem held_exec {s t : State} {i : Instr} (h : exec i s = .next t)
    (hi : s.port = .P ∨ (i ≠ .reset ∧ ∀ cap, i ≠ .setsize cap)) : held t = held s := by
  cases exec_answered h with
  | silent he => exact held_of_effect he hi
  | respond he st d1 d0 => exact (held_respond ..).trans (held_of_effect he hi)

theorem held_runWord_on_portP {cw : CmdWord} {s t : State} (hp : s.port = .P) (h : runWord cw s = .next t) :
    held t = held s := by
  rcases runWord_next h with ⟨i, -, h⟩ | ⟨-, rfl⟩
  · exact held_exec h (.inl hp)
  · exact held_respond ..

/-- What the ring holds after port C has taken the word that decodes to `d`. -/
def heldAfterWord (s : State) (d : Except Reject Instr) : List (Option Item) :=
  match d with
  | .ok .reset => []
  | .ok (.setsize cap) => if legalCapacity s.cfg.depth cap then [] else held s
  | _ => held s

theorem held_runWord_on_portC {cw : CmdWord} {s t : State} (hp : s.port = .C) (h : runWord cw s = .next t) :
    held t = heldAfterWord s (decode cw) := by
  rcases runWord_next h with ⟨i, hi, h⟩ | ⟨⟨e, he⟩, rfl⟩
  · rw [hi]
    cases i with
    | reset =>
      rcases execReset_next h with ⟨hne, -⟩ | ⟨-, -, rfl⟩
      · exact absurd hp hne
      · exact held_clearPointers s
    | setsize cap =>
      rcases execSetsize_next h with ⟨hne, -⟩ | ⟨-, hl, rfl⟩ | ⟨-, hl, -, rfl⟩
      · exact absurd hp hne
      · exact (if_neg (by simp [hl])).symm
      · exact (held_clearPointers { s with capacity := cap }).trans (if_pos hl).symm
    | _ => exact held_exec h (.inr (by simp))
  · rw [he]; rfl

theorem queueAfter_agentC_idle {s : State} {cw : CmdWord} {rest : List CmdWord} (hp : s.cPhase = .idle)
    (hc : s.cCmd = cw :: rest) : queueAfter s .agentC = heldAfterWord s (decode cw) := by
  cases s; cases hp; cases hc; rfl

theorem held_stepP {s t : State} (h : Inv s) (hs : stepP s = .next t) : held t = queueAfter s .agentP := by
  rcases stepP_next hs with ⟨hp, -, rfl⟩ | ⟨hp, cw, rest, -, hs⟩ | ⟨hp, hd, rfl⟩ | ⟨hp, item, rest, hd, hs⟩
  · simp [queueAfter, hp]
  · simp only [queueAfter, hp]
    exact held_runWord_on_portP (s := { s with port := .P, pCmd := rest }) rfl hs
  · simp [queueAfter, hp, hd]
  · rw [writeBeat_eq_afterBeat hs]
    simp only [queueAfter, hp, hd]
    exact held_afterBeat (s := { s with pDat := rest }) { h.ring with } h.store.ring_wf.1 hp item

theorem held_beatStep {s t : State} (hs : beatStep s = .next t) : held t = held s := by
  rcases beatStep_next hs with ⟨-, rfl⟩ | ⟨-, -, item, -, rfl⟩
  · rfl
  · exact held_congr (by simp) (by simp) (by simp) (by simp)

theorem held_computeStep {s t : State} (hs : computeStep s = .next t) : held t = held s := by
  obtain ⟨-, -, xs, fs, -, -, rfl⟩ := computeStep_next hs
  rfl

theorem held_stepC {s t : State} (h : Inv s) (hs : stepC s = .next t) : held t = queueAfter s .agentC := by
  rcases stepC_next hs with ⟨hp, hc, rfl⟩ | ⟨hp, cw, rest, hc, hs⟩ | ⟨hp, hs⟩ | ⟨hp, rfl⟩ | ⟨hp, hs⟩
  · simp [queueAfter, hp, hc]
  · obtain ⟨u, hu, ht⟩ := noteWindow_next hs
    have htu : held t = held u := by rw [ht]; split <;> rfl
    rw [queueAfter_agentC_idle hp hc, htu]
    exact held_runWord_on_portC (s := { s with port := .C, cCmd := rest }) rfl hu
  · rw [held_beatStep hs]
    simp [queueAfter, hp]
  · obtain ⟨hpos, hle⟩ := h.transfer.release hp
    rw [held_releaseStep h.ring (hpos.trans_le hle)]
    simp [queueAfter, hp]
  · rw [held_computeStep hs]
    simp only [queueAfter, hp]
    rfl

theorem held_runTurn {u : Turn} {s t : State} (h : Inv s) (hs : runTurn u s = .next t) : held t = queueAfter s u := by
  cases u with
  | agentP => exact held_stepP h hs
  | agentC => exact held_stepC h hs
  | rst => cases hs; exact held_clearPointers (State.resetWith s.cfg)
  | offerP cw => rw [(hostOfferP_next hs).2]; rfl
  | offerC cw => rw [(hostOfferC_next hs).2]; rfl
  | _ => cases hs; rfl

/-- Settles O35: a beat adds behind the last item, a release moves every item one place up, cleared pointers hold nothing, and
no other turn touches a pointer or a held slot. -/
theorem ringIsQueue : Obligations.RingIsQueue := by
  intro s t u ts h ht hs
  rw [step_of_turn ht] at hs
  have hq := held_runTurn (s := { s with turns := ts })
    ⟨{ h.ring with }, { h.transfer with }, { h.store with }, { h.window with }⟩ hs
  cases u <;> exact hq

end Sys2Proof.Machine

namespace Sys2Proof.Machine

/-! ### The synchronisers (20_memory.md R66, R67, R72, R73) -/

/-- Settles O24: with SYNC_STAGES stages, the first is the new code and the last one goes. -/
theorem syncTailStep : Obligations.SyncTailStep := by
  intro s ts ht hlen hpos
  rw [step_of_turn ht, runTurn, syncTail, ← take_cons_stages hlen hpos]
  rfl

/-- Settles O25: with SYNC_STAGES stages, the first is the new code and the last one goes. -/
theorem syncHeadStep : Obligations.SyncHeadStep := by
  intro s ts ht hlen hpos
  rw [step_of_turn ht, runTurn, syncHead, ← take_cons_stages hlen hpos]
  rfl

/-- What a synchroniser of `S` stages does with the code `g`: it goes into the first stage, and the last stage is lost. -/
def shiftIn (S g : Nat) (l : List Nat) : List Nat := (g :: l).take S

/-- After `n` times the first `n` stages hold the code, and the old stages stand behind them. -/
theorem shiftIn_iterate {S : Nat} (g : Nat) {l : List Nat} (hl : l.length = S) (n : Nat) :
    (shiftIn S g)^[n] l = (List.replicate n g ++ l).take S := by
  induction n with
  | zero => simp [← hl]
  | succ n ih =>
    rw [Function.iterate_succ_apply', ih, shiftIn, List.replicate_succ, List.cons_append]
    cases S <;> simp [List.take_take]

theorem getLastD_shiftIn_iterate {S n : Nat} (g : Nat) {l : List Nat} (hl : l.length = S) (hS : 1 ≤ S) (hn : S ≤ n) :
    ((shiftIn S g)^[n] l).getLastD 0 = g := by
  obtain ⟨m, rfl⟩ : ∃ m, S = m + 1 := ⟨S - 1, by omega⟩
  rw [shiftIn_iterate g hl, List.take_append_of_le_length (by simpa using hn), List.take_replicate, Nat.min_eq_left hn,
    List.replicate_succ', List.getLastD_concat]

theorem syncTail_iterate (s : State) (n : Nat) :
    syncTail^[n] s = { s with tailv := (shiftIn s.cfg.syncStages (codeOf s s.tail))^[n] s.tailv } := by
  induction n with
  | zero => rfl
  | succ n ih => rw [Function.iterate_succ_apply', ih, Function.iterate_succ_apply']; rfl

theorem syncHead_iterate (s : State) (n : Nat) :
    syncHead^[n] s = { s with headv := (shiftIn s.cfg.syncStages (codeOf s s.head))^[n] s.headv } := by
  induction n with
  | zero => rfl
  | succ n ih => rw [Function.iterate_succ_apply', ih, Function.iterate_succ_apply']; rfl

/-- Settles O28: after SYNC_STAGES steps every stage, and so the view, is the code of the pointer. -/
theorem viewsSettle : Obligations.ViewsSettle := by
  intro s n h hn
  constructor
  · rw [syncTail_iterate, tailView, getLastD_shiftIn_iterate _ h.tailv_length h.syncStages_pos hn]
    exact h.decodeOf_codeOf h.tail_lt
  · rw [syncHead_iterate, headView, getLastD_shiftIn_iterate _ h.headv_length h.syncStages_pos hn]
    exact h.decodeOf_codeOf h.head_lt

/-- Settles O32: each of the counts is a part of the way round, which is at most C − 1 long. -/
theorem pointersStayOrdered : Obligations.PointersStayOrdered := by
  intro s h
  have hspread : spread s ≤ s.capacity - 1 := (Nat.le_add_right ..).trans h.ring.spread_le
  have hocc := h.ring.occ_le_spread
  rw [h.ring.occP_eq_spread]
  exact ⟨hspread, hocc.trans hspread, h.ring.readyC_le_occ, hocc, hspread⟩

/-! ### Queries (20_memory.md R63) -/

/-- Settles O59: of a query `Effect` names no change, so all it can leave is the old state with a response. -/
theorem readsHaveNoSideEffect : Obligations.ReadsHaveNoSideEffect := by
  intro i s t hi h
  have heff : ∀ u, Effect s i u → u = s := by
    intro u he
    rcases hi with ⟨addr, rfl⟩ | ⟨idx, rfl⟩ | ⟨k, rfl⟩ | rfl | rfl <;> cases he <;> rfl
  cases exec_answered h with
  | silent he => rw [heff t he]
  | respond he st d1 d0 => rw [heff _ he]; rfl

end Sys2Proof.Machine

namespace Sys2Proof.Machine

/-! ### The words of WRITE and READ (30_encoding.md R93, R94, R97) -/

@[simp] theorem opField_cmdWord (op : BitVec 8) (a : BitVec 24) (b : BitVec 32) : opField (cmdWord op a b) = op := by
  rw [opField, cmdWord, BitVec.extractLsb'_append_eq_of_le (by omega)]
  exact BitVec.extractLsb'_append_eq_left

@[simp] theorem aField_cmdWord (op : BitVec 8) (a : BitVec 24) (b : BitVec 32) : aField (cmdWord op a b) = a := by
  rw [aField, cmdWord, BitVec.extractLsb'_append_eq_of_le (by omega)]
  exact BitVec.extractLsb'_append_eq_right

@[simp] theorem bField_cmdWord (op : BitVec 8) (a : BitVec 24) (b : BitVec 32) : bField (cmdWord op a b) = b :=
  BitVec.extractLsb'_append_eq_right

theorem decodeN_encodeN {n : Nat} (hn : n < 2 ^ 24) (op : BitVec 8) (f : Nat → Instr) :
    decodeN (encodeN op n) f = .ok (f n) := by
  rw [decodeN, encodeN, aField_cmdWord, bField_cmdWord, BitVec.extractLsb'_append_eq_left,
    BitVec.extractLsb'_append_eq_right, if_pos ⟨rfl, rfl⟩, BitVec.toNat_ofNat, Nat.mod_eq_of_lt hn]

theorem decodeNC_cmdWord {n c : Nat} (hn : n < 2 ^ 24) (hc : c < 2 ^ 24) (op : BitVec 8) (f : Nat → Nat → Instr) :
    decodeNC (cmdWord op (BitVec.ofNat 24 c) (0#8 ++ BitVec.ofNat 24 n)) f = .ok (f n c) := by
  rw [decodeNC, aField_cmdWord, bField_cmdWord, BitVec.extractLsb'_append_eq_left, BitVec.extractLsb'_append_eq_right,
    if_pos (show 0#8 = 0 from rfl), BitVec.toNat_ofNat, BitVec.toNat_ofNat, Nat.mod_eq_of_lt hn, Nat.mod_eq_of_lt hc]

theorem decode_encode_write {n : Nat} (hn : n < 2 ^ 24) : decode (encode (.write n)) = .ok (.write n) := by
  have hop : opField (encode (.write n)) = 0x01#8 := opField_cmdWord ..
  rw [decode, if_pos hop]
  exact decodeN_encodeN hn 0x01 .write

theorem decode_encode_read {n c : Nat} (hn : n < 2 ^ 24) (hc : c < 2 ^ 24) :
    decode (encode (.read n c)) = .ok (.read n c) := by
  have hop : opField (encode (.read n c)) = 0x02#8 := opField_cmdWord ..
  rw [decode, if_neg (by rw [hop]; decide), if_pos hop]
  exact decodeNC_cmdWord hn hc 0x02 .read

/-! ### Runs of several steps -/

theorem coreRun_succ {M : Host.Core} {s t : M.State} (h : M.step s = .next t) (k : Nat) : M.run (k + 1) s = M.run k t := by
  rw [Host.Core.run, h]

theorem coreRun_succ_next {M : Host.Core} {k : Nat} {s t : M.State} (h : M.run (k + 1) s = .next t) :
    ∃ u, M.step s = .next u ∧ M.run k u = .next t := by
  cases hs : M.step s with
  | next u => exact ⟨u, rfl, (coreRun_succ hs k).symm.trans h⟩
  | fault r => simp [Host.Core.run, hs] at h
  | refused r => simp [Host.Core.run, hs] at h

theorem coreRun_add {M : Host.Core} {j : Nat} {s t : M.State} (h : M.run j s = .next t) (k : Nat) :
    M.run (j + k) s = M.run k t := by
  induction j generalizing s with
  | zero => cases h; rw [Nat.zero_add]
  | succ j ih =>
    obtain ⟨u, hs, h⟩ := coreRun_succ_next h
    rw [Nat.add_right_comm, coreRun_succ hs, ih h]

/-- `k` steps of the block: `Host.Core.run` with the types of this model. -/
def runSteps (k : Nat) (s : State) : Result := Host.Core.run core k s

theorem runSteps_zero (s : State) : runSteps 0 s = .next s := rfl

theorem runSteps_succ {s t : State} (h : step s = .next t) (k : Nat) : runSteps (k + 1) s = runSteps k t :=
  coreRun_succ (M := core) h k

theorem runSteps_add {j : Nat} {s t : State} (h : runSteps j s = .next t) (k : Nat) :
    runSteps (j + k) s = runSteps k t :=
  coreRun_add (M := core) h k

theorem inv_runSteps {k : Nat} {s t : State} (h : Inv s) (hr : runSteps k s = .next t) : Inv t := by
  induction k generalizing s with
  | zero => cases hr; exact h
  | succ k ih =>
    obtain ⟨u, hs, hr⟩ := coreRun_succ_next (M := core) hr
    exact ih (stepKeepsInvariant s u h hs) hr

/-! ### A WRITE runs to its end (20_memory.md R71, 40_ring_buffer.md R124 to R128) -/

/-- The state `n` beats of port P later, with `ring` the storage then and `ts` the turns left. -/
def afterWriteBeats (n : Nat) (ring : Memory Item) (ts : List Turn) (s : State) : State :=
  { s with
    turns := ts
    ring := ring
    tail := (s.tail + n) % s.capacity
    pRem := 0
    pPhase := .idle
    pDat := s.pDat.drop n }

theorem afterWriteBeats_zero {s : State} (h : RingInv s) (hrem : s.pRem = 0) : afterWriteBeats 0 s.ring s.turns s = s := by
  rw [afterWriteBeats, List.drop_zero, Nat.add_zero, Nat.mod_eq_of_lt h.tail_lt, ← hrem, ← h.idle_iff.2 hrem]

theorem afterWriteBeats_afterBeat {s : State} {item : Item} {rest : List Item} (hd : s.pDat = item :: rest) (n : Nat)
    (ring : Memory Item) (ts ts' : List Turn) :
    afterWriteBeats n ring ts (afterBeat item { s with turns := ts', pDat := rest }) =
      afterWriteBeats (n + 1) ring ts s := by
  simp [afterWriteBeats, afterBeat, hd, Nat.add_assoc, Nat.add_comm 1 n]

theorem step_writeBeat {s : State} (h : RingInv s) {ts : List Turn} {item : Item} {rest : List Item}
    (ht : s.turns = .agentP :: ts) (hp : s.pPhase = .busy) (hd : s.pDat = item :: rest) :
    step s = .next (afterBeat item { s with turns := ts, pDat := rest }) := by
  rw [step_of_agentP_turn ht, stepP_busy_cons (s := { s with turns := ts }) hp hd]
  exact if_pos (h.tail_lt.trans_le h.cap_le_depth)

theorem RingInv.busy_of_pRem_pos {s : State} (h : RingInv s) (hrem : 0 < s.pRem) : s.pPhase = .busy := by
  cases hp : s.pPhase with
  | idle => exact absurd (h.idle_iff.1 hp) hrem.ne'
  | busy => rfl

/-- While beats are on offer, port P takes the ones it still owes one after another and is then IDLE. -/
theorem runSteps_writeBeats {n : Nat} {s : State} (h : Inv s) (hrem : s.pRem = n) (hlen : n ≤ s.pDat.length)
    {ts : List Turn} (ht : s.turns = List.replicate n .agentP ++ ts) :
    ∃ ring, runSteps n s = .next (afterWriteBeats n ring ts s) ∧
      held (afterWriteBeats n ring ts s) = held s ++ (s.pDat.take n).map fun item => some (onWires s.cfg.nCh item) := by
  induction n generalizing s with
  | zero =>
    refine ⟨s.ring, ?_⟩
    rw [← show s.turns = ts from ht, afterWriteBeats_zero h.ring hrem]
    simp [runSteps_zero]
  | succ n ih =>
    have hp : s.pPhase = .busy := h.ring.busy_of_pRem_pos (by omega)
    have ht' : s.turns = .agentP :: (List.replicate n .agentP ++ ts) := ht
    obtain ⟨item, rest, hd⟩ := List.exists_cons_of_length_pos (Nat.zero_lt_of_lt hlen)
    have hstep := step_writeBeat h.ring ht' hp hd
    have hqueue := ringIsQueue _ _ _ _ h ht' hstep
    obtain ⟨ring, hrun, hheld⟩ := ih (stepKeepsInvariant _ _ h hstep) (by simp [afterBeat, hrem])
      (by simpa [afterBeat, hd] using hlen) rfl
    rw [afterWriteBeats_afterBeat hd] at hrun hheld
    refine ⟨ring, (runSteps_succ hstep n).trans hrun, ?_⟩
    rw [hheld, hqueue]
    simp [queueAfter, hp, hd, afterBeat]

theorem runWord_of_decode {cw : CmdWord} {i : Instr} (hi : decode cw = .ok i) (s : State) : runWord cw s = exec i s := by
  rw [runWord, hi]

theorem exec_write_of_le {s : State} {n : Nat} (hp : s.port = .P) (hn : n ≤ freeP s) :
    exec (.write n) s = .next (startWrite n (respond .ok 0 0 s)) := by
  rw [exec, execWrite, onlyOn_self hp, if_neg (not_lt.2 hn)]

theorem startWrite_pRem_of_idle {s : State} (hrem : s.pRem = 0) (n : Nat) : (startWrite n s).pRem = n := by
  unfold startWrite
  split
  · rename_i hn
    rw [hrem, hn]
  · rfl

/-- The check step of an admitted WRITE (R125). -/
theorem step_write {s : State} {n : Nat} {ts : List Turn} {rest : List CmdWord} (ht : s.turns = .agentP :: ts)
    (hp : s.pPhase = .idle) (hn : n < 2 ^ 24) (hc : s.pCmd = encode (.write n) :: rest) (hfree : n ≤ freeP s) :
    step s = .next (startWrite n (respond .ok 0 0 { s with turns := ts, port := .P, pCmd := rest })) := by
  rw [step_of_agentP_turn ht, stepP_idle_cons (s := { s with turns := ts }) hp hc,
    runWord_of_decode (decode_encode_write hn)]
  exact exec_write_of_le (s := { s with turns := ts, port := .P, pCmd := rest }) rfl hfree

/-- Settles O36: the check step, then the beats it admitted. -/
theorem writeRunsToCompletion : Obligations.WriteRunsToCompletion := by
  intro s n ts rest h hp hn hc hlen hfree ht
  rw [Nat.add_comm 1 n] at ht ⊢
  have hstep := step_write (ts := List.replicate n .agentP ++ ts) ht hp hn hc hfree
  generalize hu : respond .ok 0 0 { s with turns := List.replicate n .agentP ++ ts, port := .P, pCmd := rest } = u at hstep
  obtain ⟨ring, hrun, hheld⟩ := runSteps_writeBeats (ts := ts) (stepKeepsInvariant _ _ h hstep)
    (startWrite_pRem_of_idle (by simpa [← hu] using h.ring.idle_iff.1 hp) n) (by simpa [← hu] using hlen)
    (by simp [← hu])
  have hsame : held (startWrite n u) = held s :=
    held_congr (by simp [← hu]) (by simp [← hu]) (by simp [← hu]) (by simp [← hu])
  refine ⟨_, (runSteps_succ hstep n).trans hrun, rfl, rfl, ?_⟩
  rw [hheld, hsame]
  simp [afterWriteBeats, ← hu]

/-! ### A transfer of port C runs to its end (20_memory.md R71, 40_ring_buffer.md R130 to R134) -/

/-- The phase with `rem` beats and then `rel` releases to come (R131 to R133). -/
def duePhase (dst : CDst) (rem rel : Nat) : CPhase :=
  if 0 < rem then .beats else if 0 < rel then .release else afterTransfer dst

/-- The state `n` beats of port C later, the last ones due: `inBuf`, `cDat` and `draws` are what the deliveries made of
those fields, `ts` the turns left. -/
def afterReadBeats (n : Nat) (inBuf : Memory Word) (cDat : List Item) (draws : Nat) (ts : List Turn) (s : State) : State :=
  { s with
    turns := ts
    inBuf := inBuf
    cDat := cDat
    draws := draws
    cOff := s.cOff + n
    cRem := 0
    cPhase := duePhase s.cDst 0 s.cRel }

theorem afterReadBeats_zero {s : State} (hrem : s.cRem = 0) (hp : s.cPhase = duePhase s.cDst 0 s.cRel) :
    afterReadBeats 0 s.inBuf s.cDat s.draws s.turns s = s := by
  rw [afterReadBeats, Nat.add_zero, ← hp, ← hrem]

/-- A delivery touches no field that `afterReadBeats` keeps. -/
theorem afterReadBeats_advanceBeat (n : Nat) (inBuf : Memory Word) (cDat : List Item) (draws : Nat) (ts ts' : List Turn)
    (item : Item) (s : State) :
    afterReadBeats n inBuf cDat draws ts (advanceBeat (deliver item { s with turns := ts' })) =
      afterReadBeats (n + 1) inBuf cDat draws ts s := by
  rw [deliver]
  split <;> simp [afterReadBeats, advanceBeat, Nat.add_assoc, Nat.add_comm 1 n]

/-- The state `c` releases later, the last ones due, with `ts` the turns left. -/
def afterReleases (c : Nat) (ts : List Turn) (s : State) : State :=
  { s with
    turns := ts
    head := (s.head + c) % s.capacity
    cRel := 0
    cPhase := afterTransfer s.cDst }

theorem afterReleases_zero {s : State} (h : RingInv s) (hrel : s.cRel = 0) (hp : s.cPhase = duePhase s.cDst 0 0) :
    afterReleases 0 s.turns s = s := by
  rw [afterReleases, Nat.add_zero, Nat.mod_eq_of_lt h.head_lt, ← hrel, ← show s.cPhase = afterTransfer s.cDst from hp]

theorem afterReleases_releaseStep (c : Nat) (ts ts' : List Turn) (s : State) :
    afterReleases c ts (releaseStep { s with turns := ts' }) = afterReleases (c + 1) ts s := by
  simp [afterReleases, releaseStep, Nat.add_assoc, Nat.add_comm 1 c]

theorem step_of_agentC_turn {s : State} {ts : List Turn} (ht : s.turns = .agentC :: ts) :
    step s = stepC { s with turns := ts } := step_of_turn ht

theorem stepC_idle_cons {s : State} {cw : CmdWord} {rest : List CmdWord} (hp : s.cPhase = .idle)
    (hc : s.cCmd = cw :: rest) : stepC s = noteWindow cw (runWord cw { s with port := .C, cCmd := rest }) := by
  rw [stepC, hp, hc]

theorem stepC_beats {s : State} (hp : s.cPhase = .beats) : stepC s = beatStep s := by
  rw [stepC, hp]

theorem stepC_release {s : State} (hp : s.cPhase = .release) : stepC s = .next (releaseStep s) := by
  rw [stepC, hp]

theorem beatStep_of_ringRead {s : State} {item : Item} (hen : beatEnabled s = true)
    (hoff : s.cDst = .analyzer → s.cOff < s.cfg.fftSize) (hread : ringRead s s.cOff = some item) :
    beatStep s = .next (advanceBeat (deliver item s)) := by
  rw [beatStep, if_neg (by simp [hen]), if_neg (by rintro ⟨hd, hle⟩; exact absurd (hoff hd) (not_lt.2 hle)), hread]

theorem step_release {s : State} {ts : List Turn} (ht : s.turns = .agentC :: ts) (hp : s.cPhase = .release) :
    step s = .next (releaseStep { s with turns := ts }) := by
  rw [step_of_agentC_turn ht, stepC_release (s := { s with turns := ts }) hp]

/-- During a transfer the next item is there (R132). -/
theorem ringRead_cOff {s : State} (h : Inv s) (hp : s.cPhase = .beats) : ∃ item, ringRead s s.cOff = some item := by
  obtain ⟨hpos, -, hle⟩ := h.transfer.beats hp
  have hocc := h.ring.readyC_le_occ
  exact Option.ne_none_iff_exists'.1 (h.store.ring_written s.cOff (by omega))

theorem step_readBeat {s : State} (h : Inv s) {ts : List Turn} {item : Item} (ht : s.turns = .agentC :: ts)
    (hp : s.cPhase = .beats) (hen : beatEnabled s = true) (hread : ringRead s s.cOff = some item) :
    step s = .next (advanceBeat (deliver item { s with turns := ts })) := by
  rw [step_of_agentC_turn ht, stepC_beats (s := { s with turns := ts }) hp]
  refine beatStep_of_ringRead (s := { s with turns := ts }) hen (fun hd => ?_) hread
  obtain ⟨hpos, -⟩ := h.transfer.beats hp
  have hblock := h.transfer.block hp hd
  show s.cOff < s.cfg.fftSize
  omega

theorem cPhase_advanceBeat {s : State} (hp : s.cPhase = .beats) :
    (advanceBeat s).cPhase = duePhase s.cDst (s.cRem - 1) s.cRel := by
  rw [advanceBeat_cPhase, hp]
  by_cases hlast : s.cRem - 1 = 0
  · rw [if_pos hlast, hlast]
    rfl
  · rw [if_neg hlast, duePhase, if_pos (Nat.pos_of_ne_zero hlast)]

theorem cPhase_releaseStep {s : State} (hp : s.cPhase = .release) :
    (releaseStep s).cPhase = duePhase s.cDst 0 (s.cRel - 1) := by
  rw [releaseStep_cPhase, hp]
  by_cases hlast : s.cRel - 1 = 0
  · rw [if_pos hlast, hlast]
    rfl
  · rw [if_neg hlast, duePhase, if_neg (lt_irrefl 0), if_pos (Nat.pos_of_ne_zero hlast)]

theorem deliver_cDat (item : Item) (s : State) :
    (deliver item s).cDat = if s.cDst = .port then s.cDat ++ [item] else s.cDat := by
  rw [deliver]
  split <;> rename_i hd <;> simp [hd]

/-- The item `k` places behind HEAD is the next of those held. -/
theorem drop_held {s : State} {k : Nat} (hk : k < occ s) : (held s).drop k = ringRead s k :: (held s).drop (k + 1) := by
  rw [List.drop_eq_getElem_cons (by simpa [held] using hk)]
  simp [held]

/-- While the destination takes beats, port C delivers the items due one after another and removes none. -/
theorem runSteps_readBeats {n : Nat} {s : State} (h : Inv s) (hrem : s.cRem = n) (hp : s.cPhase = duePhase s.cDst n s.cRel)
    (hen : beatEnabled s = true) {ts : List Turn} (ht : s.turns = List.replicate n .agentC ++ ts) :
    ∃ inBuf cDat draws, runSteps n s = .next (afterReadBeats n inBuf cDat draws ts s) ∧
      (s.cDst = .port → cDat.map some = s.cDat.map some ++ ((held s).drop s.cOff).take n) ∧
      (s.cDst = .analyzer → cDat = s.cDat) := by
  induction n generalizing s with
  | zero =>
    refine ⟨s.inBuf, s.cDat, s.draws, ?_, by simp, fun _ => rfl⟩
    rw [← show s.turns = ts from ht, afterReadBeats_zero hrem hp, runSteps_zero]
  | succ n ih =>
    have ht' : s.turns = .agentC :: (List.replicate n .agentC ++ ts) := ht
    have hbeats : s.cPhase = .beats := by rw [hp, duePhase, if_pos n.succ_pos]
    obtain ⟨hpos, -, hready⟩ := h.transfer.beats hbeats
    obtain ⟨item, hread⟩ := ringRead_cOff h hbeats
    have hstep := step_readBeat h ht' hbeats hen hread
    have hqueue := ringIsQueue _ _ _ _ h ht' hstep
    generalize hu : deliver item { s with turns := List.replicate n .agentC ++ ts } = u at hstep hqueue
    have hphase := cPhase_advanceBeat (s := u) (by simpa [← hu] using hbeats)
    obtain ⟨inBuf, cDat, draws, hrun, hport, han⟩ := ih (stepKeepsInvariant _ _ h hstep) (by simp [← hu, hrem])
      (by simpa [← hu, hrem] using hphase) (by simpa [← hu, beatEnabled] using hen) (by simp [← hu])
    rw [← hu, afterReadBeats_advanceBeat] at hrun
    refine ⟨inBuf, cDat, draws, (runSteps_succ (hu ▸ hstep) n).trans hrun, fun hd => ?_, fun hd => ?_⟩
    · have hocc := h.ring.readyC_le_occ
      rw [hport (by simpa [← hu] using hd), hqueue, drop_held (k := s.cOff) (by omega), hread]
      simp [← hu, deliver_cDat, hd, queueAfter, hbeats]
    · rw [han (by simpa [← hu] using hd)]
      simp [← hu, deliver_cDat, hd]

/-- Port C removes the items due for release one after another, and the transfer is over. -/
theorem runSteps_releases {c : Nat} {s : State} (h : Inv s) (hrel : s.cRel = c) (hp : s.cPhase = duePhase s.cDst 0 c)
    {ts : List Turn} (ht : s.turns = List.replicate c .agentC ++ ts) :
    runSteps c s = .next (afterReleases c ts s) ∧ held (afterReleases c ts s) = (held s).drop c := by
  induction c generalizing s with
  | zero =>
    rw [← show s.turns = ts from ht, afterReleases_zero h.ring hrel hp]
    exact ⟨runSteps_zero s, List.drop_zero.symm⟩
  | succ c ih =>
    have ht' : s.turns = .agentC :: (List.replicate c .agentC ++ ts) := ht
    have hphase : s.cPhase = .release := by rw [hp, duePhase, if_neg (lt_irrefl 0), if_pos c.succ_pos]
    have hstep := step_release ht' hphase
    have hqueue := ringIsQueue _ _ _ _ h ht' hstep
    have hnext := cPhase_releaseStep (s := { s with turns := List.replicate c .agentC ++ ts }) hphase
    obtain ⟨hrun, hheld⟩ := ih (stepKeepsInvariant _ _ h hstep) (by simp [hrel]) (by simpa [hrel] using hnext) rfl
    rw [afterReleases_releaseStep] at hrun hheld
    refine ⟨(runSteps_succ hstep c).trans hrun, ?_⟩
    rw [hheld, hqueue]
    simp [queueAfter, hphase]

/-- The state after a whole transfer of `n` beats and `c` releases. -/
def afterWholeTransfer (n c : Nat) (inBuf : Memory Word) (cDat : List Item) (draws : Nat) (ts : List Turn) (s : State) :
    State :=
  afterReleases c ts (afterReadBeats n inBuf cDat draws (List.replicate c .agentC ++ ts) s)

/-- The beats due, then the releases due: the `n` items from C_OFF on are delivered and the `c` oldest removed. -/
theorem runSteps_transfer {n c : Nat} {s : State} (h : Inv s) (hp : s.cPhase = .beats) (hrem : s.cRem = n)
    (hrel : s.cRel = c) (hen : beatEnabled s = true) {ts : List Turn}
    (ht : s.turns = List.replicate n .agentC ++ (List.replicate c .agentC ++ ts)) :
    ∃ inBuf cDat draws, runSteps (n + c) s = .next (afterWholeTransfer n c inBuf cDat draws ts s) ∧
      held (afterWholeTransfer n c inBuf cDat draws ts s) = (held s).drop c ∧
      (s.cDst = .port → cDat.map some = s.cDat.map some ++ ((held s).drop s.cOff).take n) ∧
      (s.cDst = .analyzer → cDat = s.cDat) := by
  obtain ⟨hpos, -⟩ := h.transfer.beats hp
  have hdue : s.cPhase = duePhase s.cDst n s.cRel := by rw [hp, ← hrem, duePhase, if_pos hpos]
  obtain ⟨inBuf, cDat, draws, hbeats, hdelivered⟩ := runSteps_readBeats h hrem hdue hen ht
  obtain ⟨hreleases, hheld⟩ := runSteps_releases (inv_runSteps h hbeats) hrel (by rw [← hrel]; rfl) rfl
  exact ⟨inBuf, cDat, draws, (runSteps_add hbeats c).trans hreleases, hheld, hdelivered⟩

/-! ### READ (40_ring_buffer.md R130 to R134) -/

theorem exec_read_of_le {s : State} {n c : Nat} (hp : s.port = .C) (hc : c ≤ n) (hn : n ≤ readyC s) :
    exec (.read n c) s =
      .next (if n = 0 then respond .ok 0 0 s else startTransfer .port n c (respond .ok 0 0 s)) := by
  rw [exec, execRead, onlyOn_self hp, if_neg (not_lt.2 hc), if_neg (not_lt.2 hn)]

/-- The check step of an admitted READ (R131). -/
theorem step_read {s : State} {n c : Nat} {ts : List Turn} {rest : List CmdWord} (ht : s.turns = .agentC :: ts)
    (hp : s.cPhase = .idle) (hn : n < 2 ^ 24) (hc : c ≤ n) (hcmd : s.cCmd = encode (.read n c) :: rest)
    (hready : n ≤ readyC s) {u : State} (hu : respond .ok 0 0 { s with turns := ts, port := .C, cCmd := rest } = u) :
    step s = .next (if n = 0 then u else startTransfer .port n c u) := by
  have hdec := decode_encode_read hn (hc.trans_lt hn)
  have hq : isQuiesce (encode (.read n c)) = false := by rw [isQuiesce, hdec]
  rw [step_of_agentC_turn ht, stepC_idle_cons (s := { s with turns := ts }) hp hcmd, runWord_of_decode hdec,
    exec_read_of_le (s := { s with turns := ts, port := .C, cCmd := rest }) rfl hc hready, hu, noteWindow, hq]
  rfl

/-- Settles O37: the check step, then the beats and the releases it admitted. -/
theorem readRunsToCompletion : Obligations.ReadRunsToCompletion := by
  intro s n c ts rest h hp hn hc hcmd hen hready ht
  have ht' : s.turns = .agentC :: (List.replicate n .agentC ++ (List.replicate c .agentC ++ ts)) := by
    rw [ht, ← List.append_assoc, List.replicate_append_replicate, Nat.add_assoc, Nat.add_comm 1]
    rfl
  generalize hu : respond .ok 0 0 { s with
    turns := List.replicate n .agentC ++ (List.replicate c .agentC ++ ts), port := .C, cCmd := rest } = u
  have hstep := step_read ht' hp hn hc hcmd hready hu
  have hheld : held u = held s := by rw [← hu]; rfl
  rw [Nat.add_assoc, Nat.add_comm 1]
  by_cases hn0 : n = 0
  · obtain ⟨rfl, rfl⟩ : n = 0 ∧ c = 0 := by omega
    refine ⟨u, runSteps_succ hstep 0, ?_⟩
    rw [hheld]
    simp [← hu, hp, Nat.mod_eq_of_lt h.ring.head_lt]
  · rw [if_neg hn0] at hstep
    have hinv := stepKeepsInvariant _ _ h hstep
    obtain ⟨inBuf, cDat, draws, hrun, hleft, hport, -⟩ := runSteps_transfer (n := n) (c := c) (ts := ts)
      hinv rfl rfl rfl (by simp [← hu, beatEnabled, hen]) (by simp [← hu])
    refine ⟨_, (runSteps_succ hstep (n + c)).trans hrun, rfl, rfl, ?_⟩
    rw [show held (startTransfer .port n c u) = held s from hheld] at hleft hport
    rw [hleft]
    simp [afterWholeTransfer, afterReleases, afterReadBeats, ← hu, hport]

end Sys2Proof.Machine

namespace Sys2Proof.Machine

/-! ### The fields of a command word (30_encoding.md R93, R94) -/

theorem cmdWord_fields (cw : CmdWord) : cmdWord (opField cw) (aField cw) (bField cw) = cw := by
  have hhigh : opField cw ++ aField cw = cw.extractLsb' 32 32 :=
    BitVec.extractLsb'_append_extractLsb'_eq_extractLsb' (by omega)
  rw [cmdWord, hhigh]
  exact BitVec.extractLsb'_append_extractLsb'

/-- A field whose high bits must be zero is made of its low bits. -/
theorem zero_append_extractLsb' {v w : Nat} {x : BitVec (v + w)} (h : x.extractLsb' w v = 0#v) :
    0#v ++ x.extractLsb' 0 w = x := by
  rw [← h, BitVec.extractLsb'_append_extractLsb']

theorem zero_append_ofNat {b : BitVec 32} (h : b.extractLsb' 24 8 = 0#8) :
    0#8 ++ BitVec.ofNat 24 (b.extractLsb' 0 24).toNat = b := by
  rw [BitVec.ofNat_toNat, BitVec.setWidth_eq]
  exact zero_append_extractLsb' h

/-- Where a mask is full, the masked word keeps the word's own bits. -/
theorem extractLsb'_eq_of_and_eq {w start len : Nat} {x m p : BitVec w} (h : x &&& m = p)
    (hm : m.extractLsb' start len = BitVec.allOnes len) : x.extractLsb' start len = p.extractLsb' start len := by
  rw [← h, BitVec.extractLsb'_and, hm, BitVec.and_allOnes]

/-! ### What a format decodes, and the word it came from (30_encoding.md R94) -/

theorem decodeZ_cmdWord (op : BitVec 8) (i : Instr) : decodeZ (cmdWord op 0 0) i = .ok i := by
  rw [decodeZ, aField_cmdWord, bField_cmdWord, if_pos ⟨rfl, rfl⟩]

theorem decodeR_cmdWord (op : BitVec 8) (addr : BitVec 12) (f : BitVec 12 → Instr) :
    decodeR (cmdWord op (0#12 ++ addr) 0) f = .ok (f addr) := by
  rw [decodeR, aField_cmdWord, bField_cmdWord, BitVec.extractLsb'_append_eq_left, BitVec.extractLsb'_append_eq_right,
    if_pos ⟨rfl, rfl⟩]

theorem decodeW_cmdWord (op : BitVec 8) (addr : BitVec 12) (val : Word) (f : BitVec 12 → Word → Instr) :
    decodeW (cmdWord op (0#12 ++ addr) val) f = .ok (f addr val) := by
  rw [decodeW, aField_cmdWord, bField_cmdWord, BitVec.extractLsb'_append_eq_left, BitVec.extractLsb'_append_eq_right,
    if_pos (show 0#12 = 0 from rfl)]

theorem decodeZ_ok {cw : CmdWord} {i j : Instr} (h : decodeZ cw j = .ok i) : i = j ∧ cmdWord (opField cw) 0 0 = cw := by
  unfold decodeZ at h
  split at h
  · rename_i hzero
    obtain ⟨ha, hb⟩ := hzero
    cases h
    refine ⟨rfl, ?_⟩
    rw [← ha, ← hb, cmdWord_fields]
  · cases h

theorem decodeN_ok {cw : CmdWord} {f : Nat → Instr} {i : Instr} (h : decodeN cw f = .ok i) :
    ∃ n < 2 ^ 24, i = f n ∧ encodeN (opField cw) n = cw := by
  unfold decodeN at h
  split at h
  · rename_i hzero
    obtain ⟨ha, hb⟩ := hzero
    cases h
    refine ⟨_, BitVec.isLt _, rfl, ?_⟩
    rw [encodeN, zero_append_ofNat hb, ← ha, cmdWord_fields]
  · cases h

theorem decodeNC_ok {cw : CmdWord} {f : Nat → Nat → Instr} {i : Instr} (h : decodeNC cw f = .ok i) :
    ∃ n < 2 ^ 24, ∃ c < 2 ^ 24, i = f n c ∧
      cmdWord (opField cw) (BitVec.ofNat 24 c) (0#8 ++ BitVec.ofNat 24 n) = cw := by
  unfold decodeNC at h
  split at h
  · rename_i hb
    cases h
    refine ⟨_, BitVec.isLt _, _, BitVec.isLt _, rfl, ?_⟩
    rw [zero_append_ofNat hb, BitVec.ofNat_toNat, BitVec.setWidth_eq, cmdWord_fields]
  · cases h

theorem decodeR_ok {cw : CmdWord} {f : BitVec 12 → Instr} {i : Instr} (h : decodeR cw f = .ok i) :
    ∃ addr : BitVec 12, i = f addr ∧ cmdWord (opField cw) (0#12 ++ addr) 0 = cw := by
  unfold decodeR at h
  split at h
  · rename_i hzero
    obtain ⟨ha, hb⟩ := hzero
    cases h
    refine ⟨_, rfl, ?_⟩
    rw [zero_append_extractLsb' (v := 12) (w := 12) ha, ← hb, cmdWord_fields]
  · cases h

theorem decodeW_ok {cw : CmdWord} {f : BitVec 12 → Word → Instr} {i : Instr} (h : decodeW cw f = .ok i) :
    ∃ (addr : BitVec 12) (val : Word), i = f addr val ∧ cmdWord (opField cw) (0#12 ++ addr) val = cw := by
  unfold decodeW at h
  split at h
  · rename_i ha
    cases h
    refine ⟨_, _, rfl, ?_⟩
    rw [zero_append_extractLsb' (v := 12) (w := 12) ha, cmdWord_fields]
  · cases h

/-! ### A word that meets a format's match has its must-be-zero bits zero (30_encoding.md R97) -/

section Match

variable {cw : CmdWord} {op : BitVec 8}

theorem decodeZ_of_match (h : cw &&& 0xFFFFFFFFFFFFFFFF = cmdWord op 0 0) (i : Instr) : decodeZ cw i = .ok i := by
  rw [show cw = cmdWord op 0 0 from (BitVec.and_allOnes (w := 64)).symm.trans h]
  exact decodeZ_cmdWord op i

theorem bField_and {m p : CmdWord} (h : cw &&& m = p) : bField cw &&& bField m = bField p := by
  rw [← h]
  exact BitVec.extractLsb'_and.symm

theorem aField_and {m p : CmdWord} (h : cw &&& m = p) : aField cw &&& aField m = aField p := by
  rw [← h]
  exact BitVec.extractLsb'_and.symm

theorem decodeN_of_match (h : cw &&& 0xFFFFFFFFFF000000 = cmdWord op 0 0) (f : Nat → Instr) :
    ∃ n, decodeN cw f = .ok (f n) := by
  have ha := aField_and h
  have hb := extractLsb'_eq_of_and_eq (start := 24) (len := 8) (bField_and h) rfl
  rw [aField_cmdWord, show aField 0xFFFFFFFFFF000000 = BitVec.allOnes 24 from rfl, BitVec.and_allOnes] at ha
  rw [bField_cmdWord] at hb
  exact ⟨_, if_pos ⟨ha, hb⟩⟩

theorem decodeNC_of_match (h : cw &&& 0xFF000000FF000000 = cmdWord op 0 0) (f : Nat → Nat → Instr) :
    ∃ n c, decodeNC cw f = .ok (f n c) := by
  have hb := extractLsb'_eq_of_and_eq (start := 24) (len := 8) (bField_and h) rfl
  rw [bField_cmdWord] at hb
  exact ⟨_, _, if_pos hb⟩

theorem decodeR_of_match (h : cw &&& 0xFFFFF000FFFFFFFF = cmdWord op 0 0) (f : BitVec 12 → Instr) :
    ∃ addr, decodeR cw f = .ok (f addr) := by
  have ha := extractLsb'_eq_of_and_eq (start := 12) (len := 12) (aField_and h) rfl
  have hb := bField_and h
  rw [aField_cmdWord] at ha
  rw [bField_cmdWord, show bField 0xFFFFF000FFFFFFFF = BitVec.allOnes 32 from rfl, BitVec.and_allOnes] at hb
  exact ⟨_, if_pos ⟨ha, hb⟩⟩

theorem decodeW_of_match (h : cw &&& 0xFFFFF00000000000 = cmdWord op 0 0) (f : BitVec 12 → Word → Instr) :
    ∃ addr val, decodeW cw f = .ok (f addr val) := by
  have ha := extractLsb'_eq_of_and_eq (start := 12) (len := 12) (aField_and h) rfl
  rw [aField_cmdWord] at ha
  exact ⟨_, _, if_pos ha⟩

end Match

/-! ### The opcode selects the row (30_encoding.md R97, R98) -/

/-- The opcode of a command. -/
def opcodeOf : Instr → BitVec 8
  | .write _ => 0x01
  | .read _ _ => 0x02
  | .nready => 0x03
  | .freesp => 0x04
  | .reset => 0x05
  | .setsize _ => 0x06
  | .rdcsr _ => 0x10
  | .wrcsr _ _ => 0x11
  | .axbuild => 0x12
  | .update => 0x20
  | .getinfo _ => 0x21
  | .getbin _ => 0x22

/-- The match of a row has its opcode and otherwise zeros (R97). -/
theorem pattern_eq_cmdWord (i : Instr) : (rowOf i).pattern = cmdWord (opcodeOf i) 0 0 := by
  cases i <;> rw [rowOf, opcodeOf] <;> rfl

theorem opField_pattern (i : Instr) : opField (rowOf i).pattern = opcodeOf i := by
  rw [pattern_eq_cmdWord, opField_cmdWord]

/-- The word taken as one of the row of a command: its format alone decides. -/
def decodeAs (cw : CmdWord) : Instr → Except Reject Instr
  | .write _ => decodeN cw .write
  | .read _ _ => decodeNC cw .read
  | .nready => decodeZ cw .nready
  | .freesp => decodeZ cw .freesp
  | .reset => decodeZ cw .reset
  | .setsize _ => decodeN cw .setsize
  | .rdcsr _ => decodeR cw .rdcsr
  | .wrcsr _ _ => decodeW cw .wrcsr
  | .axbuild => decodeZ cw .axbuild
  | .update => decodeZ cw .update
  | .getinfo _ => decodeN cw .getinfo
  | .getbin _ => decodeN cw .getbin

theorem decode_of_opcode {cw : CmdWord} {i : Instr} (h : opField cw = opcodeOf i) : decode cw = decodeAs cw i := by
  rw [decode, h]
  cases i <;> rfl

/-- A word whose opcode is none of the twelve is rejected as one (R98, R100). -/
theorem decode_of_reserved {cw : CmdWord} (h : ∀ j, opField cw ≠ opcodeOf j) :
    decode cw = .error (.reservedOpcode (opField cw)) :=
  (if_neg (h (.write 0))).trans <| (if_neg (h (.read 0 0))).trans <| (if_neg (h .nready)).trans <|
    (if_neg (h .freesp)).trans <| (if_neg (h .reset)).trans <| (if_neg (h (.setsize 0))).trans <|
    (if_neg (h (.rdcsr 0))).trans <| (if_neg (h (.wrcsr 0 0))).trans <| (if_neg (h .axbuild)).trans <|
    (if_neg (h .update)).trans <| (if_neg (h (.getinfo 0))).trans (if_neg (h (.getbin 0)))

theorem opcode_of_decode {cw : CmdWord} {i : Instr} (h : decode cw = .ok i) : ∃ j, opField cw = opcodeOf j := by
  by_contra hno
  rw [decode_of_reserved (not_exists.1 hno)] at h
  cases h

theorem opField_encode (i : Instr) : opField (encode i) = opcodeOf i := by
  cases i <;> exact opField_cmdWord ..

theorem decodeAs_encode {i : Instr} (hwf : i.wf = true) : decodeAs (encode i) i = .ok i := by
  cases i with
  | write n => exact decodeN_encodeN (of_decide_eq_true hwf) 0x01 .write
  | read n c =>
    obtain ⟨hn, hc⟩ := Bool.and_eq_true_iff.1 hwf
    exact decodeNC_cmdWord (of_decide_eq_true hn) (of_decide_eq_true hc) 0x02 .read
  | setsize cap => exact decodeN_encodeN (of_decide_eq_true hwf) 0x06 .setsize
  | rdcsr addr => exact decodeR_cmdWord 0x10 addr .rdcsr
  | wrcsr addr val => exact decodeW_cmdWord 0x11 addr val .wrcsr
  | getinfo idx => exact decodeN_encodeN (of_decide_eq_true hwf) 0x21 .getinfo
  | getbin k => exact decodeN_encodeN (of_decide_eq_true hwf) 0x22 .getbin
  | _ => exact decodeZ_cmdWord _ _

theorem encode_of_decodeAs {cw : CmdWord} {i j : Instr} (hop : opField cw = opcodeOf j) (h : decodeAs cw j = .ok i) :
    i.wf = true ∧ encode i = cw := by
  cases j with
  | write | setsize | getinfo | getbin =>
    obtain ⟨n, hn, rfl, hcw⟩ := decodeN_ok h
    rw [hop] at hcw
    exact ⟨decide_eq_true hn, hcw⟩
  | read =>
    obtain ⟨n, hn, c, hc, rfl, hcw⟩ := decodeNC_ok h
    rw [hop] at hcw
    exact ⟨Bool.and_eq_true_iff.2 ⟨decide_eq_true hn, decide_eq_true hc⟩, hcw⟩
  | rdcsr =>
    obtain ⟨addr, rfl, hcw⟩ := decodeR_ok h
    rw [hop] at hcw
    exact ⟨rfl, hcw⟩
  | wrcsr =>
    obtain ⟨addr, val, rfl, hcw⟩ := decodeW_ok h
    rw [hop] at hcw
    exact ⟨rfl, hcw⟩
  | nready | freesp | reset | axbuild | update =>
    obtain ⟨rfl, hcw⟩ := decodeZ_ok h
    rw [hop] at hcw
    exact ⟨rfl, hcw⟩

/-- Settles O1: the opcode of the word selects the command's row, and the row's format gives the operands back. -/
theorem decodeOfEncode : Obligations.DecodeOfEncode := by
  intro i hwf
  rw [decode_of_opcode (opField_encode i)]
  exact decodeAs_encode hwf

/-- Settles O2: the row is the one its opcode selects, and each format's must-be-zero bits and operands make up the word. -/
theorem encodeOfDecode : Obligations.EncodeOfDecode := by
  intro cw i h
  obtain ⟨j, hop⟩ := opcode_of_decode h
  exact encode_of_decodeAs hop (decode_of_opcode hop ▸ h)

end Sys2Proof.Machine

namespace Sys2Proof.Machine

/-! ### Match and mask (30_encoding.md R97, R98) -/

open Laws in
/-- The word of a command meets its row's match: the laws of `EncodingFitsRow`, for every command. -/
theorem encode_and_mask (i : Instr) : encode i &&& (rowOf i).mask = (rowOf i).pattern := by
  cases i with
  | write n => exact EncodingFitsRow.write n
  | read n c => exact EncodingFitsRow.read n c
  | nready => exact EncodingFitsRow.nready
  | freesp => exact EncodingFitsRow.freesp
  | reset => exact EncodingFitsRow.reset
  | setsize cap => exact EncodingFitsRow.setsize cap
  | rdcsr addr => exact EncodingFitsRow.rdcsr addr
  | wrcsr addr val => exact EncodingFitsRow.wrcsr addr val
  | axbuild => exact EncodingFitsRow.axbuild
  | update => exact EncodingFitsRow.update
  | getinfo idx => exact EncodingFitsRow.getinfo idx
  | getbin k => exact EncodingFitsRow.getbin k

theorem pattern_and_mask (i : Instr) : (rowOf i).pattern &&& (rowOf i).mask = (rowOf i).pattern := by
  rw [← encode_and_mask i, BitVec.and_assoc, BitVec.and_self]

theorem opField_mask (i : Instr) : opField (rowOf i).mask = BitVec.allOnes 8 := by
  cases i <;> rw [rowOf] <;> rfl

section Match

variable {cw : CmdWord} {i : Instr} (h : cw &&& (rowOf i).mask = (rowOf i).pattern)
include h

theorem opField_of_match : opField cw = opcodeOf i :=
  (extractLsb'_eq_of_and_eq h (opField_mask i)).trans (opField_pattern i)

theorem decodeAs_of_match : ∃ j, decodeAs cw i = .ok j ∧ rowOf j = rowOf i := by
  rw [pattern_eq_cmdWord] at h
  cases i with
  | write | setsize | getinfo | getbin =>
    obtain ⟨n, hn⟩ := decodeN_of_match h _
    exact ⟨_, hn, rfl⟩
  | read =>
    obtain ⟨n, c, hnc⟩ := decodeNC_of_match h _
    exact ⟨_, hnc, rfl⟩
  | rdcsr =>
    obtain ⟨addr, haddr⟩ := decodeR_of_match h _
    exact ⟨_, haddr, rfl⟩
  | wrcsr =>
    obtain ⟨addr, val, hval⟩ := decodeW_of_match h _
    exact ⟨_, hval, rfl⟩
  | nready | freesp | reset | axbuild | update => exact ⟨_, decodeZ_of_match h _, rfl⟩

theorem decode_of_match : ∃ j, decode cw = .ok j ∧ rowOf j = rowOf i := by
  rw [decode_of_opcode (opField_of_match h)]
  exact decodeAs_of_match h

end Match

/-- A word meets the match of one row only, the row of the command it decodes to. -/
theorem rowOf_eq_of_match {cw : CmdWord} {i j : Instr} (hi : cw &&& (rowOf i).mask = (rowOf i).pattern)
    (hj : cw &&& (rowOf j).mask = (rowOf j).pattern) : rowOf i = rowOf j := by
  obtain ⟨k, hk, hki⟩ := decode_of_match hi
  obtain ⟨l, hl, hlj⟩ := decode_of_match hj
  rw [hk] at hl
  cases hl
  exact hki.symm.trans hlj

/-- The bare pattern of the opcode meets the match of both rows. -/
theorem rowOf_eq_of_opcode {i j : Instr} (h : opField (rowOf i).pattern = opField (rowOf j).pattern) :
    rowOf i = rowOf j := by
  rw [opField_pattern, opField_pattern] at h
  have hpattern : (rowOf i).pattern = (rowOf j).pattern := by rw [pattern_eq_cmdWord, pattern_eq_cmdWord, h]
  exact rowOf_eq_of_match (pattern_and_mask i) (hpattern ▸ pattern_and_mask j)

/-! ### What is answered to a word (30_encoding.md R98, R100) -/

theorem runWord_of_reject {cw : CmdWord} {e : Reject} (he : decode cw = .error e) (s : State) :
    runWord cw s = .next (respond .errIllegal 0 0 s) := by
  rw [runWord, he]
  rfl

theorem ne_of_not_legalOn {i : Instr} {p q : Port} (hq : i.legalOn q = true) (h : i.legalOn p = false) : p ≠ q := by
  rintro rfl
  rw [hq] at h
  cases h

theorem exec_of_not_legalOn {i : Instr} {s : State} (h : i.legalOn s.port = false) :
    exec i s = .next (respond .errIllegal 0 0 s) := by
  cases i with
  | write n => exact onlyOn_other (ne_of_not_legalOn rfl h)
  | nready | freesp => cases hp : s.port <;> rw [hp] at h <;> cases h
  | _ => exact onlyOn_other (ne_of_not_legalOn (q := .C) rfl h)

/-- Settles O3: a decoded word is the word of its command, so it meets its row's match; and a word that meets a row's match
has the row's opcode and its format's must-be-zero bits zero, so it decodes to a command of the row. -/
theorem decoderFollowsOpcodeMap : Obligations.DecoderFollowsOpcodeMap := by
  refine ⟨fun i j => rowOf_eq_of_opcode, fun cw i h => ?_, fun cw i => decode_of_match, fun cw s h => ?_,
    fun cw s i h => runWord_of_decode h s⟩
  · obtain ⟨-, rfl⟩ := encodeOfDecode cw i h
    exact ⟨(opField_encode i).trans (opField_pattern i).symm, encode_and_mask i⟩
  · cases hd : decode cw with
    | error e => exact runWord_of_reject hd s
    | ok i => exact (runWord_of_decode hd s).trans (exec_of_not_legalOn (h i hd))

/-! ### The worked encodings (30_encoding.md R104) -/

theorem decodeTableWord_of_encode {i : Instr} {w : Nat} (hw : w < 2 ^ 64) (hwf : i.wf = true)
    (h : encode i = BitVec.ofNat 64 w) : decodeTableWord 64 w = some i := by
  rw [decodeTableWord, Nat.mod_eq_of_lt hw, ← h, decodeOfEncode i hwf]

theorem worked_encoding {i : Instr} {w : Nat} (hw : w < 2 ^ 64) (hwf : i.wf = true) (h : encode i = BitVec.ofNat 64 w) :
    encode i = BitVec.ofNat 64 w ∧ decodeTableWord 64 w = some i := ⟨h, decodeTableWord_of_encode hw hwf h⟩

/-- Settles O4: each command's word is computed, and decodes by `decodeOfEncode`. -/
theorem workedEncodings : Obligations.WorkedEncodings :=
  ⟨worked_encoding (by decide) rfl rfl, worked_encoding (by decide) rfl rfl, worked_encoding (by decide) rfl rfl,
    worked_encoding (by decide) rfl rfl, worked_encoding (by decide) rfl rfl, worked_encoding (by decide) rfl rfl,
    worked_encoding (by decide) rfl rfl, worked_encoding (by decide) rfl rfl, worked_encoding (by decide) rfl rfl,
    worked_encoding (by decide) rfl rfl, worked_encoding (by decide) rfl rfl, worked_encoding (by decide) rfl rfl,
    worked_encoding (by decide) rfl rfl, worked_encoding (by decide) rfl rfl, rfl⟩

end Sys2Proof.Machine

namespace Sys2Proof.Machine

/-! ### One response for a command (30_encoding.md R92) -/

theorem responses_of_effect {i : Instr} {s u : State} (h : Effect s i u) :
    u.port = s.port ∧ u.pRsp = s.pRsp ∧ u.cRsp = s.cRsp := by
  cases h <;> simp

/-- `t` is what a command leaves once its response is sent. -/
def Responds (i : Instr) (s t : State) : Prop :=
  ∃ u st d1 d0, Effect s i u ∧ t = respond st d1 d0 u

theorem responds_unchanged (i : Instr) (s : State) (st : Status) (d1 d0 : Word) : Responds i s (respond st d1 d0 s) :=
  ⟨s, st, d1, d0, .unchanged i, rfl⟩

/-- Every command but an admitted UPDATE sends its response in its first step. -/
theorem exec_responds {i : Instr} {s t : State} (h : exec i s = .next t) :
    Responds i s t ∨ (i = .update ∧ s.port = .C ∧
      t = startTransfer .analyzer s.cfg.fftSize (s.cfg.fftSize - s.cfg.keep) s) := by
  cases i with
  | write n =>
    left
    rcases execWrite_next h with ⟨-, rfl⟩ | ⟨-, -, rfl⟩ | ⟨hp, hn, rfl⟩
    · exact responds_unchanged ..
    · exact responds_unchanged ..
    · exact ⟨_, .ok, 0, 0, .write hp hn, startWrite_respond ..⟩
  | read n c =>
    left
    rcases execRead_next h with ⟨-, rfl⟩ | ⟨-, -, rfl⟩ | ⟨-, -, -, rfl⟩ | ⟨-, -, -, rfl⟩ | ⟨hp, hc, hn, hr, rfl⟩
    · exact responds_unchanged ..
    · exact responds_unchanged ..
    · exact responds_unchanged ..
    · exact responds_unchanged ..
    · exact ⟨_, .ok, 0, 0, .read hp hc hn hr, rfl⟩
  | nready => exact .inl (execNready_next h ▸ responds_unchanged ..)
  | freesp => exact .inl (execFreesp_next h ▸ responds_unchanged ..)
  | reset =>
    left
    rcases execReset_next h with ⟨-, rfl⟩ | ⟨hp, hi, rfl⟩
    · exact responds_unchanged ..
    · exact ⟨_, .ok, 0, 0, .reset hp hi, rfl⟩
  | setsize cap =>
    left
    rcases execSetsize_next h with ⟨-, rfl⟩ | ⟨-, -, rfl⟩ | ⟨hp, hl, hi, rfl⟩
    · exact responds_unchanged ..
    · exact responds_unchanged ..
    · exact ⟨_, .ok, 0, 0, .setsize hp hi hl, rfl⟩
  | rdcsr addr =>
    left
    rcases execRdcsr_next h with ⟨-, rfl⟩ | ⟨-, -, rfl⟩ | ⟨-, r, -, rfl⟩ <;> exact responds_unchanged ..
  | wrcsr addr v =>
    left
    rcases execWrcsr_next h with ⟨-, rfl⟩ | ⟨-, -, rfl⟩ | ⟨-, r, -, -, -, rfl⟩ | ⟨-, r, -, -, hv, rfl⟩
    · exact responds_unchanged ..
    · exact responds_unchanged ..
    · exact responds_unchanged ..
    · exact ⟨_, .ok, 0, 0, .wrcsr hv, rfl⟩
  | axbuild =>
    left
    rcases execAxbuild_next h with ⟨-, rfl⟩ | ⟨-, -, rfl⟩ | ⟨-, ha, rfl⟩
    · exact responds_unchanged ..
    · exact responds_unchanged ..
    · exact ⟨_, .ok, 0, _, .axbuild ha, rfl⟩
  | update =>
    rcases execUpdate_next h with ⟨-, rfl⟩ | ⟨-, -, rfl⟩ | ⟨-, -, -, rfl⟩ | ⟨hp, -, -, rfl⟩
    · exact .inl (responds_unchanged ..)
    · exact .inl (responds_unchanged ..)
    · exact .inl (responds_unchanged ..)
    · exact .inr ⟨rfl, hp, rfl⟩
  | getinfo idx =>
    left
    rcases execGetinfo_next h with ⟨-, rfl⟩ | ⟨-, -, rfl⟩ | ⟨-, -, -, rfl⟩ | ⟨-, -, -, f, -, rfl⟩ <;>
      exact responds_unchanged ..
  | getbin k =>
    left
    rcases execGetbin_next h with ⟨-, rfl⟩ | ⟨-, -, rfl⟩ | ⟨-, -, rfl⟩ <;> exact responds_unchanged ..

/-- Settles O9: a command sends its response on its own port in its first step, or it is an UPDATE whose pull has begun. -/
theorem oneResponsePerCommand : Obligations.OneResponsePerCommand := by
  intro i s t h
  rcases exec_responds h with ⟨u, st, d1, d0, he, rfl⟩ | ⟨rfl, hp, rfl⟩
  · obtain ⟨hport, hpRsp, hcRsp⟩ := responses_of_effect he
    constructor <;> intro hp <;> simp [hport, hpRsp, hcRsp, hp]
  · simp [hp]

/-! ### The command a step runs (30_encoding.md R92, R98, 00_scope.md R13) -/

section FirstWord

variable {s : State} {ts : List Turn} {cw : CmdWord} {rest : List CmdWord}

theorem step_firstWordP (ht : s.turns = .agentP :: ts) (hp : s.pPhase = .idle) (hc : s.pCmd = cw :: rest) :
    step s = runWord cw { s with turns := ts, port := .P, pCmd := rest } := by
  rw [step_of_agentP_turn ht]
  exact stepP_idle_cons (s := { s with turns := ts }) hp hc

theorem step_firstWordC (ht : s.turns = .agentC :: ts) (hp : s.cPhase = .idle) (hc : s.cCmd = cw :: rest) :
    step s = noteWindow cw (runWord cw { s with turns := ts, port := .C, cCmd := rest }) := by
  rw [step_of_agentC_turn ht]
  exact stepC_idle_cons (s := { s with turns := ts }) hp hc

end FirstWord

theorem isQuiesce_of_ne {cw : CmdWord} {i : Instr} (hi : decode cw = .ok i) (hreset : i ≠ .reset)
    (hsetsize : ∀ cap, i ≠ .setsize cap) : isQuiesce cw = false := by
  rw [isQuiesce, hi]
  cases i with
  | reset => exact absurd rfl hreset
  | setsize cap => exact absurd rfl (hsetsize cap)
  | _ => rfl

theorem isQuiesce_of_decode {cw : CmdWord} {i : Instr} (hi : decode cw = .ok i)
    (h : i = .reset ∨ ∃ cap, i = .setsize cap) : isQuiesce cw = true := by
  rw [isQuiesce, hi]
  rcases h with rfl | ⟨cap, rfl⟩ <;> rfl

theorem isQuiesce_of_reject {cw : CmdWord} {e : Reject} (he : decode cw = .error e) : isQuiesce cw = false := by
  rw [isQuiesce, he]

theorem noteWindow_of_not_quiesce {cw : CmdWord} (h : isQuiesce cw = false) (r : Result) : noteWindow cw r = r := by
  cases r with
  | next t => rw [noteWindow, h]; rfl
  | fault r => rfl
  | refused r => rfl

theorem noteWindow_of_quiesce {cw : CmdWord} (h : isQuiesce cw = true) (t : State) :
    noteWindow cw (.next t) = .next { t with quiet := t.cRsp.length } := if_pos h

/-- Settles O5: agent P's step takes its first word, and the word is run as the command it decodes to. -/
theorem stepRunsDecodedCommandOnP : Obligations.StepRunsDecodedCommandOnP := by
  intro s ts cw rest i ht hp hc hi
  rw [step_firstWordP ht hp hc, runWord_of_decode hi]

/-- Settles O6: the window of R291 is noted after a RESET or a SETSIZE only. -/
theorem stepRunsDecodedCommandOnC : Obligations.StepRunsDecodedCommandOnC := by
  intro s ts cw rest i ht hp hc hi
  rw [step_firstWordC ht hp hc, runWord_of_decode hi]
  refine ⟨fun hreset hsetsize => noteWindow_of_not_quiesce (isQuiesce_of_ne hi hreset hsetsize) _,
    fun hq => ⟨fun t hexec => ?_, fun r hexec => ?_⟩⟩
  · rw [hexec]
    exact noteWindow_of_quiesce (isQuiesce_of_decode hi hq) t
  · rw [hexec]
    rfl

/-- Settles O7: the answer of `runWord` to a rejected word, on either port. -/
theorem noCommandAnswersIllegal : Obligations.NoCommandAnswersIllegal := by
  intro s ts cw rest e he
  refine ⟨fun ht hp hc => ?_, fun ht hp hc => ?_⟩
  · rw [step_firstWordP ht hp hc, runWord_of_reject he]
    rfl
  · rw [step_firstWordC ht hp hc, runWord_of_reject he, noteWindow_of_not_quiesce (isQuiesce_of_reject he)]
    rfl

/-! ### A port that is not IDLE (30_encoding.md R92, 10_state.md R26) -/

/-- From `s` to `t` no port takes a command or sends a response. -/
structure SameWords (s t : State) : Prop where
  pCmd : t.pCmd = s.pCmd
  cCmd : t.cCmd = s.cCmd
  pRsp : t.pRsp = s.pRsp
  cRsp : t.cRsp = s.cRsp

theorem sameWords_stepP {s t : State} (hb : s.pPhase = .busy) (h : stepP s = .next t) : SameWords s t := by
  rcases stepP_next h with ⟨hp, -⟩ | ⟨hp, -⟩ | ⟨-, -, rfl⟩ | ⟨-, item, rest, -, h⟩
  · exact nomatch hp.symm.trans hb
  · exact nomatch hp.symm.trans hb
  · constructor <;> rfl
  · rw [(writeBeat_next h).2]
    constructor <;> rfl

theorem sameWords_beatStep {s t : State} (h : beatStep s = .next t) : SameWords s t := by
  rcases beatStep_next h with ⟨-, rfl⟩ | ⟨-, -, item, -, rfl⟩ <;> constructor <;> simp

theorem stepC_compute {s : State} (hp : s.cPhase = .compute) : stepC s = computeStep { s with port := .C } := by
  rw [stepC, hp]

/-- The compute step answers OK on port C. -/
theorem words_computeStep {s t : State} (h : computeStep { s with port := .C } = .next t) :
    t.pCmd = s.pCmd ∧ t.cCmd = s.cCmd ∧ t.pRsp = s.pRsp ∧ t.cRsp = s.cRsp ++ [respWord .ok 0 0] := by
  obtain ⟨-, -, xs, fs, -, -, rfl⟩ := computeStep_next h
  simp

/-- Settles O8, phase by phase. -/
theorem busyPortTakesNoCommand : Obligations.BusyPortTakesNoCommand := by
  intro s t ts h
  refine ⟨fun ht hb => ?_, fun ht hne => ?_⟩
  · rw [step_of_agentP_turn ht] at h
    obtain ⟨hpCmd, hcCmd, hpRsp, hcRsp⟩ := sameWords_stepP (s := { s with turns := ts }) hb h
    exact ⟨hpCmd, hcCmd, hpRsp, hcRsp⟩
  · rw [step_of_agentC_turn ht] at h
    cases hp : s.cPhase with
    | idle => exact absurd hp hne
    | beats =>
      rw [stepC_beats (s := { s with turns := ts }) hp] at h
      obtain ⟨hpCmd, hcCmd, hpRsp, hcRsp⟩ := sameWords_beatStep h
      exact ⟨hcCmd, hpCmd, hpRsp, fun _ => hcRsp, nofun⟩
    | release =>
      rw [stepC_release (s := { s with turns := ts }) hp] at h
      cases h
      exact ⟨rfl, rfl, rfl, fun _ => rfl, nofun⟩
    | compute =>
      rw [stepC_compute (s := { s with turns := ts }) hp] at h
      obtain ⟨hpCmd, hcCmd, hpRsp, hcRsp⟩ := words_computeStep h
      exact ⟨hcCmd, hpCmd, hpRsp, nofun, fun _ => hcRsp⟩

end Sys2Proof.Machine

namespace Sys2Proof.Machine

/-! ### The check step of WRITE (40_ring_buffer.md R125) -/

theorem exec_write_of_lt {s : State} {n : Nat} (hp : s.port = .P) (hn : freeP s < n) :
    exec (.write n) s = .next (respond .fail 0 0 s) := by
  rw [exec, execWrite, onlyOn_self hp, if_pos hn, raise]

@[simp] theorem startWrite_zero (s : State) : startWrite 0 s = s := if_pos rfl

theorem startWrite_of_pos {n : Nat} (hn : 0 < n) (s : State) :
    startWrite n s = { s with pRem := n, pPhase := .busy } := if_neg hn.ne'

/-- Settles O12: the step runs the decoded WRITE, which compares `n` with free_p and, for `n > 0`, starts the beats. -/
theorem writeCheckStep : Obligations.WriteCheckStep := by
  intro n s
  refine ⟨fun ts rest hn ht hp hc => stepRunsDecodedCommandOnP s ts _ rest _ ht hp hc (decode_encode_write hn),
    fun hp => ⟨exec_write_of_lt hp, fun hn h0 => ?_, fun hn h0 => ?_⟩⟩
  · rw [exec_write_of_le hp hn, h0, startWrite_zero]
  · rw [exec_write_of_le hp hn, startWrite_of_pos h0]

/-! ### The beat of WRITE (40_ring_buffer.md R127) -/

theorem writeBeat_of_tail_lt {s : State} (h : s.tail < s.cfg.depth) (item : Item) :
    writeBeat item s = .next (afterBeat item s) := if_pos h

theorem afterBeat_ring (item : Item) (s : State) :
    (afterBeat item s).ring = Memory.write none s.ring s.tail (onWires s.cfg.nCh item) := rfl

/-- Settles O13: the step is `afterBeat`, and its one write to RING is to slot TAIL. -/
theorem writeBeatStep : Obligations.WriteBeatStep := by
  intro s ts item rest ht hp hd htail hwf
  refine ⟨afterBeat item { s with turns := ts, pDat := rest }, ?_, ?_, fun a ha => ?_, ?_, ?_⟩
  · rw [step_of_agentP_turn ht, stepP_busy_cons (s := { s with turns := ts }) hp hd]
    exact writeBeat_of_tail_lt (s := { s with turns := ts, pDat := rest }) htail item
  · rw [afterBeat_ring, Memory.read_write_same _ _ hwf]
  · rw [afterBeat_ring, Memory.read_write_other _ _ _ ha]
  · rw [afterBeat_ring, Memory.wf_write _ _ hwf]
  · rw [← hp]
    rfl

/-! ### The check step of READ (40_ring_buffer.md R131) -/

theorem exec_read_of_lt_release {s : State} {n c : Nat} (hp : s.port = .C) (hc : n < c) :
    exec (.read n c) s = .next (respond .errOperand 0 0 s) := by
  rw [exec, execRead, onlyOn_self hp, if_pos hc, raise]

theorem exec_read_of_ready_lt {s : State} {n c : Nat} (hp : s.port = .C) (hc : c ≤ n) (hn : readyC s < n) :
    exec (.read n c) s = .next (respond .fail 0 0 s) := by
  rw [exec, execRead, onlyOn_self hp, if_neg (not_lt.2 hc), if_pos hn, raise]

/-- Settles O14: the step runs the decoded READ, which compares `c` with `n`, then `n` with ready_c, and for `n > 0` starts
the transfer to the port. -/
theorem readCheckStep : Obligations.ReadCheckStep := by
  intro n c s
  refine ⟨fun ts rest hn hc ht hp hcmd => ?_, fun hp => ⟨exec_read_of_lt_release hp, exec_read_of_ready_lt hp,
    fun hc hn h0 => ?_, fun hc hn h0 => ?_⟩⟩
  · obtain ⟨hrun, -⟩ := stepRunsDecodedCommandOnC s ts _ rest _ ht hp hcmd (decode_encode_read hn hc)
    exact hrun nofun nofun
  · rw [exec_read_of_le hp hc hn, if_pos h0]
  · rw [exec_read_of_le hp hc hn, if_neg h0.ne', startTransfer]

/-! ### The beat of READ and UPDATE (40_ring_buffer.md R132, 42_spectral_analyzer.md R183) -/

theorem step_beats {s : State} {ts : List Turn} (ht : s.turns = .agentC :: ts) (hp : s.cPhase = .beats) :
    step s = beatStep { s with turns := ts } := by
  rw [step_of_agentC_turn ht, stepC_beats (s := { s with turns := ts }) hp]

theorem beatStep_of_not_enabled {s : State} (h : beatEnabled s = false) : beatStep s = .next s := if_pos h

theorem beatEnabled_toPort {s : State} (hd : s.cDst = .port) : beatEnabled s = s.cDatReady := by
  simp [beatEnabled, hd]

theorem beatEnabled_toAnalyzer {s : State} (hd : s.cDst = .analyzer) : beatEnabled s = true := by
  simp [beatEnabled, hd]

theorem deliver_toPort {s : State} (hd : s.cDst = .port) (item : Item) :
    deliver item s = { s with cDat := s.cDat ++ [item] } := by
  rw [deliver, hd]

theorem deliver_toAnalyzer {s : State} (hd : s.cDst = .analyzer) (item : Item) :
    deliver item s = { s with
      inBuf := Memory.write none s.inBuf s.cOff (channelSum (Config.freeNaN s.draws) s.cfg.nCh item)
      draws := s.draws + 1 } := by
  rw [deliver, hd]

theorem afterTransfer_eq (dst : CDst) : afterTransfer dst = if dst = .analyzer then .compute else .idle := by
  cases dst <;> rfl

/-- Settles O15: HEAD is not written by a beat, and readiness alone decides whether the beat is enabled. -/
theorem beatToPort : Obligations.BeatToPort := by
  intro s ts ht hp hd
  rw [step_beats ht hp]
  refine ⟨fun hready => ?_, fun hready item hread => ?_⟩
  · exact beatStep_of_not_enabled ((beatEnabled_toPort (s := { s with turns := ts }) hd).trans hready)
  · rw [beatStep_of_ringRead (s := { s with turns := ts }) ((beatEnabled_toPort hd).trans hready)
      (fun han => nomatch hd.symm.trans han) hread, deliver_toPort (s := { s with turns := ts }) hd]
    simp [advanceBeat, afterTransfer_eq, hd, hp]

theorem channelSum_one (nan : Config.DrawSite → BitVec 24) (item : Item) : channelSum nan 1 item = sample item 0 := rfl

/-- Each further channel costs one more addition, to the sum so far (R183). -/
theorem channelSum_succ (nan : Config.DrawSite → BitVec 24) {c : Nat} (hc : 1 ≤ c) (item : Item) :
    channelSum nan (c + 1) item = fadd (nan (.channel c)) (channelSum nan c item) (sample item c) := by
  obtain ⟨m, rfl⟩ : ∃ m, c = m + 1 := ⟨c - 1, by omega⟩
  simp only [channelSum, Nat.add_sub_cancel, List.range_succ, List.foldl_append, List.foldl_cons, List.foldl_nil]

/-- Settles O16: the beat's one write to IN is the channel sum at C_OFF. -/
theorem beatToAnalyzer : Obligations.BeatToAnalyzer := by
  intro s ts item ht hp hd hoff hread hwf
  obtain ⟨m, hm⟩ : ∃ m, m = Memory.write none s.inBuf s.cOff (channelSum (Config.freeNaN s.draws) s.cfg.nCh item) :=
    ⟨_, rfl⟩
  have hsum : Memory.read none m s.cOff = some (channelSum (Config.freeNaN s.draws) s.cfg.nCh item) := by
    rw [hm, Memory.read_write_same _ _ hwf]
  refine ⟨advanceBeat { s with turns := ts, inBuf := m, draws := s.draws + 1 }, ?_, fun h1 => hsum.trans ?_,
    fun h2 => hsum.trans ?_, hsum, fun c hc => channelSum_succ _ hc item, fun a ha => ?_, ?_⟩
  · rw [step_beats ht hp, beatStep_of_ringRead (s := { s with turns := ts }) (beatEnabled_toAnalyzer hd)
      (fun _ => hoff) hread, deliver_toAnalyzer (s := { s with turns := ts }) hd, hm]
  · rw [h1, channelSum_one, sample]
  · rw [h2, channelSum_succ _ le_rfl, channelSum_one, sample, sample]
  · rw [advanceBeat_inBuf, hm, Memory.read_write_other _ _ _ ha]
  · simp [advanceBeat, afterTransfer_eq, hd, hp]

/-! ### The release step (40_ring_buffer.md R133) -/

/-- Settles O17. -/
theorem releaseMovesHead : Obligations.ReleaseMovesHead := by
  intro s ts ht hp
  rw [step_release ht hp, releaseStep, afterTransfer_eq, ← hp]

/-! ### NREADY and FREESP (40_ring_buffer.md R121, R137, R138) -/

theorem exec_nready_onP {s : State} (hp : s.port = .P) :
    exec .nready s = .next (respond .ok 0 (BitVec.ofNat 32 (occP s)) s) := by
  rw [exec, execNready, hp]

theorem exec_nready_onC {s : State} (hp : s.port = .C) :
    exec .nready s = .next (respond .ok 0 (BitVec.ofNat 32 (readyC s)) s) := by
  rw [exec, execNready, hp]

theorem exec_freesp_onP {s : State} (hp : s.port = .P) :
    exec .freesp s = .next (respond .ok 0 (BitVec.ofNat 32 (freeP s)) s) := by
  rw [exec, execFreesp, hp]

theorem exec_freesp_onC {s : State} (hp : s.port = .C) :
    exec .freesp s = .next (respond .ok 0 (BitVec.ofNat 32 (freeC s)) s) := by
  rw [exec, execFreesp, hp]

/-- Settles O18: the counts are those of R121. -/
theorem nreadyAnswersCount : Obligations.NreadyAnswersCount := fun _ => ⟨exec_nready_onP, exec_nready_onC⟩

/-- Settles O19: the counts are those of R121. -/
theorem freespAnswersSpace : Obligations.FreespAnswersSpace := fun _ => ⟨exec_freesp_onP, exec_freesp_onC⟩

/-- Of `C` slots with fewer than `C` used, one is reserved and the rest are free. -/
theorem reserve_one_slot {C k : Nat} (hk : k < C) :
    k ≤ C - 1 ∧ ((C - k - 1 : Nat) : Int) = C - k - 1 ∧ C - k - 1 ≤ C - 1 := by
  omega

/-- Settles O20: a count is a residue mod C, so below C. -/
theorem countsReserveOneSlot : Obligations.CountsReserveOneSlot := fun _ hC =>
  ⟨⟨cast_modC hC _, reserve_one_slot (modC_lt hC _)⟩, ⟨cast_modC hC _, reserve_one_slot (modC_lt hC _)⟩⟩

theorem depth_lt_of_wf {p : Config.Params} (h : p.wf = true) : p.depth < 2 ^ 24 := by
  simp only [Config.Params.wf, Bool.and_eq_true, decide_eq_true_eq] at h
  omega

/-- A count of free slots fits the response field d0. -/
theorem RingInv.freeP_lt {s : State} (h : RingInv s) : freeP s < 2 ^ 32 :=
  calc freeP s ≤ s.capacity := (Nat.sub_le _ _).trans (Nat.sub_le _ _)
    _ ≤ s.cfg.depth := h.cap_le_depth
    _ < 2 ^ 32 := (depth_lt_of_wf h.cfg_wf).trans (by decide)

/-- Settles O21: d0 is free_p itself, no bit of it is lost, and free_p is the bound of the WRITE check. -/
theorem freespDecidesNextWrite : Obligations.FreespDecidesNextWrite := by
  intro s h hp
  refine ⟨BitVec.ofNat 32 (freeP s), exec_freesp_onP hp, fun n => ?_⟩
  rw [BitVec.toNat_ofNat, Nat.mod_eq_of_lt h.ring.freeP_lt]
  exact ⟨exec_write_of_lt hp, fun hn => ⟨_, exec_write_of_le hp hn, by simp [hp]⟩⟩

/-! ### RESET and SETSIZE (40_ring_buffer.md R140 to R142) -/

theorem exec_reset_of_idle {s : State} (hp : s.port = .C) (hi : s.pPhase = .idle) :
    exec .reset s = .next (respond .ok 0 0 (clearPointers s)) := by
  rw [exec, execReset, onlyOn_self hp, if_neg (not_not.2 hi)]

theorem exec_reset_of_not_idle {s : State} (hp : s.port = .C) (hi : s.pPhase ≠ .idle) :
    exec .reset s = .fault .resetWhileProducerActive := by
  rw [exec, execReset, onlyOn_self hp, if_pos hi]

/-- Settles O22: with the producer IDLE the one change is `clearPointers`. -/
theorem resetClearsPointers : Obligations.ResetClearsPointers := fun _ hp =>
  ⟨exec_reset_of_idle hp, fun hb => exec_reset_of_not_idle hp (by simp [hb])⟩

theorem exec_setsize_of_illegal {s : State} {cap : Nat} (hp : s.port = .C) (hl : legalCapacity s.cfg.depth cap = false) :
    exec (.setsize cap) s = .next (respond .errCfg 0 0 s) := by
  rw [exec, execSetsize, onlyOn_self hp, if_pos hl, raise]

theorem exec_setsize_of_not_idle {s : State} {cap : Nat} (hp : s.port = .C)
    (hl : legalCapacity s.cfg.depth cap = true) (hi : s.pPhase ≠ .idle) :
    exec (.setsize cap) s = .fault .resizeWhileProducerActive := by
  rw [exec, execSetsize, onlyOn_self hp, if_neg (by simp [hl]), if_pos hi]

theorem exec_setsize_of_idle {s : State} {cap : Nat} (hp : s.port = .C) (hl : legalCapacity s.cfg.depth cap = true)
    (hi : s.pPhase = .idle) :
    exec (.setsize cap) s = .next (respond .ok 0 0 (clearPointers { s with capacity := cap })) := by
  rw [exec, execSetsize, onlyOn_self hp, if_neg (by simp [hl]), if_neg (not_not.2 hi)]

theorem legalCapacity_eq_false_iff (depth cap : Nat) :
    legalCapacity depth cap = false ↔ cap < 2 ∨ cap % 2 = 1 ∨ depth < cap := by
  rw [← Bool.not_eq_true, legalCapacity_iff]
  omega

/-- Settles O23: the capacity is tested first, then the phase, and the one change is `clearPointers` under the new capacity. -/
theorem setsizeResizes : Obligations.SetsizeResizes := by
  intro s cap hp
  refine ⟨fun hbad => exec_setsize_of_illegal hp ((legalCapacity_eq_false_iff _ _).2 hbad),
    fun h2 heven hle hb => ?_, fun h2 heven hle hi => ?_⟩
  · exact exec_setsize_of_not_idle hp ((legalCapacity_iff _ _).2 ⟨heven, h2, hle⟩) (by simp [hb])
  · exact exec_setsize_of_idle hp ((legalCapacity_iff _ _).2 ⟨heven, h2, hle⟩) hi

end Sys2Proof.Machine

namespace Sys2Proof.Machine

/-! ### The register map (10_state.md R28) -/

/-- The address column of R28. -/
def Csr.addr : Csr → BitVec 12
  | .capacity => 0x000
  | .status => 0x001
  | .pDepth => 0x002
  | .pFft => 0x003
  | .pNch => 0x004
  | .pK => 0x005
  | .pResmax => 0x006
  | .version => 0x007
  | .res => 0x010
  | .fmin => 0x011
  | .fmax => 0x012
  | .dist => 0x013
  | .srate => 0x014
  | .interp => 0x015
  | .rngMin => 0x020
  | .rngMax => 0x021
  | .avgPtr => 0x022
  | .aRes => 0x023

@[simp] theorem Csr.ofAddr_addr (r : Csr) : Csr.ofAddr r.addr = some r := by
  cases r <;> rfl

/-- No register stands at two addresses. -/
theorem Csr.eq_addr_of_ofAddr {a : BitVec 12} {r : Csr} (h : Csr.ofAddr a = some r) : a = r.addr := by
  unfold Csr.ofAddr at h
  split at h <;> cases h <;> exact BitVec.eq_of_toNat_eq ‹_›

/-- An address is populated by a register that stands there, or by none. -/
theorem Csr.ofAddr_eq_none_iff {a : BitVec 12} : Csr.ofAddr a = none ↔ ∀ r : Csr, a ≠ r.addr := by
  refine ⟨fun h r ha => ?_, fun h => Option.eq_none_iff_forall_ne_some.2 fun r hr => h r (Csr.eq_addr_of_ofAddr hr)⟩
  rw [ha, Csr.ofAddr_addr] at h
  cases h

/-! ### RDCSR (41_csr_and_config.md R160) -/

theorem exec_rdcsr_addr {s : State} (hp : s.port = .C) (r : Csr) :
    exec (.rdcsr r.addr) s = .next (respond .ok 0 (csrRead s r) s) := by
  rw [exec, execRdcsr, onlyOn_self hp, Csr.ofAddr_addr]

theorem exec_rdcsr_of_unpopulated {s : State} {a : BitVec 12} (hp : s.port = .C) (h : ∀ r : Csr, a ≠ r.addr) :
    exec (.rdcsr a) s = .next (respond .errOperand 0 0 s) := by
  rw [exec, execRdcsr, onlyOn_self hp, Csr.ofAddr_eq_none_iff.2 h, raise]

theorem statusWord_bits (s : State) :
    (statusWord s).getLsbD 0 = s.axisValid ∧ (statusWord s).getLsbD 1 = s.dataValid ∧ (statusWord s).toNat < 4 := by
  unfold statusWord
  cases s.axisValid <;> cases s.dataValid <;> decide

/-- Settles O41: every populated address is some register's, and RDCSR answers what that register reads as. -/
theorem rdcsrReadsRegisterMap : Obligations.RdcsrReadsRegisterMap := by
  intro s hp
  have read := exec_rdcsr_addr hp
  refine ⟨read .capacity, ⟨statusWord s, read .status, statusWord_bits s⟩, read .pDepth, read .pFft, read .pNch, read .pK,
    read .pResmax, read .version, read .res, read .fmin, read .fmax, read .dist, read .srate, read .interp, read .rngMin,
    read .rngMax, read .avgPtr, read .aRes, fun a ha => exec_rdcsr_of_unpopulated hp fun r hr => ha ?_⟩
  subst hr
  cases r <;> decide

/-! ### WRCSR (41_csr_and_config.md R161, R166) -/

theorem exec_wrcsr_of_writable {s : State} {r : Csr} {v : Word} (hp : s.port = .C) (hw : r.writable = true)
    (hv : r.reserved v = false) : exec (.wrcsr r.addr v) s = .next (respond .ok 0 0 (csrWrite s v r)) := by
  simp [exec, execWrcsr, onlyOn_self hp, hw, hv]

theorem exec_wrcsr_of_reserved {s : State} {r : Csr} {v : Word} (hp : s.port = .C) (hw : r.writable = true)
    (hv : r.reserved v = true) : exec (.wrcsr r.addr v) s = .next (respond .errCfg 0 0 s) := by
  simp [exec, execWrcsr, onlyOn_self hp, hw, hv, raise]

/-- Unpopulated addresses and read-only registers are refused alike. -/
theorem exec_wrcsr_of_no_writable {s : State} {a : BitVec 12} (hp : s.port = .C)
    (h : ∀ r : Csr, r.writable = true → a ≠ r.addr) (v : Word) :
    exec (.wrcsr a v) s = .next (respond .errOperand 0 0 s) := by
  rw [exec, execWrcsr, onlyOn_self hp]
  cases ha : Csr.ofAddr a with
  | none => rfl
  | some r =>
    have hw : r.writable = false := Bool.eq_false_iff.2 fun hw => h r hw (Csr.eq_addr_of_ofAddr ha)
    exact if_pos hw

/-- Settles O42: only the two mode registers have reserved values, those above 1. -/
theorem wrcsrStoresOrRefuses : Obligations.WrcsrStoresOrRefuses := by
  intro s v hp
  have store (r : Csr) := exec_wrcsr_of_writable (r := r) (v := v) hp
  have refuse (r : Csr) := exec_wrcsr_of_reserved (r := r) (v := v) hp
  refine ⟨store .res rfl rfl, store .fmin rfl rfl, store .fmax rfl rfl, store .srate rfl rfl,
    fun hv => store .dist rfl (decide_eq_false (not_lt.2 hv)), fun hv => store .interp rfl (decide_eq_false (not_lt.2 hv)),
    fun hv => ⟨refuse .dist rfl (decide_eq_true hv), refuse .interp rfl (decide_eq_true hv)⟩,
    fun a ha => exec_wrcsr_of_no_writable hp (fun r hw hr => ha ?_) v⟩
  subst hr
  revert hw
  cases r <;> decide

/-! ### AXBUILD (41_csr_and_config.md R163) -/

theorem axisAccepted_iff {resMax : Nat} {r lo hi d sr : Word} :
    axisAccepted resMax r lo hi d sr = true ↔
      2 ≤ r.toNat ∧ r.toNat ≤ resMax ∧ isFinite lo = true ∧ isFinite hi = true ∧ isFinite sr = true ∧
      fgt sr 0 = true ∧ flt lo hi = true ∧ (d = 1 → fgt lo 0 = true) ∧ (d = 0 → flt lo 0 = false) := by
  simp [axisAccepted, and_assoc, imp_iff_not_or]

theorem exec_axbuild_of_accepted {s : State} (hp : s.port = .C)
    (ha : axisAccepted s.cfg.resMax s.res s.fmin s.fmax s.dist s.srate = true) :
    exec .axbuild s = .next (respond .ok 0 s.res (buildAxis s)) := by
  rw [exec, execAxbuild, onlyOn_self hp, if_neg (by simp [ha])]

theorem exec_axbuild_of_not_accepted {s : State} (hp : s.port = .C)
    (ha : axisAccepted s.cfg.resMax s.res s.fmin s.fmax s.dist s.srate = false) :
    exec .axbuild s = .next (respond .errCfg 0 0 s) := by
  rw [exec, execAxbuild, onlyOn_self hp, if_pos ha, raise]

/-- Settles O43: each disjunct contradicts one test of `axisAccepted`. -/
theorem axbuildRefusesBadConfiguration : Obligations.AxbuildRefusesBadConfiguration := by
  intro s hp hbad
  refine exec_axbuild_of_not_accepted hp (Bool.eq_false_iff.2 fun ha => ?_)
  obtain ⟨hmin, hmax, hlo, hhi, hsr, hpos, hlt, hlog, hlin⟩ := axisAccepted_iff.1 ha
  rcases hbad with h | h | h | h | h | h | h | ⟨hd, h⟩ | ⟨hd, h⟩
  · omega
  · omega
  · exact Bool.false_ne_true (h.symm.trans hlo)
  · exact Bool.false_ne_true (h.symm.trans hhi)
  · exact Bool.false_ne_true (h.symm.trans hsr)
  · exact Bool.false_ne_true (h.symm.trans hpos)
  · exact Bool.false_ne_true (h.symm.trans hlt)
  · exact Bool.false_ne_true (h.symm.trans (hlog hd))
  · exact Bool.false_ne_true ((hlin hd).symm.trans h)

/-- AXIS after an accepted AXBUILD: computed entries below the resolution, the old ones from there on. -/
theorem read_buildAxis_axis {s : State} (hwf : Memory.wf none s.axis = true) (i : Nat) :
    Memory.read none (buildAxis s).axis i = if i < s.res.toNat then
      some (axisEntry (Config.freeNaN s.draws) s.res.toNat s.fmin s.fmax s.dist i) else Memory.read none s.axis i := by
  rw [buildAxis_axis, Memory.read_writeFrom _ 0 i hwf, axisEntries]
  by_cases hi : i < s.res.toNat <;> simp [hi]

/-- Settles O44: the state change is `buildAxis`, and its one write to AXIS is the run of the first RES entries. -/
theorem axbuildCommitsConfiguration : Obligations.AxbuildCommitsConfiguration := by
  intro s hp hwf hmin hmax hlo hhi hsr hpos hlt hlog hlin
  have ha := axisAccepted_iff.2 ⟨hmin, hmax, hlo, hhi, hsr, hpos, hlt, hlog, hlin⟩
  refine ⟨_, exec_axbuild_of_accepted hp ha, fun i hi => ?_, fun i hi => ?_, fun i => rfl, ?_⟩
  · rw [respond_axis, read_buildAxis_axis hwf, if_pos hi]
    rfl
  · rw [respond_axis, read_buildAxis_axis hwf, if_neg (not_lt.2 hi)]
  · simp [respond, buildAxis, flagAxisBuilt, hp]

end Sys2Proof.Machine

namespace Sys2Proof.Machine

/-! ### Exact results (00_scope.md R9) -/

/-- A finite value lies below the overflow threshold. -/
theorem abs_valueOf_lt {w : Word} (h : isFinite w = true) : |(valueOf w : ℝ)| < (2 ^ 25 - 1) * 2 ^ 103 := by
  obtain ⟨m, e, -, hmag, hm, he⟩ := unpack_of_isFinite h
  have hle : magnitudeOf w ≤ 16777215 * 2 ^ 253 :=
    hmag ▸ Nat.mul_le_mul (Nat.le_of_lt_succ hm) (Nat.pow_le_pow_right (by decide) he)
  have hle' : (magnitudeOf w : ℝ) ≤ 16777215 * 2 ^ 253 := by exact_mod_cast hle
  rw [valueOf_eq, abs_div, abs_mul, abs_signFactor, one_mul, Nat.abs_cast, abs_of_pos (by positivity),
    div_lt_iff₀ (by positivity)]
  exact hle'.trans_lt (by norm_num)

/-- A value that is a pattern's own, with that pattern's sign, rounds to that pattern. -/
theorem RoundsTo.eq_of_valueOf_eq {s : Bool} {x : ℝ} {v w : Word} (h : RoundsTo s x w) (hv : isFinite v = true)
    (hs : f32Sign v = s) (hx : (valueOf v : ℝ) = x) : w = v := by
  obtain ⟨hsign, hnear, -⟩ := h
  subst hx
  obtain ⟨hw, hmin⟩ := hnear (abs_valueOf_lt hv)
  obtain ⟨hle, -⟩ := hmin v hv
  rw [sub_self, abs_zero] at hle
  have hval : (valueOf v : ℝ) = valueOf w := sub_eq_zero.1 (abs_nonpos_iff.1 hle)
  exact Machine.eq_of_valueOf_eq hw hv (hsign.trans hs.symm) (by exact_mod_cast hval.symm)

/-- A value of no larger magnitude than a finite one rounds to a finite pattern. -/
theorem RoundsTo.isFinite_of_abs_le {s : Bool} {x : ℝ} {v w : Word} (h : RoundsTo s x w) (hv : isFinite v = true)
    (hx : |x| ≤ |(valueOf v : ℝ)|) : isFinite w = true := by
  obtain ⟨-, hnear, -⟩ := h
  exact (hnear (hx.trans_lt (abs_valueOf_lt hv))).1

/-! ### Zero and one as operands -/

theorem valueOf_zero : valueOf 0#32 = 0 := by decide +kernel

theorem valueOf_one : valueOf f32One = 1 := by decide +kernel

theorem fmul_zero_left (q : BitVec 24) {a : Word} (ha : isFinite a = true) (hs : f32Sign a = false) :
    fmul q 0#32 a = 0#32 :=
  (fmul_roundsTo q (by decide) ha).eq_of_valueOf_eq (by decide) (by rw [hs]; decide) (by simp [valueOf_zero])

theorem fmul_one_left (q : BitVec 24) {a : Word} (ha : isFinite a = true) : fmul q f32One a = a :=
  (fmul_roundsTo q (by decide) ha).eq_of_valueOf_eq ha (Bool.false_xor _).symm (by simp [valueOf_one])

theorem fdiv_zero_left (q : BitVec 24) {a : Word} (ha : isFinite a = true) (hs : f32Sign a = false)
    (h0 : (valueOf a : ℝ) ≠ 0) : fdiv q 0#32 a = 0#32 :=
  (fdiv_roundsTo q (by decide) ha h0).eq_of_valueOf_eq (by decide) (by rw [hs]; decide) (by simp [valueOf_zero])

theorem fdiv_self (q : BitVec 24) {a : Word} (ha : isFinite a = true) (h0 : (valueOf a : ℝ) ≠ 0) :
    fdiv q a a = f32One :=
  (fdiv_roundsTo q ha ha h0).eq_of_valueOf_eq (by decide) (Bool.xor_self _).symm
    (by rw [div_self h0, valueOf_one, Rat.cast_one])

/-- The one pattern with a set sign whose value is not negative is −0.0. -/
theorem eq_negZero_of_f32Sign {w : Word} (hw : isFinite w = true) (h0 : 0 ≤ valueOf w) (hs : f32Sign w = true) :
    w = 0x80000000#32 := by
  have hle : valueOf w ≤ 0 := by
    rw [valueOf, if_pos hs, neg_one_mul]
    exact div_nonpos_of_nonpos_of_nonneg (neg_nonpos.2 (Nat.cast_nonneg _)) (by positivity)
  refine eq_of_valueOf_eq hw (by decide) (hs.trans (by decide)) ((le_antisymm hle h0).trans ?_)
  decide +kernel

/-- Adding +0.0 changes no value that is not negative, and turns −0.0 into +0.0. -/
theorem fadd_zero_right (q : BitVec 24) {a : Word} (ha : isFinite a = true) (h0 : 0 ≤ valueOf a) :
    fadd q a 0#32 = if a = 0x80000000#32 then 0#32 else a := by
  split_ifs with hz
  · rw [hz]
    rfl
  · have hs : f32Sign a = false := Bool.eq_false_iff.2 fun hs => hz (eq_negZero_of_f32Sign ha h0 hs)
    refine (fadd_roundsTo q ha (by decide)).eq_of_valueOf_eq ha ?_ (by simp [valueOf_zero])
    simp [hs, valueOf_zero, h0]

/-- The difference of two values that are not negative is finite, since it is no larger than the first. -/
theorem fsub_isFinite_and_sign (q : BitVec 24) {lo hi : Word} (hlo : isFinite lo = true) (hhi : isFinite hi = true)
    (h0 : 0 ≤ valueOf lo) (hlt : valueOf lo < valueOf hi) :
    isFinite (fsub q hi lo) = true ∧ f32Sign (fsub q hi lo) = false := by
  have hround := fsub_roundsTo q hhi hlo
  have h0' : (0 : ℝ) ≤ valueOf lo := by exact_mod_cast h0
  have hlt' : (valueOf lo : ℝ) < valueOf hi := by exact_mod_cast hlt
  refine ⟨hround.isFinite_of_abs_le hhi ?_, hround.1.trans ?_⟩
  · rw [abs_of_pos (sub_pos.2 hlt'), abs_of_pos (h0'.trans_lt hlt')]
    exact sub_le_self _ h0'
  · rw [if_neg (sub_pos.2 hlt).ne']
    exact decide_eq_false (sub_pos.2 hlt).le.not_gt

/-! ### The ends of a linear axis (41_csr_and_config.md R165) -/

theorem axisEntry_linear (nan : Config.DrawSite → BitVec 24) (r : Nat) (lo hi : Word) (i : Nat) :
    axisEntry nan r lo hi 0 i =
      fadd (nan (.axis i 3)) lo (fmul (nan (.axis i 2)) (fdiv (nan (.axis i 0)) (i2f i) (i2f (r - 1)))
        (fsub (nan (.axis i 1)) hi lo)) := by
  rw [axisEntry]
  exact if_pos rfl

/-- Settles O45: the quotient is exactly 0 at the first entry and 1 at the last, and the product with it is exact. -/
theorem linearAxisEndpoints : Obligations.LinearAxisEndpoints := by
  intro nan r lo hi hr2 hr hlo hhi hlt hlo0
  have h0 : 0 ≤ valueOf lo := by
    have h := (flt_iff hlo (show isFinite 0#32 = true by decide)).not.1 (Bool.eq_false_iff.1 hlo0)
    rw [valueOf_zero] at h
    exact_mod_cast not_lt.1 h
  have hlt' : valueOf lo < valueOf hi := by exact_mod_cast (flt_iff hlo hhi).1 hlt
  obtain ⟨hnfin, hnsign, hnval⟩ := i2f_exact (i := r - 1) (by omega)
  have hn0 : (valueOf (i2f (r - 1)) : ℝ) ≠ 0 := by
    rw [hnval, Rat.cast_natCast, Nat.cast_ne_zero]
    omega
  have hdiff (q : BitVec 24) := fsub_isFinite_and_sign q hlo hhi h0 hlt'
  constructor
  · obtain ⟨hdfin, hdsign⟩ := hdiff (nan (.axis 0 1))
    rw [axisEntry_linear, show i2f 0 = 0#32 from rfl, fdiv_zero_left _ hnfin hnsign hn0, fmul_zero_left _ hdfin hdsign,
      fadd_zero_right _ hlo h0]
  · obtain ⟨hdfin, -⟩ := hdiff (nan (.axis (r - 1) 1))
    rw [axisEntry_linear, fdiv_self _ hnfin hn0, fmul_one_left _ hdfin]

end Sys2Proof.Machine

namespace Sys2Proof.Machine

/-! ### The check step of UPDATE (42_spectral_analyzer.md R182) -/

theorem exec_update_of_no_axis {s : State} (hp : s.port = .C) (ha : s.axisValid = false) :
    exec .update s = .next (respond .errState 0 0 s) := by
  rw [exec, execUpdate, onlyOn_self hp, if_pos ha, raise]

theorem exec_update_of_ready_lt {s : State} (hp : s.port = .C) (ha : s.axisValid = true)
    (hr : readyC s < s.cfg.fftSize) : exec .update s = .next (respond .fail 0 0 s) := by
  rw [exec, execUpdate, onlyOn_self hp, if_neg (by simp [ha]), if_pos hr, raise]

theorem exec_update_of_le {s : State} (hp : s.port = .C) (ha : s.axisValid = true) (hr : s.cfg.fftSize ≤ readyC s) :
    exec .update s = .next (startTransfer .analyzer s.cfg.fftSize (s.cfg.fftSize - s.cfg.keep) s) := by
  rw [exec, execUpdate, onlyOn_self hp, if_neg (by simp [ha]), if_neg (not_lt.2 hr)]

/-- Settles O46: the axis is tested first, then ready_c, and the one change is `startTransfer` with KEEP half the block. -/
theorem updateCheckStep : Obligations.UpdateCheckStep := fun _ hp =>
  ⟨exec_update_of_no_axis hp, exec_update_of_ready_lt hp, exec_update_of_le hp⟩

/-! ### The compute step (42_spectral_analyzer.md R199) -/

/-- In phase COMPUTE every input sample and every axis entry has a value, so the step computes a tick and answers OK. -/
theorem step_compute {s : State} (h : Inv s) {ts : List Turn} (ht : s.turns = .agentC :: ts) (hp : s.cPhase = .compute) :
    ∃ xs fs, Memory.readFirst none s.inBuf s.cfg.fftSize = some xs ∧
      Memory.readFirst none s.axis s.aRes.toNat = some fs ∧
      step s = .next (respond .ok 0 0 (applyTick (tick s xs fs) { s with turns := ts, port := .C })) := by
  have hne : s.cPhase ≠ .idle := by simp [hp]
  have hd : s.cDst = .analyzer := h.transfer.compute hp
  obtain ⟨-, haxis⟩ := h.store.axis_written (h.transfer.axis_valid hne hd)
  obtain ⟨xs, hxs⟩ := Memory.readFirst_isSome fun j hj => h.transfer.input hne hd j hj (by simp [hp])
  obtain ⟨fs, hfs⟩ := Memory.readFirst_isSome haxis
  refine ⟨xs, fs, hxs, hfs, ?_⟩
  rw [step_of_agentC_turn ht, stepC_compute (s := { s with turns := ts }) hp, computeStep,
    if_neg (not_le.2 h.store.avgptr_lt), if_neg (not_lt.2 h.store.ares_le)]
  simp only [hxs, hfs]
  rfl

theorem windowed_getElem? (nan : Config.DrawSite → BitVec 24) (p : Config.Params) (xs : List Word) {j : Nat}
    (hj : j < p.fftSize) : (windowed nan p xs)[j]? = some (fmul (nan (.window j)) (el xs j) (p.window j)) := by
  simp [windowed, hj]

theorem magnitudes_getElem? (nan : Config.DrawSite → BitVec 24) {bins k : Nat} (hk : k < bins) (z : Work) :
    (magnitudes nan bins z)[k]? = some (fsqrt (nan (.magnitude k 3))
      (fadd (nan (.magnitude k 2)) (fmul (nan (.magnitude k 0)) (el z.re k) (el z.re k))
        (fmul (nan (.magnitude k 1)) (el z.im k) (el z.im k)))) := by
  simp [magnitudes, hk]

/-- A space written from index 0 on holds the values written. -/
theorem Memory.read_writeFrom_zero {α : Type} [DecidableEq α] {d : Option α} {m : Memory α} (hm : Memory.wf d m = true)
    (vs : List α) {i : Nat} (hi : i < vs.length) : Memory.read d (Memory.writeFrom d m 0 vs) i = vs[i]? := by
  rw [Memory.read_writeFrom vs 0 i hm, if_pos (by omega), Nat.sub_zero]

/-- A cleared space written from index 0 on keeps what stood behind the values written. -/
theorem Memory.readZ_writeFrom_of_le {m : Memory Word} (hm : Memory.wf zeroed m = true) (vs : List Word) {i : Nat}
    (hi : vs.length ≤ i) : (Memory.writeFrom zeroed m 0 vs).readZ i = m.readZ i :=
  Option.some.inj <| by
    rw [← Memory.readZ_eq, ← Memory.readZ_eq, Memory.read_writeFrom vs 0 i hm, if_neg (by omega)]

/-- Settles O47: the step is `applyTick`, whose runs of writes start at index 0 of spaces in canonical form. -/
theorem computeStepRecordsTick : Obligations.ComputeStepRecordsTick := by
  intro s ts h ht hp
  obtain ⟨xs, fs, hxs, hfs, hstep⟩ := step_compute h ht hp
  obtain ⟨hxlen, hxread⟩ := Memory.readFirst_eq_some hxs
  obtain ⟨hflen, hfread⟩ := Memory.readFirst_eq_some hfs
  obtain ⟨hre, him⟩ := hasSize_fft (Config.freeNaN s.draws) s.cfg.fftSize s.cfg.log2n (tick s xs fs).input
  have hin : (tick s xs fs).input.length = s.cfg.fftSize := by simp [tick, windowed]
  have hmag : (tick s xs fs).mag.length = s.cfg.bins := by simp [tick, magnitudes]
  have hout : (tick s xs fs).pass.out.length = s.aRes.toNat := (interpPass_length ..).trans hflen
  refine ⟨_, xs, fs, hstep, hxlen, hxread, hflen, hfread, hin, fun j hj => windowed_getElem? _ _ _ hj, hmag,
    fun k hk => magnitudes_getElem? _ hk _, fun j hj => ?_, fun j hj => ⟨?_, ?_⟩, fun k hk => ?_, fun x hx => ?_,
    fun x hx => ?_, ?_⟩
  · exact Memory.read_writeFrom_zero h.store.in_wf.1 _ (hj.trans_eq hin.symm)
  · exact Memory.read_writeFrom_zero h.store.re_wf.1 _ (hj.trans_eq hre.symm)
  · exact Memory.read_writeFrom_zero h.store.im_wf.1 _ (hj.trans_eq him.symm)
  · exact Memory.read_writeFrom_zero h.store.mag_wf.1 _ (hk.trans_eq hmag.symm)
  · exact (Memory.readZ_eq ..).symm.trans (Memory.read_writeFrom_zero h.store.out_wf.1 _ (hx.trans_eq hout.symm))
  · exact Memory.readZ_writeFrom_of_le h.store.out_wf.1 _ (hout.trans_le hx)
  · rfl

/-! ### An UPDATE runs to its end (42_spectral_analyzer.md R180 to R182, 70_reset_and_hazards.md R305) -/

/-- The check step of an admitted UPDATE (R182). -/
theorem step_update {s : State} {ts : List Turn} {rest : List CmdWord} (ht : s.turns = .agentC :: ts)
    (hp : s.cPhase = .idle) (hcmd : s.cCmd = encode .update :: rest) (ha : s.axisValid = true)
    (hr : s.cfg.fftSize ≤ readyC s) :
    step s = .next (startTransfer .analyzer s.cfg.fftSize (s.cfg.fftSize - s.cfg.keep)
      { s with turns := ts, port := .C, cCmd := rest }) := by
  have hdec : decode (encode .update) = .ok .update := decodeOfEncode .update rfl
  obtain ⟨hrun, -⟩ := stepRunsDecodedCommandOnC s ts _ rest _ ht hp hcmd hdec
  rw [hrun nofun nofun]
  exact exec_update_of_le (s := { s with turns := ts, port := .C, cCmd := rest }) rfl ha hr

/-- FFT_SIZE is a power of two of at least one bit (00_scope.md R6). -/
theorem fftSize_of_wf {p : Config.Params} (h : p.wf = true) : 2 ^ p.log2n = p.fftSize ∧ 1 ≤ p.log2n := by
  simp only [Config.Params.wf, Bool.and_eq_true, decide_eq_true_eq] at h
  have hpow : 2 ^ p.log2n = p.fftSize := by rw [Config.Params.log2n]; omega
  refine ⟨hpow, Nat.pos_of_ne_zero fun h0 => ?_⟩
  rw [h0] at hpow
  omega

/-- A block is even, so with half of it kept the other half is released. -/
theorem fftSize_sub_keep {p : Config.Params} (h : p.wf = true) : p.fftSize - p.keep = p.fftSize / 2 := by
  obtain ⟨hpow, hpos⟩ := fftSize_of_wf h
  obtain ⟨m, hm⟩ : ∃ m, p.log2n = m + 1 := ⟨p.log2n - 1, by omega⟩
  rw [hm, pow_succ] at hpow
  rw [Config.Params.keep]
  omega

/-- The beats and releases due to the analyzer, then the compute step. -/
theorem runSteps_tick {n c : Nat} {s : State} (h : Inv s) (hp : s.cPhase = .beats) (hd : s.cDst = .analyzer)
    (hrem : s.cRem = n) (hrel : s.cRel = c) {ts : List Turn}
    (ht : s.turns = List.replicate n .agentC ++ (List.replicate c .agentC ++ .agentC :: ts)) :
    ∃ inBuf draws u xs fs, u = afterWholeTransfer n c inBuf s.cDat draws (.agentC :: ts) s ∧
      runSteps (n + c + 1) s = .next (respond .ok 0 0 (applyTick (tick u xs fs) { u with turns := ts, port := .C })) ∧
      held u = (held s).drop c := by
  obtain ⟨inBuf, cDat, draws, hrun, hheld, -, hcDat⟩ := runSteps_transfer h hp hrem hrel (beatEnabled_toAnalyzer hd) ht
  obtain rfl := hcDat hd
  have hphase : (afterWholeTransfer n c inBuf s.cDat draws (.agentC :: ts) s).cPhase = .compute :=
    congrArg afterTransfer hd
  generalize hu : afterWholeTransfer n c inBuf s.cDat draws (.agentC :: ts) s = u at hrun hheld hphase
  obtain ⟨xs, fs, -, -, hstep⟩ := step_compute (inv_runSteps h hrun) (ts := ts) (by rw [← hu]; rfl) hphase
  exact ⟨inBuf, draws, u, xs, fs, hu.symm, (runSteps_add hrun 1).trans (runSteps_succ hstep 0), hheld⟩

/-- Settles O38: the check step, the beats and releases it admitted, and the compute step. -/
theorem updateRunsToCompletion : Obligations.UpdateRunsToCompletion := by
  intro s ts rest h hp hcmd ha hready ht
  have hhalf := fftSize_sub_keep h.ring.cfg_wf
  generalize hn : s.cfg.fftSize = n at hready ht hhalf ⊢
  generalize hc : n - s.cfg.keep = c at ht hhalf ⊢
  have ht' : s.turns = .agentC :: (List.replicate n .agentC ++ (List.replicate c .agentC ++ .agentC :: ts)) := by
    rw [ht, show 1 + n + c + 1 = (n + (c + 1)) + 1 by omega, List.replicate_succ, ← List.replicate_append_replicate,
      List.replicate_succ']
    simp
  have hstep := step_update ht' hp hcmd ha (hn.trans_le hready)
  rw [hn, hc] at hstep
  have hinv := stepKeepsInvariant _ _ h hstep
  obtain ⟨inBuf, draws, u, xs, fs, hu, hrun, hheld⟩ := runSteps_tick hinv rfl rfl rfl rfl rfl
  rw [show 1 + n + c + 1 = n + c + 1 + 1 by omega]
  refine ⟨_, (runSteps_succ hstep _).trans hrun, rfl, rfl, rfl, ?_⟩
  rw [← hhalf, held_respond]
  refine ⟨?_, ?_, rfl, ?_, ?_, ?_, hheld, ?_⟩
  all_goals simp [hu, afterWholeTransfer, afterReleases, afterReadBeats, nextAvgPtr, ha]

end Sys2Proof.Machine

namespace Sys2Proof.Machine

/-! ### Folds whose items do not meddle with each other -/

/-- What no item of a fold changes is as it was before the fold. -/
theorem foldl_obs_eq {σ ι β : Type} {f : σ → ι → σ} {obs : σ → β} {l : List ι}
    (h : ∀ z, ∀ k ∈ l, obs (f z k) = obs z) (z₀ : σ) : obs (l.foldl f z₀) = obs z₀ :=
  List.foldlRecOn (motive := fun z => obs z = obs z₀) l f rfl fun z hz k hk => (h z k hk).trans hz

/-- Where of all items only `i` changes what is observed, the fold shows what `i` makes of a state that looks like the first
one. -/
theorem foldl_at {σ ι β : Type} {f : σ → ι → σ} (obs : σ → β) {P : σ → Prop} {l : List ι} {i : ι} {z₀ : σ}
    (hP : ∀ z k, P z → P (f z k)) (hother : ∀ z, ∀ k ∈ l, k ≠ i → obs (f z k) = obs z) (hl : l.Nodup) (hi : i ∈ l)
    (h0 : P z₀) : ∃ z, P z ∧ obs z = obs z₀ ∧ obs (l.foldl f z₀) = obs (f z i) := by
  obtain ⟨l₁, l₂, rfl⟩ := List.append_of_mem hi
  obtain ⟨hnot, -⟩ := List.nodup_cons.1 (List.nodup_middle.1 hl)
  refine ⟨l₁.foldl f z₀, List.foldlRecOn l₁ f h0 fun z hz k _ => hP z k hz, foldl_obs_eq (fun z k hk => ?_) z₀, ?_⟩
  · exact hother z k (by simp [hk]) fun h => hnot (by simp [← h, hk])
  · rw [List.foldl_append, List.foldl_cons]
    exact foldl_obs_eq (fun z k hk => hother z k (by simp [hk]) fun h => hnot (by simp [← h, hk])) _

/-! ### The butterfly (42_spectral_analyzer.md R190) -/

theorem el_set_ne {i k : Nat} (h : i ≠ k) (xs : List Word) (v : Word) : el (xs.set i v) k = el xs k := by
  simp [el, h]

/-- Element `i` of both work arrays. -/
def Work.entry (i : Nat) (z : Work) : Option Word × Option Word := (z.re[i]?, z.im[i]?)

theorem butterfly_entry_other {a b i : Nat} (ha : i ≠ a) (hb : i ≠ b) (nan : Nat → BitVec 24) (wr wi : Word) (z : Work) :
    (butterfly nan wr wi a b z).entry i = z.entry i := by
  simp [butterfly, Work.entry, ha.symm, hb.symm]

theorem fourValues_butterfly {a b : Nat} (hab : a ≠ b) {z : Work} (hre : max a b < z.re.length)
    (him : max a b < z.im.length) (nan : Nat → BitVec 24) (wr wi : Word) :
    FourValues nan wr wi a b z (butterfly nan wr wi a b z) := by
  rw [max_lt_iff] at hre him
  simp [FourValues, butterfly, el, hab, hre, him]

/-- The four values are read from, and left in, the two elements of the pair alone. -/
theorem fourValues_congr {q : Nat → BitVec 24} {wr wi : Word} {a b : Nat} {z₁ z₂ z₁' z₂' : Work}
    (ha : z₁.entry a = z₂.entry a) (hb : z₁.entry b = z₂.entry b) (ha' : z₁'.entry a = z₂'.entry a)
    (hb' : z₁'.entry b = z₂'.entry b) : FourValues q wr wi a b z₁ z₁' ↔ FourValues q wr wi a b z₂ z₂' := by
  simp only [Work.entry, Prod.mk.injEq] at ha hb ha' hb'
  simp only [FourValues, List.getD_eq_getElem?_getD, ha, hb, ha', hb']

/-- Writes to four different elements, the pairs in either order. -/
theorem set_pairs_comm {a b c d : Nat} (hac : a ≠ c) (had : a ≠ d) (hbc : b ≠ c) (hbd : b ≠ d) (xs : List Word)
    (va vb vc vd : Word) :
    (((xs.set d vd).set c vc).set b vb).set a va = (((xs.set b vb).set a va).set d vd).set c vc := by
  rw [List.set_comm _ _ hbc.symm, List.set_comm _ _ hbd.symm, List.set_comm _ _ hac.symm, List.set_comm _ _ had.symm]

theorem butterfly_comm {a b c d : Nat} (hac : a ≠ c) (had : a ≠ d) (hbc : b ≠ c) (hbd : b ≠ d)
    (n₁ n₂ : Nat → BitVec 24) (wr₁ wi₁ wr₂ wi₂ : Word) (z : Work) :
    butterfly n₁ wr₁ wi₁ a b (butterfly n₂ wr₂ wi₂ c d z) =
      butterfly n₂ wr₂ wi₂ c d (butterfly n₁ wr₁ wi₁ a b z) := by
  simp only [butterfly, el_set_ne hac, el_set_ne had, el_set_ne hbc, el_set_ne hbd, el_set_ne hac.symm,
    el_set_ne had.symm, el_set_ne hbc.symm, el_set_ne hbd.symm]
  rw [set_pairs_comm hac had hbc hbd, set_pairs_comm hac had hbc hbd]

/-! ### The stages (42_spectral_analyzer.md R188) -/

/-- Two butterflies of one stage lie on pairs without a common index: groups are 2^s apart, and within one the upper halves
of the pairs are beyond all lower ones. -/
theorem stage_pairs_disjoint {s g₁ j₁ g₂ j₂ : Nat} (h₁ : j₁ < 2 ^ s / 2) (h₂ : j₂ < 2 ^ s / 2) (hne : (g₁, j₁) ≠ (g₂, j₂)) :
    g₁ * 2 ^ s + j₁ ≠ g₂ * 2 ^ s + j₂ ∧ g₁ * 2 ^ s + j₁ ≠ g₂ * 2 ^ s + j₂ + 2 ^ s / 2 ∧
    g₁ * 2 ^ s + j₁ + 2 ^ s / 2 ≠ g₂ * 2 ^ s + j₂ ∧ g₁ * 2 ^ s + j₁ + 2 ^ s / 2 ≠ g₂ * 2 ^ s + j₂ + 2 ^ s / 2 := by
  have hapart : ∀ {g g' : Nat}, g < g' → g * 2 ^ s + 2 ^ s ≤ g' * 2 ^ s := fun {g g'} h =>
    (Nat.succ_mul g _).ge.trans (Nat.mul_le_mul_right _ h)
  rcases Nat.lt_trichotomy g₁ g₂ with h | rfl | h
  · have := hapart h
    omega
  · have : j₁ ≠ j₂ := fun h => hne (by rw [h])
    omega
  · have := hapart h
    omega

theorem stageButterfly_comm (nan : Config.DrawSite → BitVec 24) (N : Nat) {s g₁ j₁ g₂ j₂ : Nat} (h₁ : j₁ < 2 ^ s / 2)
    (h₂ : j₂ < 2 ^ s / 2) (hne : (g₁, j₁) ≠ (g₂, j₂)) (z : Work) :
    stageButterfly nan N s (g₁ * 2 ^ s) j₁ (stageButterfly nan N s (g₂ * 2 ^ s) j₂ z) =
      stageButterfly nan N s (g₂ * 2 ^ s) j₂ (stageButterfly nan N s (g₁ * 2 ^ s) j₁ z) := by
  obtain ⟨hac, had, hbc, hbd⟩ := stage_pairs_disjoint h₁ h₂ hne
  simp only [stageButterfly]
  exact butterfly_comm hac had hbc hbd ..

theorem stageButterfly_entry_other {s g j i : Nat} (ha : i ≠ g + j) (hb : i ≠ g + j + 2 ^ s / 2)
    (nan : Config.DrawSite → BitVec 24) (N : Nat) (z : Work) :
    (stageButterfly nan N s g j z).entry i = z.entry i := by
  rw [stageButterfly]
  exact butterfly_entry_other ha hb ..

/-- Settles O50: a butterfly reads and writes its own pair alone. -/
theorem butterfliesOfAStageCommute : Obligations.ButterfliesOfAStageCommute := by
  unfold Obligations.ButterfliesOfAStageCommute
  constructor
  · intro n₁ n₂ wr₁ wi₁ wr₂ wi₂ a b c d z _ _ hac had hbc hbd
    exact butterfly_comm hac had hbc hbd ..
  · intro nan N s g₁ j₁ g₂ j₂ z h₁ h₂ hne
    exact stageButterfly_comm nan N h₁ h₂ hne z

/-- Group number and place in the group of every butterfly of stage `s`, in the order they are computed. -/
def stagePlaces (N s : Nat) : List (Nat × Nat) := List.range (N / 2 ^ s) ×ˢ List.range (2 ^ s / 2)

theorem mem_stagePlaces {N s g j : Nat} : (g, j) ∈ stagePlaces N s ↔ g < N / 2 ^ s ∧ j < 2 ^ s / 2 := by
  simp [stagePlaces]

theorem nodup_stagePlaces (N s : Nat) : (stagePlaces N s).Nodup := List.nodup_range.product List.nodup_range

theorem fftStage_eq_foldl (nan : Config.DrawSite → BitVec 24) (N s : Nat) (z : Work) :
    fftStage nan N s z =
      (stagePlaces N s).foldl (fun z p => stageButterfly nan N s (p.1 * 2 ^ s) p.2 z) z := by
  simp [fftStage, stagePlaces, SProd.sprod, List.product, List.foldl_flatMap, List.foldl_map]

theorem two_pow_half_pos {s : Nat} (hs : 1 ≤ s) : 0 < 2 ^ s / 2 := by
  have := Nat.pow_le_pow_right Nat.two_pos hs
  omega

/-- The pairs of stage `s` lie within the arrays. -/
theorem stage_pair_lt {N s g j : Nat} (hg : g < N / 2 ^ s) (hj : j < 2 ^ s / 2) : g * 2 ^ s + j + 2 ^ s / 2 < N := by
  have hle : (g + 1) * 2 ^ s ≤ N := (Nat.mul_le_mul_right _ hg).trans (Nat.div_mul_le_self N _)
  rw [Nat.succ_mul] at hle
  omega

theorem fourValues_stageButterfly (nan : Config.DrawSite → BitVec 24) (N : Nat) {s : Nat} (hs : 1 ≤ s) (g j : Nat) {z : Work}
    (hre : g + j + 2 ^ s / 2 < z.re.length) (him : g + j + 2 ^ s / 2 < z.im.length) :
    FourValues (fun op => nan (.butterfly s (g + j) op)) (Rom.twr N (j * (N / 2 ^ s))) (Rom.twi N (j * (N / 2 ^ s)))
      (g + j) (g + j + 2 ^ s / 2) z (stageButterfly nan N s g j z) := by
  have := two_pow_half_pos hs
  exact fourValues_butterfly (by omega) (by omega) (by omega) _ _ _

/-- Of the butterflies of a stage one alone touches a pair, and it finds there what the stage found. -/
theorem fourValues_fftStage (nan : Config.DrawSite → BitVec 24) {N s : Nat} (hs : 1 ≤ s) {z : Work} (hz : z.HasSize N)
    {g j : Nat} (hg : g < N / 2 ^ s) (hj : j < 2 ^ s / 2) :
    FourValues (fun op => nan (.butterfly s (g * 2 ^ s + j) op)) (Rom.twr N (j * (N / 2 ^ s)))
      (Rom.twi N (j * (N / 2 ^ s))) (g * 2 ^ s + j) (g * 2 ^ s + j + 2 ^ s / 2) z (fftStage nan N s z) := by
  obtain ⟨u, ⟨hre, him⟩, hfound, hleft⟩ := foldl_at
    (fun z => (z.entry (g * 2 ^ s + j), z.entry (g * 2 ^ s + j + 2 ^ s / 2)))
    (f := fun z (p : Nat × Nat) => stageButterfly nan N s (p.1 * 2 ^ s) p.2 z) (P := Work.HasSize N)
    (fun z p hz => by simpa [Work.HasSize] using hz)
    (fun z p hp hne => by
      obtain ⟨haa, hab, hba, hbb⟩ := stage_pairs_disjoint hj (mem_stagePlaces.1 hp).2 hne.symm
      exact Prod.ext (stageButterfly_entry_other haa hab ..) (stageButterfly_entry_other hba hbb ..))
    (nodup_stagePlaces N s) (mem_stagePlaces.2 ⟨hg, hj⟩) hz
  obtain ⟨hfoundA, hfoundB⟩ := Prod.mk.inj hfound
  obtain ⟨hleftA, hleftB⟩ := Prod.mk.inj hleft
  have hlt := stage_pair_lt hg hj
  rw [fftStage_eq_foldl]
  exact (fourValues_congr hfoundA hfoundB hleftA.symm hleftB.symm).1
    (fourValues_stageButterfly nan N hs _ _ (hlt.trans_eq hre.symm) (hlt.trans_eq him.symm))

/-! ### The load and the whole FFT (42_spectral_analyzer.md R188) -/

theorem loadReversed_re_bitrev {L j : Nat} (hj : j < 2 ^ L) (xs : List Word) :
    (loadReversed (2 ^ L) L xs).re[bitrev L j]? = some (el xs j) := by
  obtain ⟨re, hre, -, hload⟩ := foldl_at (fun re => re[bitrev L j]?)
    (f := fun (re : List Word) k => re.set (bitrev L k) (el xs k)) (P := fun re => re.length = 2 ^ L)
    (fun re k h => by simpa using h)
    (fun re k hk hne => List.getElem?_set_ne fun h => hne (bitrev_inj (List.mem_range.1 hk) hj h))
    List.nodup_range (List.mem_range.2 hj) (List.length_replicate (a := 0#32))
  exact hload.trans (List.getElem?_set_self (hre ▸ bitrev_lt L j))

theorem loadReversed_im {N : Nat} {i : Nat} (hi : i < N) (L : Nat) (xs : List Word) :
    (loadReversed N L xs).im[i]? = some 0#32 := by
  simp [loadReversed, hi]

/-- The work arrays after the load and the first `i` stages. -/
def afterStages (nan : Config.DrawSite → BitVec 24) (N L : Nat) (xs : List Word) (i : Nat) : Work :=
  (List.range i).foldl (fun z i => fftStage nan N (i + 1) z) (loadReversed N L xs)

theorem afterStages_succ (nan : Config.DrawSite → BitVec 24) (N L : Nat) (xs : List Word) (i : Nat) :
    afterStages nan N L xs (i + 1) = fftStage nan N (i + 1) (afterStages nan N L xs i) := by
  simp [afterStages, List.range_succ]

/-- Settles O51: the load writes every element once, a butterfly its pair alone, and of a stage one butterfly each pair. -/
theorem stageButterflyGivesFourValues : Obligations.StageButterflyGivesFourValues := by
  unfold Obligations.StageButterflyGivesFourValues
  refine ⟨?_, ?_, ?_, ?_⟩
  · intro L j xs hj
    exact ⟨bitrev_lt L j, testBit_bitrev L j, loadReversed_re_bitrev hj xs, loadReversed_im (bitrev_lt L j) L xs⟩
  · intro nan N s g j z hs a b hre him
    exact ⟨fourValues_stageButterfly nan N hs g j hre him, stageButterfly_re_length .., stageButterfly_im_length ..,
      fun i ha hb => Prod.mk.inj (stageButterfly_entry_other ha hb ..)⟩
  · intro nan N s z hs hre him
    obtain ⟨hre', him'⟩ := hasSize_fftStage nan N s ⟨hre, him⟩
    exact ⟨hre', him', fun g j => fourValues_fftStage nan hs ⟨hre, him⟩⟩
  · intro nan N L xs
    exact ⟨afterStages nan N L xs, rfl, fun i _ => afterStages_succ .., rfl⟩

end Sys2Proof.Machine

namespace Sys2Proof.Machine

/-! ### The averaging step (42_spectral_analyzer.md R193) -/

section Averaging

variable {nan : Config.DrawSite → BitVec 24} {bins p : Nat} {inv : Word} {mags : List Word} {m : Memory Word} {k : Nat}

theorem avgIx_zero (bins k : Nat) : avgIx bins 0 k = k := by simp [avgIx]

theorem Memory.wf_writeZ (a : Nat) (v : Word) (h : Memory.wf zeroed m = true) : Memory.wf zeroed (m.writeZ a v) = true :=
  Memory.wf_write a v h

theorem wf_averageBin (h : Memory.wf zeroed m = true) : Memory.wf zeroed (averageBin nan bins p inv mags m k) = true :=
  Memory.wf_writeZ _ _ (Memory.wf_writeZ _ _ (Memory.wf_writeZ _ _ h))

theorem averageBin_readZ_other {a : Nat} (h0 : a ≠ k) (hp : a ≠ p * bins + k) :
    (averageBin nan bins p inv mags m k).readZ a = m.readZ a := by
  rw [averageBin, avgIx_zero, avgIx, Memory.readZ_writeZ_other _ _ _ h0, Memory.readZ_writeZ_other _ _ _ hp,
    Memory.readZ_writeZ_other _ _ _ h0]

/-- Slot `p` gets the weighted magnitude, and slot 0 exchanges the slot's old value for it. -/
theorem averageBin_readZ (hne : k ≠ p * bins + k) (h : Memory.wf zeroed m = true) :
    (averageBin nan bins p inv mags m k).readZ (p * bins + k) = fmul (nan (.average k 1)) (el mags k) inv ∧
    (averageBin nan bins p inv mags m k).readZ k = fadd (nan (.average k 2))
      (fsub (nan (.average k 0)) (m.readZ k) (m.readZ (p * bins + k))) (fmul (nan (.average k 1)) (el mags k) inv) := by
  have h1 := Memory.wf_writeZ k (fsub (nan (.average k 0)) (m.readZ k) (m.readZ (p * bins + k))) h
  have h2 := Memory.wf_writeZ (p * bins + k) (fmul (nan (.average k 1)) (el mags k) inv) h1
  rw [averageBin, avgIx_zero, avgIx]
  refine ⟨?_, ?_⟩
  · rw [Memory.readZ_writeZ_other _ _ _ hne.symm, Memory.readZ_writeZ_same _ _ h1]
  · rw [Memory.readZ_writeZ_same _ _ h2, Memory.readZ_writeZ_other _ _ _ hne, Memory.readZ_writeZ_same _ _ h,
      Memory.readZ_writeZ_same _ _ h1]

theorem wf_average (h : Memory.wf zeroed m = true) : Memory.wf zeroed (average nan bins p inv mags m) = true :=
  List.foldlRecOn (motive := fun m => Memory.wf zeroed m = true) _ _ h fun _ hm _ _ => wf_averageBin hm

theorem average_readZ_other {a : Nat} (h0 : bins ≤ a) (hp : a < p * bins ∨ p * bins + bins ≤ a) :
    (average nan bins p inv mags m).readZ a = m.readZ a := by
  refine foldl_obs_eq (obs := fun m => Memory.readZ m a) (fun m k hk => averageBin_readZ_other ?_ ?_) m <;>
  · have := List.mem_range.1 hk
    omega

/-- Bin `k` is averaged once, and no other bin shares an element with it. -/
theorem average_readZ (hp : 1 ≤ p) (h : Memory.wf zeroed m = true) (hk : k < bins) :
    (average nan bins p inv mags m).readZ (p * bins + k) = fmul (nan (.average k 1)) (el mags k) inv ∧
    (average nan bins p inv mags m).readZ k = fadd (nan (.average k 2))
      (fsub (nan (.average k 0)) (m.readZ k) (m.readZ (p * bins + k))) (fmul (nan (.average k 1)) (el mags k) inv) := by
  have hslot : bins ≤ p * bins := Nat.le_mul_of_pos_left _ hp
  obtain ⟨u, hu, hfound, hleft⟩ := foldl_at (fun m => (Memory.readZ m k, Memory.readZ m (p * bins + k)))
    (f := averageBin nan bins p inv mags) (P := fun m => Memory.wf zeroed m = true) (fun _ _ => wf_averageBin)
    (fun m i hi hne => by
      have := List.mem_range.1 hi
      exact Prod.ext (averageBin_readZ_other hne.symm (by omega)) (averageBin_readZ_other (by omega) (by omega)))
    List.nodup_range (List.mem_range.2 hk) h
  obtain ⟨hfound0, hfoundP⟩ := Prod.mk.inj hfound
  obtain ⟨hleft0, hleftP⟩ := Prod.mk.inj hleft
  obtain ⟨hslotP, hslot0⟩ := averageBin_readZ (nan := nan) (inv := inv) (mags := mags) (show k ≠ p * bins + k by omega) hu
  rw [average, hleftP, hleft0, hslotP, hslot0, hfound0, hfoundP]
  exact ⟨rfl, rfl⟩

end Averaging

/-- Settles O48: of the bins one alone touches a pair of elements, and none an element of another slot. -/
theorem averagingStep : Obligations.AveragingStep := by
  unfold Obligations.AveragingStep
  intro nan bins p inv mags avg hp hwf
  exact ⟨fun k => average_readZ hp hwf, fun a => average_readZ_other, wf_average hwf⟩

/-! ### NaNs stay (00_scope.md R9, 93_implementation_defined.md U16) -/

theorem isNaN_nanOf (q : BitVec 24) : isNaN (nanOf q) = true := by
  have hq : (q.extractLsb' 0 23).toNat < 2 ^ 23 := (q.extractLsb' 0 23).isLt
  generalize hfrac : (if (q.extractLsb' 0 23).toNat = 0 then 1 else (q.extractLsb' 0 23).toNat) = frac
  have hpos : 0 < frac ∧ frac < 2 ^ 23 := by
    rw [← hfrac]
    split <;> omega
  have hexp : f32Exp (nanOf q) = 255 := by rw [nanOf, hfrac, f32Exp_packBits _ (by omega)]; omega
  have hne : f32Frac (nanOf q) ≠ 0 := by rw [nanOf, hfrac, f32Frac_packBits]; omega
  simp [isNaN, unpack, hexp, hne]

theorem fadd_isNaN_left (q : BitVec 24) {a : Word} (h : isNaN a = true) (b : Word) : isNaN (fadd q a b) = true := by
  have hu : unpack a = .nan := by simpa [isNaN] using h
  rw [fadd, hu]
  exact isNaN_nanOf q

/-- Settles O49: the new sum is the old one with two more operations, and a NaN goes through both. -/
theorem nanStaysInRunningSum : Obligations.NanStaysInRunningSum := by
  intro nan bins p inv mags avg k hp hwf hk hnan
  obtain ⟨-, hsum⟩ := average_readZ (nan := nan) (inv := inv) (mags := mags) hp hwf hk
  rw [hsum]
  exact fadd_isNaN_left _ (fadd_isNaN_left _ hnan _) _

/-! ### Zeros of either sign (00_scope.md R9) -/

theorem unpack_zeroOf (s : Bool) : unpack (zeroOf s) = .fin s 0 0 := by cases s <;> decide

theorem isFinite_zeroOf (s : Bool) : isFinite (zeroOf s) = true := by cases s <;> decide

theorem fneg_zeroOf (s : Bool) : fneg (zeroOf s) = zeroOf (!s) := by cases s <;> decide

theorem fadd_zeroOf (q : BitVec 24) (s t : Bool) : fadd q (zeroOf s) (zeroOf t) = zeroOf (s && t) := by
  simp only [fadd, unpack_zeroOf]
  cases s <;> cases t <;> rfl

theorem fsub_zeroOf (q : BitVec 24) (s t : Bool) : fsub q (zeroOf s) (zeroOf t) = zeroOf (s && !t) := by
  rw [fsub, fneg_zeroOf, fadd_zeroOf]

theorem fmul_zeroOf_right (q : BitVec 24) {w : Word} (hw : isFinite w = true) (s : Bool) :
    fmul q w (zeroOf s) = zeroOf (f32Sign w ^^ s) := by
  obtain ⟨m, e, hu, -⟩ := unpack_of_isFinite hw
  simp only [fmul, hu, unpack_zeroOf]
  exact if_pos (Nat.mul_zero m)

theorem fmul_zeroOf_left (q : BitVec 24) {w : Word} (hw : isFinite w = true) (s : Bool) :
    fmul q (zeroOf s) w = zeroOf (s ^^ f32Sign w) := by
  obtain ⟨m, e, hu, -⟩ := unpack_of_isFinite hw
  simp only [fmul, hu, unpack_zeroOf]
  exact if_pos (Nat.zero_mul m)

theorem fsqrt_zeroOf (q : BitVec 24) (s : Bool) : fsqrt q (zeroOf s) = zeroOf s := by
  rw [fsqrt, unpack_zeroOf]
  exact if_pos rfl

/-! ### Silence (42_spectral_analyzer.md R192) -/

/-- Every element of an array is +0.0 or −0.0. -/
def AllZeros (xs : List Word) : Prop := ∀ i, ∃ s, el xs i = zeroOf s

theorem AllZeros.set {xs : List Word} (h : AllZeros xs) (i : Nat) (s : Bool) : AllZeros (xs.set i (zeroOf s)) := by
  intro k
  by_cases hk : i = k
  · subst hk
    by_cases hlt : i < xs.length
    · exact ⟨s, by simp [el, hlt]⟩
    · exact ⟨false, by simp [el, hlt]; rfl⟩
  · rw [el_set_ne hk]
    exact h k

theorem allZeros_of_forall_mem {xs : List Word} (h : ∀ x ∈ xs, ∃ s, x = zeroOf s) : AllZeros xs := by
  intro i
  by_cases hlt : i < xs.length
  · obtain ⟨s, hs⟩ := h xs[i] (xs.getElem_mem hlt)
    exact ⟨s, by simpa [el, hlt] using hs⟩
  · exact ⟨false, by simp [el, hlt]; rfl⟩

/-- Both work arrays hold zeros only. -/
structure Work.Silent (z : Work) : Prop where
  re : AllZeros z.re
  im : AllZeros z.im

/-- Products of zeros with finite twiddles are zeros, and so are sums and differences of zeros. -/
theorem Work.Silent.butterfly {z : Work} (h : z.Silent) (nan : Nat → BitVec 24) {wr wi : Word} (hr : isFinite wr = true)
    (hi : isFinite wi = true) (a b : Nat) : (butterfly nan wr wi a b z).Silent := by
  obtain ⟨ra, hra⟩ := h.re a
  obtain ⟨rb, hrb⟩ := h.re b
  obtain ⟨ia, hia⟩ := h.im a
  obtain ⟨ib, hib⟩ := h.im b
  simp only [Machine.butterfly, hra, hrb, hia, hib, fmul_zeroOf_right _ hr, fmul_zeroOf_right _ hi, fadd_zeroOf,
    fsub_zeroOf]
  exact ⟨(h.re.set _ _).set _ _, (h.im.set _ _).set _ _⟩

theorem Work.Silent.stageButterfly {z : Work} (h : z.Silent) (nan : Config.DrawSite → BitVec 24) (N s g j : Nat) :
    (stageButterfly nan N s g j z).Silent := by
  rw [Machine.stageButterfly]
  exact h.butterfly _ (Rom.isFinite_twr ..) (Rom.isFinite_twi ..) _ _

theorem Work.Silent.fftStage {z : Work} (h : z.Silent) (nan : Config.DrawSite → BitVec 24) (N s : Nat) :
    (fftStage nan N s z).Silent := by
  rw [fftStage_eq_foldl]
  exact List.foldlRecOn (motive := Work.Silent) _ _ h fun z hz p _ => hz.stageButterfly nan N s _ _

theorem silent_loadReversed (N L : Nat) {xs : List Word} (h : AllZeros xs) : (loadReversed N L xs).Silent where
  re := List.foldlRecOn (motive := AllZeros) _ _ (allZeros_of_forall_mem fun x hx => ⟨false, List.eq_of_mem_replicate hx⟩)
    fun re hre j _ => by
      obtain ⟨s, hs⟩ := h j
      rw [hs]
      exact hre.set _ s
  im := allZeros_of_forall_mem fun x hx => ⟨false, List.eq_of_mem_replicate hx⟩

theorem silent_fft (nan : Config.DrawSite → BitVec 24) (N L : Nat) {xs : List Word} (h : AllZeros xs) :
    (fft nan N L xs).Silent :=
  List.foldlRecOn (motive := Work.Silent) _ _ (silent_loadReversed N L h) fun _ hz i _ => hz.fftStage nan N (i + 1)

/-- The square of a zero of either sign is +0.0. -/
theorem magnitudes_of_silent (nan : Config.DrawSite → BitVec 24) (bins : Nat) {z : Work} (h : z.Silent) :
    magnitudes nan bins z = List.replicate bins 0#32 := by
  have hbin : ∀ k, fsqrt (nan (.magnitude k 3)) (fadd (nan (.magnitude k 2))
      (fmul (nan (.magnitude k 0)) (el z.re k) (el z.re k)) (fmul (nan (.magnitude k 1)) (el z.im k) (el z.im k))) = 0#32 := by
    intro k
    obtain ⟨sr, hr⟩ := h.re k
    obtain ⟨si, hi⟩ := h.im k
    have hsquare : ∀ q s, fmul q (zeroOf s) (zeroOf s) = zeroOf false := by
      intro q s
      rw [fmul_zeroOf_left q (isFinite_zeroOf s)]
      cases s <;> rfl
    rw [hr, hi, hsquare, hsquare, fadd_zeroOf, fsqrt_zeroOf]
    rfl
  simp only [magnitudes, hbin, List.map_const', List.length_range]

theorem isFinite_window {p : Config.Params} (h : p.wf = true) (j : Nat) : isFinite (p.window j) = true := by
  have hwin : ∀ w ∈ p.win, isFinite w = true := by
    simp only [Config.Params.wf, Bool.and_eq_true] at h
    obtain ⟨-, hall⟩ := h
    exact List.all_eq_true.1 hall
  rw [Config.Params.window]
  by_cases hj : j < p.win.length
  · rw [List.getD_eq_getElem _ _ hj]
    exact hwin _ (p.win.getElem_mem hj)
  · rw [List.getD_eq_default _ _ (not_lt.1 hj)]
    rfl

/-- Settles O52: zeros stay zeros, perhaps of the other sign, up to the magnitudes. -/
theorem silenceHasZeroSpectrum : Obligations.SilenceHasZeroSpectrum := by
  intro nan p h
  refine magnitudes_of_silent nan _ (silent_fft nan _ _ (allZeros_of_forall_mem fun x hx => ?_))
  obtain ⟨j, -, rfl⟩ := List.mem_map.1 hx
  have hzero : el (List.replicate p.fftSize 0#32) j = zeroOf false := by
    simp only [el, List.getD_eq_getElem?_getD, List.getElem?_replicate]
    split <;> rfl
  rw [hzero]
  exact ⟨_, fmul_zeroOf_left _ (isFinite_window h j) false⟩

/-! ### The level range (42_spectral_analyzer.md R197) -/

/-- A scan that keeps the better of two values ends with one of the values, and none of them is better than it, if better
means a smaller key. -/
theorem foldl_keep_best {better : Word → Word → Bool} (key : Word → Int) {xs : List Word} {x₀ : Word}
    (h : ∀ x ∈ x₀ :: xs, ∀ y ∈ x₀ :: xs, better x y = true ↔ key x < key y) :
    xs.foldl (fun m x => if better x m then x else m) x₀ ∈ x₀ :: xs ∧
    ∀ x ∈ x₀ :: xs, key (xs.foldl (fun m x => if better x m then x else m) x₀) ≤ key x := by
  induction xs generalizing x₀ with
  | nil => simp
  | cons y xs ih =>
    have hy := h y (by simp) x₀ (by simp)
    rw [List.foldl_cons]
    by_cases hb : better y x₀ = true
    · obtain ⟨hmem, hle⟩ := ih (x₀ := y) fun x hx y' hy' => h x (.tail _ hx) y' (.tail _ hy')
      rw [if_pos hb]
      refine ⟨.tail _ hmem, List.forall_mem_cons.2 ⟨(hle y (by simp)).trans (hy.1 hb).le, hle⟩⟩
    · have hsub : x₀ :: xs ⊆ x₀ :: y :: xs := List.cons_subset_cons _ (List.subset_cons_self ..)
      obtain ⟨hmem, hle⟩ := ih (x₀ := x₀) fun x hx y' hy' => h x (hsub hx) y' (hsub hy')
      obtain ⟨hle₀, hle⟩ := List.forall_mem_cons.1 hle
      rw [if_neg hb]
      exact ⟨hsub hmem, by simpa using ⟨hle₀, hle₀.trans (not_lt.1 (hy.not.1 hb)), hle⟩⟩

theorem flt_iff_orderKey {a b : Word} (ha : isNaN a = false) (hb : isNaN b = false) :
    flt a b = true ↔ orderKey a < orderKey b := by
  simp [flt, ha, hb]

theorem flt_eq_false_of_orderKey_le {a b : Word} (h : orderKey b ≤ orderKey a) : flt a b = false := by
  simp [flt, h]

/-- Settles O53: RNG_MIN has the smallest order key of the frame, RNG_MAX the largest. -/
theorem rangeBoundsTheFrame : Obligations.RangeBoundsTheFrame := by
  intro S hne hnan
  obtain ⟨x₀, xs, rfl⟩ := List.exists_cons_of_ne_nil hne
  obtain ⟨hminMem, hmin⟩ := foldl_keep_best (better := flt) orderKey fun x hx y hy =>
    flt_iff_orderKey (hnan x hx) (hnan y hy)
  obtain ⟨hmaxMem, hmax⟩ := foldl_keep_best (better := fgt) (fun x => -orderKey x) fun x hx y hy =>
    (flt_iff_orderKey (hnan y hy) (hnan x hx)).trans neg_lt_neg_iff.symm
  exact ⟨hminMem, hmaxMem, fun x hx => ⟨flt_eq_false_of_orderKey_le (hmin x hx),
    flt_eq_false_of_orderKey_le (neg_le_neg_iff.1 (hmax x hx))⟩⟩

end Sys2Proof.Machine

namespace Sys2Proof.Machine

/-! ### GETINFO and GETBIN (43_interpolator.md R232, R234) -/

theorem exec_getinfo_of_no_axis {s : State} (hp : s.port = .C) (ha : s.axisValid = false) (idx : Nat) :
    exec (.getinfo idx) s = .next (respond .errState 0 0 s) := by
  rw [exec, execGetinfo, onlyOn_self hp, if_pos ha, raise]

theorem exec_getinfo_of_ares_le {s : State} {idx : Nat} (hp : s.port = .C) (ha : s.axisValid = true)
    (hi : s.aRes.toNat ≤ idx) : exec (.getinfo idx) s = .next (respond .errOperand 0 0 s) := by
  rw [exec, execGetinfo, onlyOn_self hp, if_neg (by simp [ha]), if_pos hi, raise]

theorem exec_getinfo_of_lt {s : State} {idx : Nat} (hp : s.port = .C) (ha : s.axisValid = true)
    (hi : idx < s.aRes.toNat) (f : Word) (hf : Memory.read none s.axis idx = some f) :
    exec (.getinfo idx) s = .next (respond .ok f (s.out.readZ idx) s) := by
  rw [exec, execGetinfo, onlyOn_self hp, if_neg (by simp [ha]), if_neg (not_le.2 hi), hf]

/-- Settles O57: the axis is tested first, then the index, and both words are read where it points. -/
theorem getinfoReadsFrame : Obligations.GetinfoReadsFrame := fun _ idx hp =>
  ⟨fun ha => exec_getinfo_of_no_axis hp ha idx, exec_getinfo_of_ares_le hp, exec_getinfo_of_lt hp⟩

theorem exec_getbin_of_bins_le {s : State} {k : Nat} (hp : s.port = .C) (hk : s.cfg.bins ≤ k) :
    exec (.getbin k) s = .next (respond .errOperand 0 0 s) := by
  rw [exec, execGetbin, onlyOn_self hp, if_pos hk, raise]

theorem exec_getbin_of_lt {s : State} {k : Nat} (hp : s.port = .C) (hk : k < s.cfg.bins) :
    exec (.getbin k) s = .next (respond .ok 0 (s.avg.readZ k) s) := by
  rw [exec, execGetbin, onlyOn_self hp, if_neg (not_le.2 hk), avgIx_zero]

/-- Settles O58: BINS is half of FFT_SIZE, and slot 0 of AVG starts at element 0. -/
theorem getbinReadsAverage : Obligations.GetbinReadsAverage := fun _ _ hp =>
  ⟨exec_getbin_of_bins_le hp, exec_getbin_of_lt hp⟩

/-! ### The bin number of a coordinate (43_interpolator.md R223) -/

theorem isNaN_eq_false_of_fgt {a b : Word} (h : fgt a b = true) : isNaN a = false :=
  Bool.eq_false_iff.2 fun ha => by
    obtain ⟨-, hfalse, -⟩ := comparisons_false_of_isNaN (b := b) (.inl ha)
    exact Bool.false_ne_true (hfalse.symm.trans h)

/-- An integer of any size converts to a number, a finite one or +infinity. -/
theorem isNaN_i2f (i : Nat) : isNaN (i2f i) = false := by
  obtain ⟨-, hnear, hover⟩ := roundPack_roundsTo_exact false i 400 (x := i) (by simp [signFactor])
  rcases lt_or_ge |(i : ℝ)| ((2 ^ 25 - 1) * 2 ^ 103) with h | h
  · exact isNaN_of_isFinite (hnear h).1
  · rw [i2f, hover h]
    decide

theorem f32Frac_eq_zero_of_not_isNaN {w : Word} (hn : isNaN w = false) (he : f32Exp w = 255) : f32Frac w = 0 := by
  simpa [isNaN, unpack, he] using hn

/-- No number is above +infinity. -/
theorem orderKey_le_of_not_isNaN {w : Word} (hn : isNaN w = false) : orderKey w ≤ 0x7F800000 := by
  have hexp : f32Exp w < 2 ^ 8 := (w.extractLsb' 23 8).isLt
  have hfrac : f32Frac w < 2 ^ 23 := (w.extractLsb' 0 23).isLt
  have hinf := f32Frac_eq_zero_of_not_isNaN hn
  rw [orderKey, signed]
  split <;> omega

theorem f32Sign_of_fgt_zero {b : Word} (hpos : fgt b 0 = true) : f32Sign b = false := by
  have hkey := (flt_iff_orderKey (by decide) (isNaN_eq_false_of_fgt hpos)).1 hpos
  rw [show orderKey 0 = 0 by decide, orderKey, signed] at hkey
  by_contra hs
  rw [if_pos (by simpa using hs)] at hkey
  omega

/-- Of the coordinates above 0 only +infinity has no floor, and it is not below the last bin. -/
theorem isFinite_of_not_fge_i2f {b : Word} {n : Nat} (hpos : fgt b 0 = true) (hlt : fge b (i2f n) = false) :
    isFinite b = true := by
  have hn := isNaN_eq_false_of_fgt hpos
  by_contra hf
  have he : f32Exp b = 255 := by simpa [isFinite] using hf
  have hkey : orderKey b = 0x7F800000 := by
    rw [orderKey, f32Sign_of_fgt_zero hpos, he, f32Frac_eq_zero_of_not_isNaN hn he]
    rfl
  have hge : fge b (i2f n) = true := by simp [fge, hn, isNaN_i2f, hkey, orderKey_le_of_not_isNaN (isNaN_i2f n)]
  exact Bool.false_ne_true (hlt.symm.trans hge)

theorem valueOf_of_f32Sign_false {w : Word} (hs : f32Sign w = false) : (valueOf w : ℝ) = magnitudeOf w / 2 ^ 149 := by
  rw [valueOf_eq, hs, signFactor, if_neg Bool.false_ne_true, one_mul]

theorem floorNat_eq_div {b : Word} (hb : isFinite b = true) (hs : f32Sign b = false) :
    floorNat b = magnitudeOf b / 2 ^ 149 := by
  obtain ⟨m, e, hu, hmag, -⟩ := unpack_of_isFinite hb
  rw [floorNat, hu, hs, hmag]

theorem binIdx_of_not_fgt {b : Word} (h : fgt b 0 = false) (bins : Nat) : binIdx bins b = 0 := if_pos h

theorem binIdx_of_fge {bins : Nat} {b : Word} (hpos : fgt b 0 = true) (hge : fge b (i2f (bins - 1)) = true) :
    binIdx bins b = bins - 1 := by
  rw [binIdx, if_neg (by simpa using hpos), if_pos hge]

/-- Between 0 and the last bin the bin number is the integer part of the coordinate. -/
theorem binIdx_of_not_fge {bins : Nat} {b : Word} (hpos : fgt b 0 = true) (hlt : fge b (i2f (bins - 1)) = false) :
    binIdx bins b = magnitudeOf b / 2 ^ 149 := by
  rw [binIdx, if_neg (by simpa using hpos), if_neg (by simp [hlt]),
    floorNat_eq_div (isFinite_of_not_fge_i2f hpos hlt) (f32Sign_of_fgt_zero hpos)]

/-- Up to 2^22 bins the number of the last bin converts exactly, so a coordinate below it has a smaller floor. -/
theorem binIdx_lt {bins : Nat} (h1 : 1 ≤ bins) (hbins : bins ≤ 2 ^ 22) (b : Word) : binIdx bins b < bins := by
  cases hpos : fgt b 0 with
  | false => rw [binIdx_of_not_fgt hpos]; exact h1
  | true =>
    cases hge : fge b (i2f (bins - 1)) with
    | true => rw [binIdx_of_fge hpos hge]; omega
    | false =>
      have hb := isFinite_of_not_fge_i2f hpos hge
      obtain ⟨hfin, -, hval⟩ := i2f_exact (i := bins - 1) (by omega)
      have hlt := not_le.1 ((fge_iff hb hfin).not.1 (Bool.eq_false_iff.1 hge))
      rw [valueOf_of_f32Sign_false (f32Sign_of_fgt_zero hpos), hval, Rat.cast_natCast, div_lt_iff₀ (by positivity)] at hlt
      have hmag : magnitudeOf b < (bins - 1) * 2 ^ 149 := by exact_mod_cast hlt
      rw [binIdx_of_not_fge hpos hge]
      exact (Nat.div_lt_of_lt_mul (by rwa [Nat.mul_comm])).trans_le (Nat.sub_le _ _)

/-- Settles O54: the three branches of `binIdx`, the last a division by the units of one bin. -/
theorem binIndexInRange : Obligations.BinIndexInRange := by
  intro bins b h1
  refine ⟨fun hbins => binIdx_lt h1 hbins b, fun h => binIdx_of_not_fgt h bins, binIdx_of_fge, fun hpos hlt => ?_⟩
  rw [binIdx_of_not_fge hpos hlt]
  exact ⟨Nat.div_mul_le_self _ _, Nat.lt_mul_of_div_lt (Nat.lt_succ_self _) (by positivity)⟩

/-! ### Peak-hold decimation (43_interpolator.md R227) -/

theorem fgt_trans {x y z : Word} (hxy : fgt x y = true) (hyz : fgt y z = true) : fgt x z = true := by
  simp only [fgt, flt, Bool.and_eq_true, decide_eq_true_eq] at hxy hyz ⊢
  obtain ⟨⟨-, hx⟩, hxy⟩ := hxy
  obtain ⟨⟨hz, -⟩, hyz⟩ := hyz
  exact ⟨⟨hz, hx⟩, hyz.trans hxy⟩

theorem fgt_self (x : Word) : fgt x x = false := flt_eq_false_of_orderKey_le le_rfl

theorem foldl_keepMax_of_isNaN {m : Word} (hm : isNaN m = true) (xs : List Word) : xs.foldl keepMax m = m := by
  refine List.foldl_fixed' (fun x => ?_) xs
  obtain ⟨-, hx, -⟩ := comparisons_false_of_isNaN (a := x) (.inr hm)
  rw [keepMax, hx, if_neg Bool.false_ne_true]

/-- A scan that starts from a number skips the NaNs and ends with a number that none of the scanned values exceeds. -/
theorem foldl_keepMax_spec {m : Word} (hm : isNaN m = false) (xs : List Word) :
    xs.foldl keepMax m ∈ m :: xs ∧ isNaN (xs.foldl keepMax m) = false ∧
    ∀ x ∈ m :: xs, fgt x (xs.foldl keepMax m) = false := by
  induction xs using List.reverseRecOn with
  | nil => simp [hm, fgt_self]
  | append_singleton xs x ih =>
    obtain ⟨hmem, hnan, hmax⟩ := ih
    rw [List.foldl_append, List.foldl_cons, List.foldl_nil, keepMax, ← List.cons_append]
    cases hx : fgt x (xs.foldl keepMax m) with
    | true =>
      have hold : ∀ y ∈ m :: xs, fgt y x = false := fun y hy => Bool.eq_false_iff.2 fun hyx =>
        Bool.false_ne_true ((hmax y hy).symm.trans (fgt_trans hyx hx))
      exact ⟨by simp, isNaN_eq_false_of_fgt hx, List.forall_mem_append.2 ⟨hold, by simp [fgt_self]⟩⟩
    | false => exact ⟨List.mem_append_left _ hmem, hnan, List.forall_mem_append.2 ⟨hmax, by simpa using hx⟩⟩

theorem peak_eq_foldl_map (S : List Word) (lo hi : Nat) :
    peak S lo hi = ((List.range (hi - lo)).map fun i => el S (lo + 1 + i)).foldl keepMax (el S lo) := by
  rw [peak, List.foldl_map]

theorem mem_scanned_iff {S : List Word} {lo hi : Nat} (h : lo ≤ hi) {x : Word} :
    x ∈ el S lo :: (List.range (hi - lo)).map (fun i => el S (lo + 1 + i)) ↔ ∃ k, lo ≤ k ∧ k ≤ hi ∧ x = el S k := by
  rw [List.mem_cons, List.mem_map]
  constructor
  · rintro (rfl | ⟨i, hmem, rfl⟩)
    · exact ⟨lo, le_rfl, h, rfl⟩
    · exact ⟨lo + 1 + i, by omega, by have := List.mem_range.1 hmem; omega, rfl⟩
  · rintro ⟨k, hlo, hhi, rfl⟩
    rcases Nat.eq_or_lt_of_le hlo with rfl | hlt
    · exact .inl rfl
    · exact .inr ⟨k - (lo + 1), List.mem_range.2 (by omega), by rw [Nat.add_sub_cancel' hlt]⟩

theorem peak_of_isNaN {S : List Word} {lo : Nat} (hn : isNaN (el S lo) = true) (hi : Nat) : peak S lo hi = el S lo := by
  rw [peak_eq_foldl_map, foldl_keepMax_of_isNaN hn]

theorem peak_spec {S : List Word} {lo hi : Nat} (h : lo ≤ hi) (hn : isNaN (el S lo) = false) :
    (∃ k, lo ≤ k ∧ k ≤ hi ∧ peak S lo hi = el S k) ∧ isNaN (peak S lo hi) = false ∧
    ∀ k, lo ≤ k → k ≤ hi → fgt (el S k) (peak S lo hi) = false := by
  rw [peak_eq_foldl_map]
  obtain ⟨hmem, hnan, hmax⟩ := foldl_keepMax_spec hn ((List.range (hi - lo)).map fun i => el S (lo + 1 + i))
  exact ⟨(mem_scanned_iff h).1 hmem, hnan, fun k hlo hhi => hmax _ ((mem_scanned_iff h).2 ⟨k, hlo, hhi, rfl⟩)⟩

/-- Settles O55: decimation is the scan of an interval whose lower end is cut to its upper end. -/
theorem peakIsTheMaximum : Obligations.PeakIsTheMaximum := by
  refine ⟨fun S lo hi h => ⟨fun hn => peak_of_isNaN hn hi, peak_spec h⟩, fun bins S bprev b => ?_⟩
  intro hi lo
  have hlo : lo = min hi (binIdx bins bprev + 1) := (min_def_lt ..).symm
  rw [decimate, min_comm, ← hlo]
  exact ⟨fun hn => peak_of_isNaN hn hi, peak_spec (hlo.trans_le (min_le_left ..))⟩

/-! ### Linear interpolation (43_interpolator.md R226) -/

theorem linear_of_edge {nan : Nat → BitVec 24} {bins : Nat} {S : List Word} {b : Word}
    (h : fgt b 0 = false ∨ binIdx bins b = bins - 1) : linear nan bins S b = el S (binIdx bins b) := if_pos h

theorem linear_of_between {nan : Nat → BitVec 24} {bins : Nat} {S : List Word} {b : Word}
    (hpos : fgt b 0 = true) (hk : binIdx bins b ≠ bins - 1) :
    linear nan bins S b = fadd (nan 4)
      (fmul (nan 2) (el S (binIdx bins b)) (fsub (nan 1) f32One (fsub (nan 0) b (i2f (binIdx bins b)))))
      (fmul (nan 3) (el S (binIdx bins b + 1)) (fsub (nan 0) b (i2f (binIdx bins b)))) :=
  if_neg (not_or.2 ⟨fun h0 => Bool.false_ne_true (h0.symm.trans hpos), hk⟩)

/-! ### The interpolation pass (43_interpolator.md R222, R224) -/

section Pass

variable (nan : Config.DrawSite → BitVec 24) (bins : Nat) (interp nyq : Word) (S fs : List Word)

/-- The bin coordinate of output index `x` (R221). -/
def coordAt (x : Nat) : Word := coordinate nan bins nyq (el fs x) x

/-- Some index from 1 to `x` has a local axis width above one bin (R224). -/
def SwitchedBy (x : Nat) : Prop :=
  ∃ y, 1 ≤ y ∧ y ≤ x ∧
    fgt (fsub (nan (.width y)) (coordAt nan bins nyq fs y) (coordAt nan bins nyq fs (y - 1))) f32One = true

/-- The pass after its first `n` output indexes (R222). -/
def passUpTo (n : Nat) : Pass :=
  (List.range n).foldl (passIndex nan bins interp nyq S fs) { out := [], sticky := false, bprev := none }

theorem interpPass_eq_passUpTo (aSrate : Word) :
    interpPass nan bins interp aSrate S fs = passUpTo nan bins interp (nyquist nan aSrate) S fs fs.length := rfl

variable {nan bins interp nyq S fs}

theorem not_switchedBy_zero : ¬ SwitchedBy nan bins nyq fs 0 := by
  rintro ⟨y, h1, h0, -⟩
  omega

theorem SwitchedBy.mono {x z : Nat} (h : SwitchedBy nan bins nyq fs x) (hxz : x ≤ z) :
    SwitchedBy nan bins nyq fs z := by
  obtain ⟨y, h1, hyx, hw⟩ := h
  exact ⟨y, h1, hyx.trans hxz, hw⟩

theorem switchedBy_succ_iff {x : Nat} : SwitchedBy nan bins nyq fs (x + 1) ↔ SwitchedBy nan bins nyq fs x ∨
    fgt (fsub (nan (.width (x + 1))) (coordAt nan bins nyq fs (x + 1)) (coordAt nan bins nyq fs x)) f32One = true := by
  constructor
  · rintro ⟨y, h1, hyx, hw⟩
    rcases Nat.eq_or_lt_of_le hyx with rfl | hlt
    · exact .inr hw
    · exact .inl ⟨y, h1, Nat.le_of_lt_succ hlt, hw⟩
  · rintro (h | hw)
    · exact h.mono (Nat.le_succ x)
    · exact ⟨x + 1, Nat.le_add_left 1 x, le_rfl, hw⟩

theorem passUpTo_succ (n : Nat) : passUpTo nan bins interp nyq S fs (n + 1) =
    passIndex nan bins interp nyq S fs (passUpTo nan bins interp nyq S fs n) n := by
  simp [passUpTo, List.range_succ]

theorem passUpTo_bprev (n : Nat) :
    (passUpTo nan bins interp nyq S fs (n + 1)).bprev = some (coordAt nan bins nyq fs n) := by
  rw [passUpTo_succ]
  rfl

theorem passUpTo_sticky_succ (n : Nat) : (passUpTo nan bins interp nyq S fs (n + 1)).sticky =
    ((passUpTo nan bins interp nyq S fs n).sticky ||
      switchSets (nan (.width n)) (passUpTo nan bins interp nyq S fs n).bprev (coordAt nan bins nyq fs n)) := by
  rw [passUpTo_succ]
  rfl

/-- After an index STICKY tells whether the pass has switched by then. -/
theorem passUpTo_sticky_iff (n : Nat) :
    (passUpTo nan bins interp nyq S fs (n + 1)).sticky = true ↔ SwitchedBy nan bins nyq fs n := by
  induction n with
  | zero => exact iff_of_false Bool.false_ne_true not_switchedBy_zero
  | succ n ih => rw [passUpTo_sticky_succ, passUpTo_bprev, Bool.or_eq_true, ih, switchedBy_succ_iff]; rfl

theorem passUpTo_sticky_iff_exists (n : Nat) :
    (passUpTo nan bins interp nyq S fs n).sticky = true ↔ ∃ x, x < n ∧ SwitchedBy nan bins nyq fs x := by
  cases n with
  | zero => exact iff_of_false Bool.false_ne_true fun ⟨x, hx, _⟩ => Nat.not_lt_zero x hx
  | succ n =>
    rw [passUpTo_sticky_iff]
    exact ⟨fun h => ⟨n, Nat.lt_succ_self n, h⟩, fun ⟨x, hx, h⟩ => h.mono (Nat.le_of_lt_succ hx)⟩

theorem passUpTo_out_length (n : Nat) : (passUpTo nan bins interp nyq S fs n).out.length = n := by
  simp [passUpTo, foldl_passIndex_length]

/-- The value of an index is the one its own turn appended. -/
theorem passUpTo_out_getElem? {x n : Nat} (h : x < n) : (passUpTo nan bins interp nyq S fs n).out[x]? =
    some (passValue nan bins interp S x (passUpTo nan bins interp nyq S fs (x + 1)).sticky
      (passUpTo nan bins interp nyq S fs x).bprev (coordAt nan bins nyq fs x)) := by
  have hout (k : Nat) : (passUpTo nan bins interp nyq S fs (k + 1)).out = (passUpTo nan bins interp nyq S fs k).out ++
      [passValue nan bins interp S k (passUpTo nan bins interp nyq S fs (k + 1)).sticky
        (passUpTo nan bins interp nyq S fs k).bprev (coordAt nan bins nyq fs k)] := by
    rw [passUpTo_succ]
    rfl
  induction n, h using Nat.le_induction with
  | base => simp [hout, passUpTo_out_length]
  | succ n hxn ih => rw [hout, List.getElem?_append_left (by rw [passUpTo_out_length]; exact hxn), ih]

/-- From the switch on every value is decimated. -/
theorem passUpTo_out_of_switchedBy {x n : Nat} (hx : x < n) (h : SwitchedBy nan bins nyq fs x) :
    (passUpTo nan bins interp nyq S fs n).out[x]? =
      some (decimate bins S (coordAt nan bins nyq fs (x - 1)) (coordAt nan bins nyq fs x)) := by
  cases x with
  | zero => exact absurd h not_switchedBy_zero
  | succ x => rw [passUpTo_out_getElem? hx, (passUpTo_sticky_iff _).2 h, passUpTo_bprev]; rfl

/-- Before the switch INTERP selects the value. -/
theorem passUpTo_out_of_not_switchedBy {x n : Nat} (hx : x < n) (h : ¬ SwitchedBy nan bins nyq fs x) :
    (passUpTo nan bins interp nyq S fs n).out[x]? =
      some (if interp = 0 then nearest (nan (.value x 0)) bins S (coordAt nan bins nyq fs x)
        else linear (fun op => nan (.value x op)) bins S (coordAt nan bins nyq fs x)) := by
  rw [passUpTo_out_getElem? hx, Bool.eq_false_iff.2 ((passUpTo_sticky_iff _).not.2 h)]
  rfl

theorem passUpTo_out_of_nearest {x n : Nat} (hx : x < n) (h : ¬ SwitchedBy nan bins nyq fs x) (hi : interp = 0) :
    (passUpTo nan bins interp nyq S fs n).out[x]? =
      some (nearest (nan (.value x 0)) bins S (coordAt nan bins nyq fs x)) := by
  rw [passUpTo_out_of_not_switchedBy hx h, if_pos hi]

theorem passUpTo_out_of_linear {x n : Nat} (hx : x < n) (h : ¬ SwitchedBy nan bins nyq fs x) (hi : interp ≠ 0) :
    (passUpTo nan bins interp nyq S fs n).out[x]? =
      some (linear (fun op => nan (.value x op)) bins S (coordAt nan bins nyq fs x)) := by
  rw [passUpTo_out_of_not_switchedBy hx h, if_neg hi]

end Pass

/-- Settles O56: STICKY after an index is `SwitchedBy`, and it alone selects between decimation and interpolation. -/
theorem regimeSwitchIsOneWay : Obligations.RegimeSwitchIsOneWay := by
  intro nan bins interp aSrate S fs b switched pass
  have hpass : pass = passUpTo nan bins interp (nyquist nan aSrate) S fs fs.length := interpPass_eq_passUpTo ..
  rw [hpass]
  refine ⟨passUpTo_out_length _, passUpTo_sticky_iff_exists _, fun x hx => ⟨passUpTo_out_of_switchedBy hx,
    passUpTo_out_of_nearest hx, fun hno hi => ?_⟩⟩
  have hlinear := passUpTo_out_of_linear (S := S) hx hno hi
  exact ⟨fun hedge => hlinear.trans (congrArg some (linear_of_edge hedge)),
    fun hpos hk => hlinear.trans (congrArg some (linear_of_between hpos hk))⟩

end Sys2Proof.Machine

namespace Sys2Proof.Machine

/-! ### What the first step of a command can do (60_exceptions.md R252, R253, R257) -/

/-- The status codes the first step of a command can answer with (R252, R253): UPDATE answers OK at its compute step. -/
def firstStatuses : Instr → List Status
  | .write _ => [.ok, .fail, .errIllegal]
  | .read _ _ => [.ok, .fail, .errIllegal, .errOperand]
  | .nready | .freesp => [.ok]
  | .reset => [.ok, .errIllegal]
  | .setsize _ => [.ok, .errIllegal, .errCfg]
  | .rdcsr _ => [.ok, .errIllegal, .errOperand]
  | .wrcsr _ _ => [.ok, .errIllegal, .errOperand, .errCfg]
  | .axbuild => [.ok, .errIllegal, .errCfg]
  | .update => [.fail, .errIllegal, .errState]
  | .getinfo _ => [.ok, .errIllegal, .errOperand, .errState]
  | .getbin _ => [.ok, .errIllegal, .errOperand]

/-- How a first step ends: a status of the command's list with no other change, its effect answered OK, or the start of an
UPDATE, which is not answered yet. -/
inductive FirstStep (s : State) : Instr → State → Prop
  | refused {i : Instr} (e : Status) (he : e ∈ firstStatuses i := by simp [firstStatuses]) :
      FirstStep s i (respond e 0 0 s)
  | done {i : Instr} {u : State} (hu : Effect s i u) (d1 d0 : Word) (hi : .ok ∈ firstStatuses i := by simp [firstStatuses]) :
      FirstStep s i (respond .ok d1 d0 u)
  | started : FirstStep s .update (startTransfer .analyzer s.cfg.fftSize (s.cfg.fftSize - s.cfg.keep) s)

theorem exec_firstStep {i : Instr} {s t : State} (h : exec i s = .next t) : FirstStep s i t := by
  cases i with
  | write n =>
    rcases execWrite_next h with ⟨-, rfl⟩ | ⟨-, -, rfl⟩ | ⟨hp, hn, rfl⟩
    · exact .refused .errIllegal
    · exact .refused .fail
    · rw [startWrite_respond]
      exact .done (.write hp hn) 0 0
  | read n c =>
    rcases execRead_next h with ⟨-, rfl⟩ | ⟨-, -, rfl⟩ | ⟨-, -, -, rfl⟩ | ⟨-, -, -, rfl⟩ | ⟨hp, hc, hn, hr, rfl⟩
    · exact .refused .errIllegal
    · exact .refused .errOperand
    · exact .refused .fail
    · exact .done (.unchanged _) 0 0
    · exact .done (.read hp hc hn hr) 0 0
  | nready => exact execNready_next h ▸ FirstStep.done (.unchanged _) ..
  | freesp => exact execFreesp_next h ▸ FirstStep.done (.unchanged _) ..
  | reset =>
    rcases execReset_next h with ⟨-, rfl⟩ | ⟨hp, hi, rfl⟩
    · exact .refused .errIllegal
    · exact .done (.reset hp hi) 0 0
  | setsize cap =>
    rcases execSetsize_next h with ⟨-, rfl⟩ | ⟨-, -, rfl⟩ | ⟨hp, hl, hi, rfl⟩
    · exact .refused .errIllegal
    · exact .refused .errCfg
    · exact .done (.setsize hp hi hl) 0 0
  | rdcsr addr =>
    rcases execRdcsr_next h with ⟨-, rfl⟩ | ⟨-, -, rfl⟩ | ⟨-, r, -, rfl⟩
    · exact .refused .errIllegal
    · exact .refused .errOperand
    · exact .done (.unchanged _) ..
  | wrcsr addr v =>
    rcases execWrcsr_next h with ⟨-, rfl⟩ | ⟨-, -, rfl⟩ | ⟨-, r, -, -, -, rfl⟩ | ⟨-, r, -, -, hv, rfl⟩
    · exact .refused .errIllegal
    · exact .refused .errOperand
    · exact .refused .errCfg
    · exact .done (.wrcsr hv) 0 0
  | axbuild =>
    rcases execAxbuild_next h with ⟨-, rfl⟩ | ⟨-, -, rfl⟩ | ⟨-, ha, rfl⟩
    · exact .refused .errIllegal
    · exact .refused .errCfg
    · exact .done (.axbuild ha) ..
  | update =>
    rcases execUpdate_next h with ⟨-, rfl⟩ | ⟨-, -, rfl⟩ | ⟨-, -, -, rfl⟩ | ⟨-, -, -, rfl⟩
    · exact .refused .errIllegal
    · exact .refused .errState
    · exact .refused .fail
    · exact .started
  | getinfo idx =>
    rcases execGetinfo_next h with ⟨-, rfl⟩ | ⟨-, -, rfl⟩ | ⟨-, -, -, rfl⟩ | ⟨-, -, -, f, -, rfl⟩
    · exact .refused .errIllegal
    · exact .refused .errState
    · exact .refused .errOperand
    · exact .done (.unchanged _) ..
  | getbin k =>
    rcases execGetbin_next h with ⟨-, rfl⟩ | ⟨-, -, rfl⟩ | ⟨-, -, rfl⟩
    · exact .refused .errIllegal
    · exact .refused .errOperand
    · exact .done (.unchanged _) ..

/-! ### The word a command is answered with (30_encoding.md R95) -/

theorem respWord_status (st : Status) (d1 d0 : Word) : (respWord st d1 d0).extractLsb' 64 8 = st.code := by
  rw [respWord, BitVec.extractLsb'_append_eq_of_le (by omega)]
  exact BitVec.extractLsb'_append_eq_left

theorem respWord_zero_data (st : Status) : (respWord st 0 0).extractLsb' 0 64 = 0 := by
  cases st <;> decide

/-- The one word a response appends is the one it sends. -/
theorem eq_respWord_of_appended {s u : State} (hp : u.pRsp = s.pRsp) (hc : u.cRsp = s.cRsp) {st : Status} {d1 d0 : Word}
    {w : RspWord} (hw : (respond st d1 d0 u).pRsp = s.pRsp ++ [w] ∨ (respond st d1 d0 u).cRsp = s.cRsp ++ [w]) :
    w = respWord st d1 d0 := by
  cases hport : u.port <;> simpa [hp, hc, hport, eq_comm] using hw

/-- What a response word says of the first step that sent it: its status is on the command's list, and one other than OK
comes with no data and no other change. -/
theorem exec_answer {i : Instr} {s t : State} {w : RspWord} (h : exec i s = .next t)
    (hw : t.pRsp = s.pRsp ++ [w] ∨ t.cRsp = s.cRsp ++ [w]) :
    ∃ st ∈ firstStatuses i, w.extractLsb' 64 8 = st.code ∧
      (st ≠ .ok → w = respWord st 0 0 ∧ t = respond st 0 0 s) := by
  cases exec_firstStep h with
  | refused e he =>
    obtain rfl := eq_respWord_of_appended rfl rfl hw
    exact ⟨e, he, respWord_status .., fun _ => ⟨rfl, rfl⟩⟩
  | done hu d1 d0 hi =>
    obtain ⟨-, hp, hc⟩ := responses_of_effect hu
    obtain rfl := eq_respWord_of_appended hp hc hw
    exact ⟨.ok, hi, respWord_status .., fun hne => absurd rfl hne⟩
  | started => simp at hw

/-- Settles O10: a status other than OK comes from `raise`. -/
theorem nonOkStatusChangesNothing : Obligations.NonOkStatusChangesNothing := by
  intro i s t w h hw hne
  obtain ⟨st, -, hst, hraise⟩ := exec_answer h hw
  obtain ⟨rfl, rfl⟩ := hraise fun hok => hne (hok ▸ hst)
  exact ⟨respWord_zero_data st, rfl⟩

/-- Settles O11: the lists are the codes of `firstStatuses`. -/
theorem statusesOfEachCommand : Obligations.StatusesOfEachCommand := by
  intro i s t w h hw
  obtain ⟨st, hmem, hst, -⟩ := exec_answer h hw
  have hcode : st.code ∈ (firstStatuses i).map Status.code := List.mem_map_of_mem hmem
  rw [hst]
  cases i <;> exact hcode

/-! ### Commands that cannot fault (60_exceptions.md R258, 93_implementation_defined.md U1, U5) -/

/-- On port P nothing can stop a command. -/
theorem exec_continues_onP {s : State} (hp : s.port = .P) (i : Instr) : ∃ t, exec i s = .next t := by
  cases i with
  | write n =>
    rcases lt_or_ge (freeP s) n with hn | hn
    · exact ⟨_, exec_write_of_lt hp hn⟩
    · exact ⟨_, exec_write_of_le hp hn⟩
  | nready => exact ⟨_, exec_nready_onP hp⟩
  | freesp => exact ⟨_, exec_freesp_onP hp⟩
  | _ => exact ⟨_, exec_of_not_legalOn (by rw [hp]; rfl)⟩

/-- On port C a RESET or SETSIZE needs an IDLE producer, and GETINFO an axis whose entries have values. -/
theorem exec_continues_onC {i : Instr} {s : State} (hp : s.port = .C) (hstore : StoreInv s)
    (hidle : i = .reset ∨ (∃ cap, i = .setsize cap) → s.pPhase = .idle) : ∃ t, exec i s = .next t := by
  cases i with
  | write n => exact ⟨_, exec_of_not_legalOn (by rw [hp]; rfl)⟩
  | read n c =>
    rcases lt_or_ge n c with hc | hc
    · exact ⟨_, exec_read_of_lt_release hp hc⟩
    rcases lt_or_ge (readyC s) n with hn | hn
    · exact ⟨_, exec_read_of_ready_lt hp hc hn⟩
    · exact ⟨_, exec_read_of_le hp hc hn⟩
  | nready => exact ⟨_, exec_nready_onC hp⟩
  | freesp => exact ⟨_, exec_freesp_onC hp⟩
  | reset => exact ⟨_, exec_reset_of_idle hp (hidle (.inl rfl))⟩
  | setsize cap =>
    cases hl : legalCapacity s.cfg.depth cap with
    | false => exact ⟨_, exec_setsize_of_illegal hp hl⟩
    | true => exact ⟨_, exec_setsize_of_idle hp hl (hidle (.inr ⟨cap, rfl⟩))⟩
  | rdcsr addr =>
    by_cases h : ∃ r : Csr, addr = r.addr
    · obtain ⟨r, rfl⟩ := h
      exact ⟨_, exec_rdcsr_addr hp r⟩
    · exact ⟨_, exec_rdcsr_of_unpopulated hp (not_exists.1 h)⟩
  | wrcsr addr v =>
    by_cases h : ∃ r : Csr, r.writable = true ∧ addr = r.addr
    · obtain ⟨r, hw, rfl⟩ := h
      cases hv : r.reserved v with
      | false => exact ⟨_, exec_wrcsr_of_writable hp hw hv⟩
      | true => exact ⟨_, exec_wrcsr_of_reserved hp hw hv⟩
    · exact ⟨_, exec_wrcsr_of_no_writable hp (fun r hw hr => h ⟨r, hw, hr⟩) v⟩
  | axbuild =>
    cases ha : axisAccepted s.cfg.resMax s.res s.fmin s.fmax s.dist s.srate with
    | false => exact ⟨_, exec_axbuild_of_not_accepted hp ha⟩
    | true => exact ⟨_, exec_axbuild_of_accepted hp ha⟩
  | update =>
    cases ha : s.axisValid with
    | false => exact ⟨_, exec_update_of_no_axis hp ha⟩
    | true =>
      rcases lt_or_ge (readyC s) s.cfg.fftSize with hr | hr
      · exact ⟨_, exec_update_of_ready_lt hp ha hr⟩
      · exact ⟨_, exec_update_of_le hp ha hr⟩
  | getinfo idx =>
    cases ha : s.axisValid with
    | false => exact ⟨_, exec_getinfo_of_no_axis hp ha idx⟩
    | true =>
      rcases lt_or_ge idx s.aRes.toNat with hi | hi
      · obtain ⟨-, hwritten⟩ := hstore.axis_written ha
        obtain ⟨f, hf⟩ := Option.ne_none_iff_exists'.1 (hwritten idx hi)
        exact ⟨_, exec_getinfo_of_lt hp ha hi f hf⟩
      · exact ⟨_, exec_getinfo_of_ares_le hp ha hi⟩
  | getbin k =>
    rcases lt_or_ge k s.cfg.bins with hk | hk
    · exact ⟨_, exec_getbin_of_lt hp hk⟩
    · exact ⟨_, exec_getbin_of_bins_le hp hk⟩

theorem runWord_continues {cw : CmdWord} {s : State} (h : ∀ i, decode cw = .ok i → ∃ t, exec i s = .next t) :
    ∃ t, runWord cw s = .next t := by
  cases hd : decode cw with
  | error e => exact ⟨_, runWord_of_reject hd s⟩
  | ok i =>
    rw [runWord_of_decode hd]
    exact h i hd

theorem noteWindow_continues {cw : CmdWord} {r : Result} (h : ∃ t, r = .next t) : ∃ t, noteWindow cw r = .next t := by
  obtain ⟨t, rfl⟩ := h
  cases hq : isQuiesce cw with
  | false => exact ⟨t, noteWindow_of_not_quiesce hq _⟩
  | true => exact ⟨_, noteWindow_of_quiesce hq t⟩

theorem stepC_idle_nil {s : State} (hp : s.cPhase = .idle) (hc : s.cCmd = []) : stepC s = .next s := by
  rw [stepC, hp, hc]

/-! ### The agents' steps under the invariant -/

section Agents

variable {s : State} {ts : List Turn} (h : Inv s)
include h

theorem step_agentP_continues (ht : s.turns = .agentP :: ts) : ∃ t, step s = .next t := by
  cases hp : s.pPhase with
  | idle =>
    cases hc : s.pCmd with
    | nil =>
      rw [step_of_agentP_turn ht]
      exact ⟨_, stepP_idle_nil (s := { s with turns := ts }) hp hc⟩
    | cons cw rest =>
      rw [step_firstWordP ht hp hc]
      exact runWord_continues fun i _ => exec_continues_onP rfl i
  | busy =>
    cases hd : s.pDat with
    | nil =>
      rw [step_of_agentP_turn ht]
      exact ⟨_, stepP_busy_nil (s := { s with turns := ts }) hp hd⟩
    | cons item rest => exact ⟨_, step_writeBeat h.ring ht hp hd⟩

/-- A RESET or SETSIZE on offer holds the window open, in which the producer is IDLE (70_reset_and_hazards.md R291). -/
theorem step_takeWordC_continues (ht : s.turns = .agentC :: ts) (hp : s.cPhase = .idle) {cw : CmdWord}
    {rest : List CmdWord} (hc : s.cCmd = cw :: rest) : ∃ t, step s = .next t := by
  rw [step_firstWordC ht hp hc]
  refine noteWindow_continues (runWord_continues fun i hi => exec_continues_onC rfl { h.store with } fun hq => ?_)
  have hopen : windowOpen s = true := (windowOpen_iff s).2 (.inl ⟨cw, by simp [hc], isQuiesce_of_decode hi hq⟩)
  exact (h.window.quiescent hopen).2

/-- A beat that is enabled finds its item in the ring. -/
theorem step_beats_continues (ht : s.turns = .agentC :: ts) (hp : s.cPhase = .beats) : ∃ t, step s = .next t := by
  cases hen : beatEnabled s with
  | false =>
    rw [step_beats ht hp]
    exact ⟨_, beatStep_of_not_enabled (s := { s with turns := ts }) hen⟩
  | true =>
    obtain ⟨item, hread⟩ := ringRead_cOff h hp
    exact ⟨_, step_readBeat h ht hp hen hread⟩

theorem step_agentC_continues (ht : s.turns = .agentC :: ts) : ∃ t, step s = .next t := by
  cases hp : s.cPhase with
  | idle =>
    cases hc : s.cCmd with
    | nil =>
      rw [step_of_agentC_turn ht]
      exact ⟨_, stepC_idle_nil (s := { s with turns := ts }) hp hc⟩
    | cons cw rest => exact step_takeWordC_continues h ht hp hc
  | beats => exact step_beats_continues h ht hp
  | release => exact ⟨_, step_release ht hp⟩
  | compute =>
    obtain ⟨xs, fs, -, -, hstep⟩ := step_compute h ht hp
    exact ⟨_, hstep⟩

end Agents

/-! ### The host's offers (70_reset_and_hazards.md R291) -/

theorem hostOfferP_of_open {s : State} (h : windowOpen s = true) (cw : CmdWord) :
    hostOfferP cw s = .fault .producerNotQuiescent := if_pos h

theorem hostOfferP_of_closed {s : State} (h : windowOpen s = false) (cw : CmdWord) :
    hostOfferP cw s = .next { s with pCmd := s.pCmd ++ [cw] } := if_neg (by simp [h])

/-- The offer of `cw` on port C breaks R291: a RESET or SETSIZE while port P is not quiescent. -/
def BreaksQuiescence (cw : CmdWord) (s : State) : Prop := isQuiesce cw = true ∧ ¬ (s.pCmd = [] ∧ s.pPhase = .idle)

theorem hostOfferC_of_breaks {cw : CmdWord} {s : State} (h : BreaksQuiescence cw s) :
    hostOfferC cw s = .fault .producerNotQuiescent :=
  if_pos (by simpa [BreaksQuiescence, imp_iff_not_or] using h)

theorem hostOfferC_of_not_breaks {cw : CmdWord} {s : State} (h : ¬ BreaksQuiescence cw s) :
    hostOfferC cw s = .next { s with cCmd := s.cCmd ++ [cw] } :=
  if_neg (by simpa [BreaksQuiescence] using h)

/-- Settles O33: under the invariant the agents' steps have the values and the quiescent producer they need, so only the two
offers can be refused. -/
theorem onlyTheHostCausesFaults : Obligations.OnlyTheHostCausesFaults := by
  intro s h
  cases ht : s.turns with
  | nil =>
    left
    rw [step, ht]
    exact ⟨s, rfl⟩
  | cons u ts =>
    cases u with
    | agentP => exact .inl (step_agentP_continues h ht)
    | agentC => exact .inl (step_agentC_continues h ht)
    | offerP cw =>
      cases hw : windowOpen s with
      | false => exact .inl ⟨_, (step_of_turn ht).trans (hostOfferP_of_closed (s := { s with turns := ts }) hw cw)⟩
      | true =>
        exact .inr ⟨(step_of_turn ht).trans (hostOfferP_of_open (s := { s with turns := ts }) hw cw), cw, ts,
          .inl ⟨rfl, rfl⟩⟩
    | offerC cw =>
      by_cases hb : BreaksQuiescence cw s
      · exact .inr ⟨(step_of_turn ht).trans (hostOfferC_of_breaks (s := { s with turns := ts }) hb), cw, ts,
          .inr ⟨rfl, hb⟩⟩
      · exact .inl ⟨_, (step_of_turn ht).trans (hostOfferC_of_not_breaks (s := { s with turns := ts }) hb)⟩
    | _ => exact .inl ⟨_, step_of_turn ht⟩

end Sys2Proof.Machine

namespace Sys2Proof.Machine

/-! ### Who writes the averaging window and the level range (70_reset_and_hazards.md R282) -/

/-- From `s` to `t` the averaging window, its pointer and the level range are kept. -/
structure SameAverage (s t : State) : Prop where
  avg : t.avg = s.avg
  avgPtr : t.avgPtr = s.avgPtr
  rngMin : t.rngMin = s.rngMin
  rngMax : t.rngMax = s.rngMax

/-- No command writes them: RESET and SETSIZE clear pointers of the ring, and AXBUILD the axis and OUT. -/
theorem sameAverage_of_effect {i : Instr} {s u : State} (h : Effect s i u) : SameAverage s u := by
  cases h <;> constructor <;> simp

theorem sameAverage_runWord {cw : CmdWord} {s t : State} (h : runWord cw s = .next t) : SameAverage s t := by
  rcases runWord_next h with ⟨i, -, h⟩ | ⟨-, rfl⟩
  · cases exec_answered h with
    | silent he => exact sameAverage_of_effect he
    | respond he st d1 d0 => exact { sameAverage_of_effect he with }
  · constructor <;> rfl

theorem sameAverage_stepP {s t : State} (h : stepP s = .next t) : SameAverage s t := by
  rcases stepP_next h with ⟨-, -, rfl⟩ | ⟨-, cw, rest, -, h⟩ | ⟨-, -, rfl⟩ | ⟨-, item, rest, -, h⟩
  · constructor <;> rfl
  · exact { sameAverage_runWord h with }
  · constructor <;> rfl
  · rw [(writeBeat_next h).2]
    constructor <;> rfl

theorem sameAverage_beatStep {s t : State} (h : beatStep s = .next t) : SameAverage s t := by
  rcases beatStep_next h with ⟨-, rfl⟩ | ⟨-, -, item, -, rfl⟩
  · constructor <;> rfl
  · constructor <;> simp

/-- Only in COMPUTE does agent C write them. -/
theorem sameAverage_stepC {s t : State} (h : stepC s = .next t) : SameAverage s t ∨ s.cPhase = .compute := by
  rcases stepC_next h with ⟨-, -, rfl⟩ | ⟨-, cw, rest, -, h⟩ | ⟨-, h⟩ | ⟨-, rfl⟩ | ⟨hp, -⟩
  · exact .inl ⟨rfl, rfl, rfl, rfl⟩
  · obtain ⟨u, hu, rfl⟩ := noteWindow_next h
    have hsame := sameAverage_runWord hu
    left
    split
    · exact { hsame with }
    · exact { hsame with }
  · exact .inl (sameAverage_beatStep h)
  · exact .inl ⟨rfl, rfl, rfl, rfl⟩
  · exact .inr hp

theorem sameAverage_runTurn {u : Turn} {s t : State} (h : runTurn u s = .next t) :
    SameAverage s t ∨ u = .rst ∨ (u = .agentC ∧ s.cPhase = .compute) := by
  cases u with
  | agentP => exact .inl (sameAverage_stepP h)
  | agentC => exact (sameAverage_stepC h).imp_right fun hp => .inr ⟨rfl, hp⟩
  | rst => exact .inr (.inl rfl)
  | offerP cw =>
    rw [(hostOfferP_next h).2]
    exact .inl ⟨rfl, rfl, rfl, rfl⟩
  | offerC cw =>
    rw [(hostOfferC_next h).2]
    exact .inl ⟨rfl, rfl, rfl, rfl⟩
  | _ => cases h; exact .inl ⟨rfl, rfl, rfl, rfl⟩

/-- Settles O40: no command writes them, and of the later steps only the compute step does. -/
theorem averageChangesOnlyInCompute : Obligations.AverageChangesOnlyInCompute := by
  intro s t u ts ht h
  rw [step_of_turn ht] at h
  refine (sameAverage_runTurn h).imp_left fun hsame => ?_
  obtain ⟨havg, hptr, hmin, hmax⟩ := hsame
  exact ⟨havg, hptr, hmin, hmax⟩

end Sys2Proof.Machine
